-- ==== Sys2Proof/Word.lean ====
section
/-! DEFINITION. The word types of secp256k1-core: bytes, the 32-bit bus and command word (spec/30_encoding.md R81,
spec/20_memory.md R52) and the 256-bit register value (spec/10_state.md R20). -/

namespace Sys2Proof

/-- One byte of a byte string (spec/00_scope.md R11). -/
abbrev Byte := BitVec 8

/-- A 32-bit bus word or command word (spec/20_memory.md R52, spec/30_encoding.md R81). -/
abbrev Word := BitVec 32

/-- The content of a 256-bit register, the spec's u256 (spec/00_scope.md R9, spec/10_state.md R20). -/
abbrev U256 := BitVec 256

/-- A 32-byte string, byte 0 first: the answer of the HMAC port (spec/10_state.md R36). -/
abbrev Bytes32 := Vector Byte 32

end Sys2Proof
end

