-- ==== Sys2Proof/Syntax.lean ====
section
/-! DEFINITION. The commands of secp256k1-core: one constructor for each row of spec/opcode_table.json, with the
operand roles of spec/30_encoding.md R86. -/

namespace Sys2Proof

/-- The index of a data register V0..V15 (spec/30_encoding.md R82). -/
abbrev VReg := Fin 16

/-- The index of a point register PR0..PR7 (spec/30_encoding.md R82). -/
abbrev PReg := Fin 8

/-- The modulus a field command computes with, selected by MSEL (spec/30_encoding.md R83). -/
inductive Modulus where
  /-- MSEL = 0b00: the content of `V[FD]`. -/
  | reg (d : VReg)
  /-- MSEL = 0b01: the curve prime P. -/
  | prime
  /-- MSEL = 0b10: the group order N. -/
  | order
deriving DecidableEq, Repr

/-- A command, operands in the order of spec/30_encoding.md R86 and R90. -/
inductive Instr where
  | fchk (a : VReg) (m : Modulus)
  | fadd (d a b : VReg) (m : Modulus)
  | fsub (d a b : VReg) (m : Modulus)
  | fmul (d a b : VReg) (m : Modulus)
  | fdiv (d a b : VReg) (m : Modulus)
  | finv (d a : VReg) (m : Modulus)
  /-- FPOW (`neg = false`) and FPOW.NEG (`neg = true`), R121: `d <- a ^ e`. -/
  | fpow (neg : Bool) (d a e : VReg) (m : Modulus)
  | fsqrt (d a : VReg) (m : Modulus)
  | pset (d : PReg) (x y : VReg)
  | pinf (d : PReg)
  | pgen (d : PReg)
  | padd (d p q : PReg)
  | pmul (d p : PReg) (k : VReg)
  | pgetx (d : VReg) (p : PReg)
  | pgety (d : VReg) (p : PReg)
  /-- KPUB: public key of the private key in `k`. -/
  | kpub (d : PReg) (k : VReg)
  /-- NONCE: nonce of the private key in `d` and the digest in `z`. -/
  | nonce (k d z : VReg)
  /-- SIGN: signature `(r, s)` of the digest in `z` under the private key in `d`. -/
  | sign (r d z s : VReg)
  /-- VERIFY: signature `(r, s)` of the digest in `z` under the public key in `q`. -/
  | verify (q : PReg) (z r s : VReg)
deriving DecidableEq, Repr

end Sys2Proof
end

