-- ==== Sys2Proof/WellFormed.lean ====
section
/-! DEFINITION. Which commands are well formed. The types of spec/30_encoding.md R82 and R83 (register indices in range,
one of three moduli) are in the syntax; two conditions of R84 are left: condition 2 (NONCE only while it is a command)
and condition 8 (SIGN's two destinations differ). -/

namespace Sys2Proof

/-- Well-formedness of a command (spec/30_encoding.md R84, conditions 2 and 8), under the parameter
`NONCE_CMD_ENABLED` of spec/00_scope.md R8. -/
def Instr.wf (nonceEnabled : Bool) : Instr → Bool
  | .nonce _ _ _ => nonceEnabled
  | .sign r _ _ s => r != s
  | .fchk _ _ | .fadd _ _ _ _ | .fsub _ _ _ _ | .fmul _ _ _ _ | .fdiv _ _ _ _ | .finv _ _ _
  | .fpow _ _ _ _ _ | .fsqrt _ _ _ | .pset _ _ _ | .pinf _ | .pgen _ | .padd _ _ _ | .pmul _ _ _
  | .pgetx _ _ | .pgety _ _ | .kpub _ _ | .verify _ _ _ _ => true

end Sys2Proof
end

