-- ==== Sys2Proof/Decode.lean ====
section
/-! DEFINITION. From command words to commands and back (spec/30_encoding.md R81 to R90). Decoding is total on all
2^32 words and rejects by name; the engine completes every rejected word with IllegalCommand (R84). -/

namespace Sys2Proof

/-- Why a word is no command: the conditions of spec/30_encoding.md R84, by number. -/
inductive DecodeError where
  /-- 1: a bit of 31..25 is set. -/
  | reservedBits
  /-- 2: OPC is none of the 19 opcodes. -/
  | reservedOpcode
  /-- 2: OPC = 0x21 while NONCE_CMD_ENABLED is false. -/
  | nonceDisabled
  /-- 3: MSEL = 0b11. -/
  | reservedMsel
  /-- 4: MSEL ≠ 0b00 on a command that is no field command. -/
  | mselNotField
  /-- 5: NEG = 1 on a command other than FPOW. -/
  | negNotFpow
  /-- 6: a field whose role is zero is not 0. -/
  | fieldNotZero
  /-- 7: a point-register field holds 8 or more. -/
  | pointIndex
  /-- 8: SIGN with FA = FD. -/
  | signSameDest
deriving DecidableEq, Repr

/-- The fields of a command word (spec/30_encoding.md R81). -/
structure Fields where
  opc : BitVec 6
  msel : BitVec 2
  fa : BitVec 4
  fb : BitVec 4
  fc : BitVec 4
  fd : BitVec 4
  neg : BitVec 1
  reserved : BitVec 7
deriving DecidableEq, Repr

/-- Reading the fields of a word, at the bit positions of R81. -/
def Fields.ofWord (w : Word) : Fields :=
  { opc := w.extractLsb' 0 6, msel := w.extractLsb' 6 2
    fa := w.extractLsb' 8 4, fb := w.extractLsb' 12 4, fc := w.extractLsb' 16 4, fd := w.extractLsb' 20 4
    neg := w.extractLsb' 24 1, reserved := w.extractLsb' 25 7 }

/-- The encoder of R81, `OPC | MSEL<<6 | FA<<8 | FB<<12 | FC<<16 | FD<<20 | NEG<<24`, with the reserved bits above. -/
def Fields.toWord (f : Fields) : Word :=
  f.opc.setWidth 32 ||| f.msel.setWidth 32 <<< 6 ||| f.fa.setWidth 32 <<< 8 ||| f.fb.setWidth 32 <<< 12
    ||| f.fc.setWidth 32 <<< 16 ||| f.fd.setWidth 32 <<< 20 ||| f.neg.setWidth 32 <<< 24 ||| f.reserved.setWidth 32 <<< 25

/-- A check of R84: rejects by the name `e` unless `c` holds. -/
def require (c : Bool) (e : DecodeError) : Except DecodeError Unit :=
  if c then .ok () else .error e

/-- A field whose role is a data register (R82). -/
def dataField (f : BitVec 4) : VReg := f.toFin

/-- A field whose role is a point register: legal only for 0..7 (R82, condition 7 of R84). -/
def pointField (f : BitVec 4) : Except DecodeError PReg :=
  if h : f.toNat < 8 then .ok ⟨f.toNat, h⟩ else .error .pointIndex

/-- A field whose role is zero (R82, condition 6 of R84). -/
def zeroField (f : BitVec 4) : Except DecodeError Unit := require (f == 0) .fieldNotZero

/-- The modulus a field command's MSEL and FD select (R83; conditions 3 and 6 of R84). -/
def decodeModulus (msel : BitVec 2) (fd : BitVec 4) : Except DecodeError Modulus :=
  match msel.toNat with
  | 0 => .ok (.reg (dataField fd))
  | 1 => do zeroField fd; pure .prime
  | 2 => do zeroField fd; pure .order
  | _ => .error .reservedMsel

/-- The field commands are the opcodes 0x01 to 0x08 (R83). -/
def isFieldOpcode (opc : BitVec 6) : Bool := 0x01 ≤ opc.toNat && opc.toNat ≤ 0x08

/-- The operands of a field command (R86), its modulus already decoded. -/
def decodeFieldCommand (f : Fields) (m : Modulus) : Except DecodeError Instr :=
  match f.opc.toNat with
  | 0x01 => do zeroField f.fa; zeroField f.fc; pure (.fchk (dataField f.fb) m)
  | 0x02 => .ok (.fadd (dataField f.fa) (dataField f.fb) (dataField f.fc) m)
  | 0x03 => .ok (.fsub (dataField f.fa) (dataField f.fb) (dataField f.fc) m)
  | 0x04 => .ok (.fmul (dataField f.fa) (dataField f.fb) (dataField f.fc) m)
  | 0x05 => .ok (.fdiv (dataField f.fa) (dataField f.fb) (dataField f.fc) m)
  | 0x06 => do zeroField f.fc; pure (.finv (dataField f.fa) (dataField f.fb) m)
  | 0x07 => .ok (.fpow (f.neg == 1) (dataField f.fa) (dataField f.fb) (dataField f.fc) m)
  | 0x08 => do zeroField f.fc; pure (.fsqrt (dataField f.fa) (dataField f.fb) m)
  | _ => .error .reservedOpcode

/-- The operands of a curve or ECDSA command (R86); `nonceEnabled` is NONCE_CMD_ENABLED (condition 2 of R84). -/
def decodePointCommand (nonceEnabled : Bool) (f : Fields) : Except DecodeError Instr :=
  match f.opc.toNat with
  | 0x10 => do
    let d ← pointField f.fa
    zeroField f.fd
    pure (.pset d (dataField f.fb) (dataField f.fc))
  | 0x11 => do
    let d ← pointField f.fa
    zeroField f.fb; zeroField f.fc; zeroField f.fd
    pure (.pinf d)
  | 0x12 => do
    let d ← pointField f.fa
    zeroField f.fb; zeroField f.fc; zeroField f.fd
    pure (.pgen d)
  | 0x13 => do
    let d ← pointField f.fa
    let p ← pointField f.fb
    let q ← pointField f.fc
    zeroField f.fd
    pure (.padd d p q)
  | 0x14 => do
    let d ← pointField f.fa
    let p ← pointField f.fb
    zeroField f.fd
    pure (.pmul d p (dataField f.fc))
  | 0x15 => do
    let p ← pointField f.fb
    zeroField f.fc; zeroField f.fd
    pure (.pgetx (dataField f.fa) p)
  | 0x16 => do
    let p ← pointField f.fb
    zeroField f.fc; zeroField f.fd
    pure (.pgety (dataField f.fa) p)
  | 0x20 => do
    let d ← pointField f.fa
    zeroField f.fc; zeroField f.fd
    pure (.kpub d (dataField f.fb))
  | 0x21 => do
    require nonceEnabled .nonceDisabled
    zeroField f.fd
    pure (.nonce (dataField f.fa) (dataField f.fb) (dataField f.fc))
  | 0x22 => do
    require (f.fa != f.fd) .signSameDest
    pure (.sign (dataField f.fa) (dataField f.fb) (dataField f.fc) (dataField f.fd))
  | 0x23 => do
    let q ← pointField f.fa
    pure (.verify q (dataField f.fb) (dataField f.fc) (dataField f.fd))
  | _ => .error .reservedOpcode

/-- Decoding the fields of a word, every condition of R84. -/
def decodeFields (nonceEnabled : Bool) (f : Fields) : Except DecodeError Instr := do
  require (f.reserved == 0) .reservedBits
  require (f.neg == 0 || f.opc.toNat == 0x07) .negNotFpow
  if isFieldOpcode f.opc then
    let m ← decodeModulus f.msel f.fd
    decodeFieldCommand f m
  else
    require (f.msel.toNat != 3) .reservedMsel
    require (f.msel == 0) .mselNotField
    decodePointCommand nonceEnabled f

/-- Decoding a command word (spec/30_encoding.md R84); `nonceEnabled` is the parameter NONCE_CMD_ENABLED. -/
def decode (nonceEnabled : Bool) (w : Word) : Except DecodeError Instr :=
  decodeFields nonceEnabled (Fields.ofWord w)

/-- The decoder on a word of the opcode table's numbering, with the default NONCE_CMD_ENABLED = true
(spec/00_scope.md R8). The command is one 32-bit word (R89): bit 0 is its least significant bit. -/
def decodeTableWord (nbits w : Nat) : Option Instr :=
  match decode true (BitVec.ofNat 32 (w % 2 ^ nbits)) with
  | .ok i => some i
  | .error _ => none

/-! ### The encoder -/

/-- The field of a data register. -/
def encodeData (r : VReg) : BitVec 4 := BitVec.ofNat 4 r.val

/-- The field of a point register. -/
def encodePoint (r : PReg) : BitVec 4 := BitVec.ofNat 4 r.val

/-- MSEL of a modulus (R83). -/
def encodeMsel : Modulus → BitVec 2
  | .reg _ => 0b00
  | .prime => 0b01
  | .order => 0b10

/-- FD of a field command (R83). -/
def encodeModulusField : Modulus → BitVec 4
  | .reg d => encodeData d
  | .prime => 0
  | .order => 0

/-- The fields of a field command with opcode `opc`. -/
def fieldCommand (opc : BitVec 6) (fa fb fc : BitVec 4) (neg : Bool) (m : Modulus) : Fields :=
  { opc := opc, msel := encodeMsel m, fa := fa, fb := fb, fc := fc, fd := encodeModulusField m
    neg := BitVec.ofBool neg, reserved := 0 }

/-- The fields of a curve or ECDSA command with opcode `opc`. -/
def pointCommand (opc : BitVec 6) (fa fb fc fd : BitVec 4) : Fields :=
  { opc := opc, msel := 0, fa := fa, fb := fb, fc := fc, fd := fd, neg := 0, reserved := 0 }

/-- The fields of a command: opcodes of R85, operand roles of R86. -/
def encodeFields : Instr → Fields
  | .fchk a m => fieldCommand 0x01 0 (encodeData a) 0 false m
  | .fadd d a b m => fieldCommand 0x02 (encodeData d) (encodeData a) (encodeData b) false m
  | .fsub d a b m => fieldCommand 0x03 (encodeData d) (encodeData a) (encodeData b) false m
  | .fmul d a b m => fieldCommand 0x04 (encodeData d) (encodeData a) (encodeData b) false m
  | .fdiv d a b m => fieldCommand 0x05 (encodeData d) (encodeData a) (encodeData b) false m
  | .finv d a m => fieldCommand 0x06 (encodeData d) (encodeData a) 0 false m
  | .fpow neg d a e m => fieldCommand 0x07 (encodeData d) (encodeData a) (encodeData e) neg m
  | .fsqrt d a m => fieldCommand 0x08 (encodeData d) (encodeData a) 0 false m
  | .pset d x y => pointCommand 0x10 (encodePoint d) (encodeData x) (encodeData y) 0
  | .pinf d => pointCommand 0x11 (encodePoint d) 0 0 0
  | .pgen d => pointCommand 0x12 (encodePoint d) 0 0 0
  | .padd d p q => pointCommand 0x13 (encodePoint d) (encodePoint p) (encodePoint q) 0
  | .pmul d p k => pointCommand 0x14 (encodePoint d) (encodePoint p) (encodeData k) 0
  | .pgetx d p => pointCommand 0x15 (encodeData d) (encodePoint p) 0 0
  | .pgety d p => pointCommand 0x16 (encodeData d) (encodePoint p) 0 0
  | .kpub d k => pointCommand 0x20 (encodePoint d) (encodeData k) 0 0
  | .nonce k d z => pointCommand 0x21 (encodeData k) (encodeData d) (encodeData z) 0
  | .sign r d z s => pointCommand 0x22 (encodeData r) (encodeData d) (encodeData z) (encodeData s)
  | .verify q z r s => pointCommand 0x23 (encodePoint q) (encodeData z) (encodeData r) (encodeData s)

/-- The command word of a command (spec/30_encoding.md R81). -/
def encode (i : Instr) : Word := (encodeFields i).toWord

/-! ### The assembler spelling (R90, R92) -/

/-- `v0` .. `v15`. -/
def asmData (r : VReg) : String := "v" ++ toString r.val

/-- `pr0` .. `pr7`. -/
def asmPoint (r : PReg) : String := "pr" ++ toString r.val

/-- The modulus operand: `vN`, `p` or `n`. -/
def asmModulus : Modulus → String
  | .reg d => asmData d
  | .prime => "p"
  | .order => "n"

/-- A mnemonic and its operands, separated by commas. -/
def asmLine (mnemonic : String) (operands : List String) : String :=
  mnemonic ++ " " ++ String.intercalate ", " operands

/-- The assembler spelling of a command (R90). -/
def asm : Instr → String
  | .fchk a m => asmLine "fchk" [asmData a, asmModulus m]
  | .fadd d a b m => asmLine "fadd" [asmData d, asmData a, asmData b, asmModulus m]
  | .fsub d a b m => asmLine "fsub" [asmData d, asmData a, asmData b, asmModulus m]
  | .fmul d a b m => asmLine "fmul" [asmData d, asmData a, asmData b, asmModulus m]
  | .fdiv d a b m => asmLine "fdiv" [asmData d, asmData a, asmData b, asmModulus m]
  | .finv d a m => asmLine "finv" [asmData d, asmData a, asmModulus m]
  | .fpow neg d a e m =>
    asmLine (if neg then "fpow.neg" else "fpow") [asmData d, asmData a, asmData e, asmModulus m]
  | .fsqrt d a m => asmLine "fsqrt" [asmData d, asmData a, asmModulus m]
  | .pset d x y => asmLine "pset" [asmPoint d, asmData x, asmData y]
  | .pinf d => asmLine "pinf" [asmPoint d]
  | .pgen d => asmLine "pgen" [asmPoint d]
  | .padd d p q => asmLine "padd" [asmPoint d, asmPoint p, asmPoint q]
  | .pmul d p k => asmLine "pmul" [asmPoint d, asmPoint p, asmData k]
  | .pgetx d p => asmLine "pgetx" [asmData d, asmPoint p]
  | .pgety d p => asmLine "pgety" [asmData d, asmPoint p]
  | .kpub d k => asmLine "kpub" [asmPoint d, asmData k]
  | .nonce k d z => asmLine "nonce" [asmData k, asmData d, asmData z]
  | .sign r d z s => asmLine "sign" [asmData r, asmData d, asmData z, asmData s]
  | .verify q z r s => asmLine "verify" [asmPoint q, asmData z, asmData r, asmData s]

/-- Pseudo-instruction `fsq vd, va, M` (R92). -/
def pseudoFsq (d a : VReg) (m : Modulus) : Instr := .fmul d a a m

/-- Pseudo-instruction `pdbl prd, prp` (R92). -/
def pseudoPdbl (d p : PReg) : Instr := .padd d p p

/-- Pseudo-instruction `fneg vd, va, vz, M` (R92), `z` a register that holds 0. -/
def pseudoFneg (d a z : VReg) (m : Modulus) : Instr := .fsub d z a m

end Sys2Proof
end

