-- ==== Sys2Proof/Machine/Constants.lean ====
section
/-! DEFINITION. The constant store (spec/10_state.md R34) and the identification word (R33). The values of P, N and G are
marked in the spec as supplied from general knowledge (assumption 6). -/

namespace Sys2Proof.Machine

/-- P, the curve prime (R34): 2^256 - 2^32 - 977. -/
def curveP : Nat := 0xFFFFFFFFFFFFFFFFFFFFFFFFFFFFFFFFFFFFFFFFFFFFFFFFFFFFFFFEFFFFFC2F

/-- N, the group order (R34). -/
def orderN : Nat := 0xFFFFFFFFFFFFFFFFFFFFFFFFFFFFFFFEBAAEDCE6AF48A03BBFD25E8CD0364141

/-- Gx, the generator's x coordinate (R34). -/
def genX : Nat := 0x79BE667EF9DCBBAC55A06295CE870B07029BFCDB2DCE28D959F2815B16F81798

/-- Gy, the generator's y coordinate (R34). -/
def genY : Nat := 0x483ADA7726A3C4655DA4FBFC0E1108A8FD17B448A68554199C47D08FFB10D4B8

/-- B, the constant of the curve equation (R34, R140). A = 0 and has no term. -/
def curveB : Nat := 7

/-- HALF_N = N div 2 (R34). -/
def halfN : Nat := orderN / 2

/-- The value ID reads (R33). -/
def idWord : Word := 0x256B0001

end Sys2Proof.Machine
end

