-- ==== Sys2Proof/Machine/Arith.lean ====
section
/-! DEFINITION. Exact modular arithmetic on naturals (spec/00_scope.md R10), the curve's points, group law and scalar
multiplication (spec/41_curve.md section 1 and 2). No intermediate value is truncated (spec/40_field.md R123). -/

namespace Sys2Proof.Machine

/-- `(a - b) mod m`, the Euclidean remainder, also where `a < b` (R10), for `m ≥ 1`. -/
def subMod (a b m : Nat) : Nat := (a + (m - b % m)) % m

/-- Square and multiply from the least significant bit: `acc * a ^ e mod m`, over at most the given number of bits of `e`. -/
def powmodBits (m : Nat) : Nat → Nat → Nat → Nat → Nat
  | 0, _, _, acc => acc
  | n + 1, a, e, acc => powmodBits m n (a * a % m) (e / 2) (if e % 2 = 1 then acc * a % m else acc)

/-- `powmod(a, e, m) = a^e mod m` with `a^0 = 1` (R10). Computed by square and multiply; only the value is
architectural (spec/40_field.md R125, assumption 14). -/
def powmod (a e m : Nat) : Nat := powmodBits m (Nat.log2 e + 1) (a % m) e (1 % m)

/-- `a / b mod m` by Fermat's little theorem (spec/40_field.md R118). -/
def divMod (a b m : Nat) : Nat := a * powmod b (m - 2) m % m

/-- The exponent FPOW uses (spec/40_field.md R120). -/
def powExponent (neg : Bool) (e m : Nat) : Nat :=
  if neg = true ∧ e ≠ 0 then subMod 0 e (m - 1) else e

/-- A point of the curve group (spec/00_scope.md R14). -/
inductive Point where
  | inf
  | fin (x y : Nat)
deriving DecidableEq, Repr

/-- `onCurve(x, y)` (spec/41_curve.md R140). -/
def onCurve (x y : Nat) : Bool := subMod (y * y) (x * x * x + curveB) curveP == 0

/-- A valid point (spec/41_curve.md R141). -/
def Point.valid : Point → Bool
  | .inf => true
  | .fin x y => decide (x < curveP) && decide (y < curveP) && onCurve x y

/-- The generator G (spec/10_state.md R34). -/
def generator : Point := .fin genX genY

/-- The third point of a line of slope `s` through points with x coordinates `x1` and `x2`, reflected:
`x3 = s^2 - x1 - x2`, `y3 = s * (x1 - x3) - y1` (spec/41_curve.md R145; cases 4 and 5). -/
def thirdPoint (s x1 x2 y1 : Nat) : Point :=
  let x3 := subMod (s * s) (x1 + x2) curveP
  .fin x3 (subMod (s * subMod x1 x3 curveP) y1 curveP)

/-- The group law, its five cases in order (spec/41_curve.md R145). -/
def ptAdd : Point → Point → Point
  | .inf, q => q
  | p, .inf => p
  | .fin x1 y1, .fin x2 y2 =>
    if (x1 = x2 ∧ y1 = y2) ∧ y1 = 0 then .inf
    else if x1 = x2 ∧ y1 ≠ y2 then .inf
    else if x1 = x2 ∧ y1 = y2 then thirdPoint (divMod (3 * (x1 * x1)) (2 * y1) curveP) x1 x1 y1
    else thirdPoint (divMod (subMod y2 y1 curveP) (subMod x2 x1 curveP) curveP) x1 x2 y1

/-- The double-and-add loop of spec/41_curve.md R147 over at most the given number of bits of `k`, least significant
first; it stops after the highest set bit, which R147 leaves to the implementation (assumption 14). -/
def ptMulBits : Nat → Nat → Point → Point → Point
  | 0, _, result, _ => result
  | n + 1, k, result, current =>
    if k = 0 then result
    else ptMulBits n (k / 2) (if k % 2 = 1 then ptAdd result current else result) (ptAdd current current)

/-- `ptMul(k, p)` for a u256 `k` (spec/41_curve.md R147); `k` is not reduced modulo N. -/
def ptMul (k : Nat) (p : Point) : Point := ptMulBits 256 k .inf p

/-- The x coordinate as a point register holds it: 0 for Inf (spec/10_state.md R23). -/
def Point.xCoord : Point → Nat
  | .inf => 0
  | .fin x _ => x

end Sys2Proof.Machine
end

