-- ==== Sys2Proof/Config.lean ====
section
/-! DEFINITION. The OPEN parameters of spec/00_scope.md R8, as plain data that a state carries and no step changes:
a statement about every state is a statement about every value of them. -/

namespace Sys2Proof

/-- One recorded transaction of an HMAC unit: for this key and message it answers `mac` (spec/10_state.md R36). -/
structure HmacRow where
  key : List Byte
  msg : List Byte
  mac : Bytes32
deriving DecidableEq, Repr

/-- The unit a platform connects to the external HMAC port (spec/10_state.md R36, the parameter `HMAC` of R8).
Each is a total function of key and message (assumption 4). -/
inductive HmacUnit where
  /-- HMAC-SHA-256, what a conforming platform supplies (R36). PRESUMED: its definition is not in the spec (assumption 5). -/
  | sha256
  /-- A unit given by a table: the first row with this key and message answers, `otherwise` where none does. -/
  | table (rows : List HmacRow) (otherwise : Bytes32)
  /-- A unit of which nothing is known (`Config.unknownHmac`). -/
  | unknown (id : Nat)
deriving DecidableEq, Repr

/-- The parameters of spec/00_scope.md R8 that are OPEN. -/
structure Config where
  /-- `BASE`, the bus address of the register window (spec/20_memory.md R51). -/
  base : Nat
  /-- `NONCE_MAX_ITER`, the cap of the nonce loop, at least 1 (spec/42_ecdsa.md R175). -/
  nonceMaxIter : Nat
  /-- `NONCE_CMD_ENABLED`: whether opcode 0x21 is a command (spec/42_ecdsa.md R174). -/
  nonceCmdEnabled : Bool
  /-- `HMAC`, the function of the external port (spec/10_state.md R36). -/
  hmac : HmacUnit
deriving DecidableEq, Repr

/-- The answers of HMAC units of which nothing is known: a value without a body, so that no proof can rest on it. -/
opaque Config.unknownHmac : Nat → List Byte → List Byte → Bytes32

/-- The parameter values at reset: R8's defaults for the nonce loop and the NONCE command, the conforming HMAC unit
of R36 (PRESUMED, assumption 5), and the window at bus address 0 (DESIGN CHOICE, assumption 3: R8 gives `BASE` no default). -/
def Config.default : Config :=
  { base := 0, nonceMaxIter := 64, nonceCmdEnabled := true, hmac := .sha256 }

end Sys2Proof
end

