-- ==== Sys2Proof/Machine/State.lean ====
section
/-! DEFINITION. The state of secp256k1-core (spec/10_state.md), the events that move it (spec/00_scope.md R17) and the
reset state (R42). Beside the spec's own state it holds three fields of the model's: the turns still to come
(assumption 1), the replies the host has received (assumption 2) and the OPEN parameters (assumption 3). -/

namespace Sys2Proof.Machine

/-- A point register (R22): the coordinates and bit 0 of TAG, `INF`. Bits 31..1 of TAG read 0 and hold nothing. -/
structure PointReg where
  inf : Bool
  x : U256
  y : U256
deriving DecidableEq, Repr

/-- The engine's phase (R35). -/
inductive Phase where
  | idle
  /-- Running the accepted command word `c`. -/
  | busy (c : Word)
deriving DecidableEq, Repr

/-- What a host access does: `BusRead`, or `BusWrite` of a word (spec/20_memory.md R52). -/
inductive AccessKind where
  | read
  | write (w : Word)
deriving DecidableEq, Repr

/-- One host access at bus address `addr` of `size` bytes (R51, R57). Of an access whose size is not 4 the data does
not matter: it is refused. -/
structure BusAccess where
  addr : Nat
  size : Nat
  kind : AccessKind
deriving DecidableEq, Repr

/-- What the host gets back from an access (R52). -/
inductive Reply where
  /-- `OK(v)` of a read. -/
  | data (w : Word)
  /-- `OK` of a write. -/
  | ok
  /-- `BUSERR`. -/
  | busErr
  /-- The address is outside the window: the CORE does not respond (R51, assumption 10). -/
  | noResponse
deriving DecidableEq, Repr

/-- One turn: which agent moves (spec/00_scope.md R17, spec/60_exceptions.md R212). -/
inductive Turn where
  /-- The host accesses the bus. -/
  | access (a : BusAccess)
  /-- The engine takes its completion step, if it is busy. -/
  | engine
  /-- The platform's reset input (spec/70_reset_and_hazards.md R230). -/
  | powerOnReset
deriving DecidableEq, Repr

/-- Why a step of the machine stops. No rule of the spec stops it (spec/00_scope.md R19): every command completes and
every access returns a response. So no constructor exists, which is safe: it says of the model that no step faults. -/
inductive Fault where
deriving DecidableEq, Repr

/-- Why an instruction has no meaning. -/
inductive Refusal where
  /-- Raised by `exec` alone, for an instruction that is not modelled yet; safe. No arm of `exec` raises it. -/
  | notModelled (mnemonic : String)
deriving DecidableEq, Repr

/-- The state (R42 lists the spec's part of it). -/
structure State where
  /-- V0..V15 (R20). -/
  v : Vector U256 16
  /-- PR0..PR7 (R22). -/
  pr : Vector PointReg 8
  /-- CTRL.IE (R25). -/
  ie : Bool
  /-- STATUS.BUSY (R28). -/
  busy : Bool
  /-- STATUS.DONE (R29). -/
  done : Bool
  /-- STATUS.VALID (R31). -/
  valid : Bool
  /-- ERRCODE bits 7..0 (R32). -/
  errcode : Byte
  /-- LASTCMD, what CMD reads (R38). -/
  lastcmd : Word
  /-- The engine's phase (R35). -/
  phase : Phase
  /-- The model's own: the OPEN parameters of spec/00_scope.md R8. No step changes them. -/
  cfg : Config
  /-- The model's own: the turns still to come, the next first. -/
  turns : List Turn
  /-- The model's own: the replies to the host's accesses, the oldest first. -/
  replies : List Reply
deriving DecidableEq, Repr

/-- The reset value of a point register (R42): Inf, with zero coordinates. -/
def PointReg.reset : PointReg := { inf := true, x := 0, y := 0 }

/-- The state after reset (R42). No turn is to come and no reply was given; the parameters are R8's defaults
(`Config.default`). -/
def State.reset : State :=
  { v := Vector.replicate 16 0
    pr := Vector.replicate 8 PointReg.reset
    ie := false, busy := false, done := false, valid := false
    errcode := 0, lastcmd := 0, phase := .idle
    cfg := Config.default, turns := [], replies := [] }

end Sys2Proof.Machine
end

