-- ==== Sys2Proof/Machine/Flags.lean ====
section
/-! DEFINITION. The control and status words the host reads, the flags it writes (spec/10_state.md R25 to R32) and the
interrupt output (spec/60_exceptions.md R210). -/

namespace Sys2Proof.Machine

/-- Whether the engine runs a command (spec/10_state.md R35). -/
def Phase.isBusy : Phase → Bool
  | .idle => false
  | .busy _ => true

/-- A flag as a 32-bit word with the flag in bit `n`. -/
def flagBit (b : Bool) (n : Nat) : Word := (BitVec.ofBool b).setWidth 32 <<< n

/-- STATUS.ERR is not stored: ERRCODE ≠ 0 (R30). -/
def errFlag (s : State) : Bool := s.errcode != 0

/-- What STATUS reads (R27): BUSY, DONE, ERR, VALID in bits 0 to 3, the reserved bits 0. -/
def statusWord (s : State) : Word :=
  flagBit s.busy 0 ||| flagBit s.done 1 ||| flagBit (errFlag s) 2 ||| flagBit s.valid 3

/-- What CTRL reads (R25, R26): IE in bit 0; SRST and the reserved bits read 0. -/
def ctrlWord (s : State) : Word := flagBit s.ie 0

/-- What ERRCODE reads (R32): the code in bits 7..0. -/
def errcodeWord (s : State) : Word := s.errcode.setWidth 32

/-- A host write to STATUS (R29): bit 1 set clears DONE; nothing else is written. -/
def writeStatus (s : State) (w : Word) : State :=
  if w.getLsbD 1 then { s with done := false } else s

/-- The IE part of a host write to CTRL (R25): `IE <- v[0]`. -/
def writeIe (s : State) (w : Word) : State := { s with ie := w.getLsbD 0 }

/-- STATUS.VALID takes the verdict of a VERIFY (R31). -/
def setValid (s : State) (b : Bool) : State := { s with valid := b }

/-- The interrupt output, a level (spec/60_exceptions.md R210): `irq = CTRL.IE and STATUS.DONE`. -/
def irq (s : State) : Bool := s.ie && s.done

end Sys2Proof.Machine
end

