-- ==== Sys2Proof/Machine/Ops.lean ====
section
/-! DEFINITION. The shared operations: reading and writing registers (spec/10_state.md R20 to R23), acceptance of a
command (spec/30_encoding.md R80), its completion with success or with an error code (spec/60_exceptions.md R204, R205:
the hardware's trap entry and return) and reset (spec/10_state.md R42). -/

namespace Sys2Proof.Machine

/-! ### Registers -/

/-- `V[i]` (spec/00_scope.md R12). -/
def readV (s : State) (i : VReg) : U256 := s.v[i]

/-- `V[i] <- x`. -/
def writeV (s : State) (i : VReg) (x : U256) : State := { s with v := s.v.set i x }

/-- The value of a data register as a command computes with it. -/
def valV (s : State) (i : VReg) : Nat := (readV s i).toNat

/-- The three fields of `PR[i]`. -/
def readPR (s : State) (i : PReg) : PointReg := s.pr[i]

/-- A write of the three fields of `PR[i]`. -/
def writePR (s : State) (i : PReg) (r : PointReg) : State := { s with pr := s.pr.set i r }

/-- The value of a point register as a command reads it (R22): with TAG.INF = 1, X and Y are ignored. -/
def PointReg.value (r : PointReg) : Point := if r.inf then .inf else .fin r.x.toNat r.y.toNat

/-- The fields a command sets when it writes a point (R23). -/
def PointReg.ofPoint : Point → PointReg
  | .inf => { inf := true, x := 0, y := 0 }
  | .fin x y => { inf := false, x := BitVec.ofNat 256 x, y := BitVec.ofNat 256 y }

/-- `PR[i]` (R12, R22). -/
def valP (s : State) (i : PReg) : Point := (readPR s i).value

/-! ### The words of a 256-bit register -/

/-- The shift of word `j`: word 0 holds bits 255..224, word 7 bits 31..0 (spec/20_memory.md R54). -/
def wordShift (j : Fin 8) : Nat := 224 - 32 * j.val

/-- Word `j` of a 256-bit value (R54). -/
def wordAt (x : U256) (j : Fin 8) : Word := x.extractLsb' (wordShift j) 32

/-- A 256-bit value with word `j` replaced, the other bits unchanged (R54). -/
def setWordAt (x : U256) (j : Fin 8) (w : Word) : U256 :=
  (x &&& ~~~((0xFFFFFFFF#256) <<< wordShift j)) ||| (w.setWidth 256 <<< wordShift j)

/-! ### Completion -/

/-- The error codes commands raise (spec/60_exceptions.md R200). The codes 0x02, 0x05, 0x06 and 0x07 of that table are
reserved and raised by none. -/
inductive ErrCode where
  | outOfRange
  | divisionByZero
  | invalidCurvePoint
  | illegalCommand
  | invalidModulus
  | pointAtInfinity
  | nonceExhausted
  | signatureDegenerate
deriving DecidableEq, Repr

/-- The number of an error code (R200). -/
def errNumber : ErrCode → Byte
  | .outOfRange => 0x01
  | .divisionByZero => 0x03
  | .invalidCurvePoint => 0x04
  | .illegalCommand => 0x10
  | .invalidModulus => 0x11
  | .pointAtInfinity => 0x12
  | .nonceExhausted => 0x13
  | .signatureDegenerate => 0x14

/-- What a command that completes with success writes (spec/60_exceptions.md R205). -/
inductive Result where
  /-- No destination (FCHK). -/
  | none
  /-- One data register. -/
  | data (d : VReg) (x : Nat)
  /-- One point register. -/
  | point (d : PReg) (p : Point)
  /-- SIGN's two data registers. -/
  | signature (dr : VReg) (r : Nat) (ds : VReg) (s : Nat)
  /-- STATUS.VALID (VERIFY). -/
  | verdict (b : Bool)
deriving DecidableEq, Repr

/-- Writing a result's destinations (spec/10_state.md R35; points as R23 says). -/
def writeResult (s : State) : Result → State
  | .none => s
  | .data d x => writeV s d (BitVec.ofNat 256 x)
  | .point d p => writePR s d (PointReg.ofPoint p)
  | .signature dr r ds sv => writeV (writeV s dr (BitVec.ofNat 256 r)) ds (BitVec.ofNat 256 sv)
  | .verdict b => setValid s b

/-- The flags and phase of a completion with code `c` (spec/10_state.md R35; spec/60_exceptions.md R204, R205). -/
def finish (s : State) (c : Byte) : State :=
  { s with errcode := c, done := true, busy := false, phase := .idle }

/-- `raise E` (spec/00_scope.md R13, spec/60_exceptions.md R204): no register is written. -/
def raiseError (s : State) (e : ErrCode) : State := finish s (errNumber e)

/-- `complete` with a result (spec/60_exceptions.md R205). -/
def succeed (s : State) (r : Result) : State := finish (writeResult s r) 0

/-- The state after the completion step of a command whose `Exec` gives `r` (spec/10_state.md R35). -/
def completeState (s : State) : Except ErrCode Result → State
  | .error e => raiseError s e
  | .ok r => succeed s r

/-- The completion step (spec/10_state.md R35): always a next state (spec/00_scope.md R19). -/
def completion (s : State) (r : Except ErrCode Result) : Host.Outcome State Fault Refusal :=
  .next (completeState s r)

/-! ### Acceptance and reset -/

/-- A command word is accepted (spec/30_encoding.md R80). -/
def accept (s : State) (w : Word) : State :=
  { s with
    lastcmd := w, busy := true, done := false, valid := false, errcode := 0, phase := .busy w }

/-- Every piece of the spec's state takes its reset value (spec/10_state.md R42); the parameters, the turns to come and
the replies given are not the CORE's and stay. -/
def resetCore (s : State) : State :=
  { State.reset with cfg := s.cfg, turns := s.turns, replies := s.replies }

/-- A host write to CTRL (spec/10_state.md R25; soft reset spec/70_reset_and_hazards.md R232). -/
def writeCtrl (s : State) (w : Word) : State :=
  if w.getLsbD 1 then resetCore (writeIe s w) else writeIe s w

end Sys2Proof.Machine
end

