-- ==== Sys2Proof/Machine/Operands.lean ====
section
/-! DEFINITION. The operand forms of the commands and their checks: the modulus and field operands (spec/40_field.md R110,
R111), point operands (spec/41_curve.md R142) and private keys (spec/42_ecdsa.md R170). -/

namespace Sys2Proof.Machine

/-- A check that raises `e` unless `c` holds. -/
def check (c : Bool) (e : ErrCode) : Except ErrCode Unit := if c then .ok () else .error e

/-- The value a modulus operand names (spec/30_encoding.md R83). -/
def modulusValue (s : State) : Modulus → Nat
  | .reg d => valV s d
  | .prime => curveP
  | .order => orderN

/-- The modulus of a field command: InvalidModulus where it is below 2 (spec/40_field.md R110). -/
def modulusOperand (s : State) (m : Modulus) : Except ErrCode Nat := do
  check (decide (2 ≤ modulusValue s m)) .invalidModulus
  pure (modulusValue s m)

/-- A field element: OutOfRange unless below the modulus (spec/40_field.md R111). -/
def fieldOperand (s : State) (i : VReg) (m : Nat) : Except ErrCode Nat := do
  check (decide (valV s i < m)) .outOfRange
  pure (valV s i)

/-- `checkPoint(p)` (spec/41_curve.md R142): OutOfRange before InvalidCurvePoint. -/
def checkPoint : Point → Except ErrCode Point
  | .inf => .ok .inf
  | .fin x y => do
    check (decide (x < curveP) && decide (y < curveP)) .outOfRange
    check (onCurve x y) .invalidCurvePoint
    pure (.fin x y)

/-- A point operand: every command that reads a point register validates it (R142). -/
def pointOperand (s : State) (i : PReg) : Except ErrCode Point := checkPoint (valP s i)

/-- A private key: OutOfRange unless `0 < d < N` (spec/42_ecdsa.md R170). -/
def privateKey (s : State) (i : VReg) : Except ErrCode Nat := do
  check (decide (0 < valV s i) && decide (valV s i < orderN)) .outOfRange
  pure (valV s i)

/-- The x and y coordinates of a finite point: PointAtInfinity for Inf (spec/41_curve.md R155, R156). -/
def coordinates : Point → Except ErrCode (Nat × Nat)
  | .inf => .error .pointAtInfinity
  | .fin x y => .ok (x, y)

end Sys2Proof.Machine
end

