-- ==== Sys2Proof/Machine/Curve.lean ====
section
/-! DEFINITION. The curve commands (spec/41_curve.md section 3). Checks stand in the order of R143. -/

namespace Sys2Proof.Machine

/-- PSET (spec/41_curve.md R150). -/
def execPset (d : PReg) (x y : VReg) (s : State) : Host.Outcome State Fault Refusal :=
  completion s do
    let p ← checkPoint (.fin (valV s x) (valV s y))
    pure (.point d p)

/-- PINF (R151). -/
def execPinf (d : PReg) (s : State) : Host.Outcome State Fault Refusal :=
  completion s (pure (.point d .inf))

/-- PGEN (R152). -/
def execPgen (d : PReg) (s : State) : Host.Outcome State Fault Refusal :=
  completion s (pure (.point d generator))

/-- PADD (R153). -/
def execPadd (d p q : PReg) (s : State) : Host.Outcome State Fault Refusal :=
  completion s do
    let a ← pointOperand s p
    let b ← pointOperand s q
    pure (.point d (ptAdd a b))

/-- PMUL (R154): any u256 scalar, not range-checked. -/
def execPmul (d p : PReg) (k : VReg) (s : State) : Host.Outcome State Fault Refusal :=
  completion s do
    let a ← pointOperand s p
    pure (.point d (ptMul (valV s k) a))

/-- PGETX (R155). -/
def execPgetx (d : VReg) (p : PReg) (s : State) : Host.Outcome State Fault Refusal :=
  completion s do
    let a ← pointOperand s p
    let c ← coordinates a
    pure (.data d c.1)

/-- PGETY (R156). -/
def execPgety (d : VReg) (p : PReg) (s : State) : Host.Outcome State Fault Refusal :=
  completion s do
    let a ← pointOperand s p
    let c ← coordinates a
    pure (.data d c.2)

end Sys2Proof.Machine
end

