-- ==== Sys2Proof/Machine/Sha256.lean ====
section
/-! DEFINITION. SHA-256 and HMAC-SHA-256 on byte strings, the function a conforming platform connects to the HMAC port
(spec/10_state.md R36). PRESUMED: the spec leaves the hash primitives out (spec/00_scope.md R6) and takes their
definitions from general knowledge (spec/93_implementation_defined.md K2); assumption 5. 32-bit words are naturals below
2^32, so that Lean's kernel evaluates them. -/

namespace Sys2Proof.Machine

/-- Addition modulo 2^32. -/
def add32 (a b : Nat) : Nat := (a + b) % 2 ^ 32

/-- Rotation of a 32-bit word to the right. -/
def rotr32 (x n : Nat) : Nat := (x >>> n) ||| ((x <<< (32 - n)) % 2 ^ 32)

/-- The eight chaining words. -/
structure ShaWords where
  a : Nat
  b : Nat
  c : Nat
  d : Nat
  e : Nat
  f : Nat
  g : Nat
  h : Nat
deriving DecidableEq, Repr

/-- The initial chaining words. -/
def shaInit : ShaWords :=
  { a := 0x6A09E667, b := 0xBB67AE85, c := 0x3C6EF372, d := 0xA54FF53A
    e := 0x510E527F, f := 0x9B05688C, g := 0x1F83D9AB, h := 0x5BE0CD19 }

/-- The 64 round constants. -/
def shaRoundConstants : List Nat :=
  [0x428A2F98, 0x71374491, 0xB5C0FBCF, 0xE9B5DBA5, 0x3956C25B, 0x59F111F1, 0x923F82A4, 0xAB1C5ED5] ++
  [0xD807AA98, 0x12835B01, 0x243185BE, 0x550C7DC3, 0x72BE5D74, 0x80DEB1FE, 0x9BDC06A7, 0xC19BF174] ++
  [0xE49B69C1, 0xEFBE4786, 0x0FC19DC6, 0x240CA1CC, 0x2DE92C6F, 0x4A7484AA, 0x5CB0A9DC, 0x76F988DA] ++
  [0x983E5152, 0xA831C66D, 0xB00327C8, 0xBF597FC7, 0xC6E00BF3, 0xD5A79147, 0x06CA6351, 0x14292967] ++
  [0x27B70A85, 0x2E1B2138, 0x4D2C6DFC, 0x53380D13, 0x650A7354, 0x766A0ABB, 0x81C2C92E, 0x92722C85] ++
  [0xA2BFE8A1, 0xA81A664B, 0xC24B8B70, 0xC76C51A3, 0xD192E819, 0xD6990624, 0xF40E3585, 0x106AA070] ++
  [0x19A4C116, 0x1E376C08, 0x2748774C, 0x34B0BCB5, 0x391C0CB3, 0x4ED8AA4A, 0x5B9CCA4F, 0x682E6FF3] ++
  [0x748F82EE, 0x78A5636F, 0x84C87814, 0x8CC70208, 0x90BEFFFA, 0xA4506CEB, 0xBEF9A3F7, 0xC67178F2]

/-- The message schedule as a sliding window of its last 16 words, oldest first. -/
def shaSlide : List Nat → List Nat
  | [w0, w1, w2, w3, w4, w5, w6, w7, w8, w9, w10, w11, w12, w13, w14, w15] =>
    let s0 := rotr32 w1 7 ^^^ rotr32 w1 18 ^^^ (w1 >>> 3)
    let s1 := rotr32 w14 17 ^^^ rotr32 w14 19 ^^^ (w14 >>> 10)
    [w1, w2, w3, w4, w5, w6, w7, w8, w9, w10, w11, w12, w13, w14, w15, (s1 + w9 + s0 + w0) % 2 ^ 32]
  | ws => ws

/-- One round with round constant `k` and schedule word `w`. -/
def shaRound (s : ShaWords) (k w : Nat) : ShaWords :=
  let ch := (s.e &&& s.f) ^^^ ((2 ^ 32 - 1 - s.e) &&& s.g)
  let maj := (s.a &&& s.b) ^^^ (s.a &&& s.c) ^^^ (s.b &&& s.c)
  let t1 := s.h + (rotr32 s.e 6 ^^^ rotr32 s.e 11 ^^^ rotr32 s.e 25) + ch + k + w
  let t2 := (rotr32 s.a 2 ^^^ rotr32 s.a 13 ^^^ rotr32 s.a 22) + maj
  { a := add32 t1 t2, b := s.a, c := s.b, d := s.c, e := add32 s.d t1, f := s.e, g := s.f, h := s.g }

/-- The rounds, one for each constant of the list, over the schedule window. -/
def shaRounds : List Nat → List Nat → ShaWords → ShaWords
  | [], _, s => s
  | k :: ks, window, s => shaRounds ks (shaSlide window) (shaRound s k (window.headD 0))

/-- Compression of one block of 16 words. -/
def shaCompress (h : ShaWords) (block : List Nat) : ShaWords :=
  let s := shaRounds shaRoundConstants block h
  { a := add32 h.a s.a, b := add32 h.b s.b, c := add32 h.c s.c, d := add32 h.d s.d
    e := add32 h.e s.e, f := add32 h.f s.f, g := add32 h.g s.g, h := add32 h.h s.h }

/-- Big-endian 32-bit words of a byte string. -/
def shaBlockWords : List Byte → List Nat
  | a :: b :: c :: d :: rest =>
    (a.toNat * 2 ^ 24 + b.toNat * 2 ^ 16 + c.toNat * 2 ^ 8 + d.toNat) :: shaBlockWords rest
  | _ => []

/-- Compression of `n` blocks in turn. -/
def shaBlocks : Nat → List Nat → ShaWords → ShaWords
  | 0, _, h => h
  | n + 1, ws, h => shaBlocks n (ws.drop 16) (shaCompress h (ws.take 16))

/-- The padding of a message to whole 64-byte blocks: 0x80, zeros, and the bit length in 8 bytes. -/
def shaPad (msg : List Byte) : List Byte :=
  msg ++ 0x80#8 :: (List.replicate ((119 - msg.length % 64) % 64) 0#8
    ++ (List.range 8).map fun i => BitVec.ofNat 8 ((8 * msg.length) >>> (8 * (7 - i))))

/-- Byte `i` of the 32-byte digest. -/
def shaDigestByte (h : ShaWords) (i : Nat) : Byte :=
  BitVec.ofNat 8 (([h.a, h.b, h.c, h.d, h.e, h.f, h.g, h.h].getD (i / 4) 0) >>> (8 * (3 - i % 4)))

/-- SHA-256 of a byte string. -/
def sha256 (msg : List Byte) : Bytes32 :=
  let padded := shaPad msg
  let h := shaBlocks (padded.length / 64) (shaBlockWords padded) shaInit
  Vector.ofFn fun i : Fin 32 => shaDigestByte h i.val

/-- The HMAC key block: the key, hashed first where it is longer than 64 bytes, padded with zeros to 64 bytes. -/
def hmacKeyBlock (key : List Byte) : List Byte :=
  let k := if key.length > 64 then (sha256 key).toList else key
  k ++ List.replicate (64 - k.length) 0#8

/-- HMAC-SHA-256 of a message under a key. -/
def hmacSha256 (key msg : List Byte) : Bytes32 :=
  let block := hmacKeyBlock key
  let inner := sha256 (block.map (· ^^^ 0x36#8) ++ msg)
  sha256 (block.map (· ^^^ 0x5C#8) ++ inner.toList)

end Sys2Proof.Machine
end

