-- ==== Sys2Proof/Machine/Nonce.lean ====
section
/-! DEFINITION. Byte strings (spec/00_scope.md R11), the external HMAC port (spec/10_state.md R36) and the deterministic
nonce (spec/42_ecdsa.md R173). -/

namespace Sys2Proof.Machine

/-- `I2OSP32(x)`: the 32-byte big-endian string of `x`; byte 0 holds bits 255..248 (R11). -/
def i2osp32 (x : Nat) : Bytes32 := Vector.ofFn fun i : Fin 32 => BitVec.ofNat 8 (x >>> (8 * (31 - i.val)))

/-- `OS2IP(b)`: the natural a byte string denotes, read big-endian (R11). -/
def os2ip (b : List Byte) : Nat := b.foldl (fun acc x => acc * 256 + x.toNat) 0

/-- A table's answer: the first row with this key and message, else `otherwise`. -/
def tableAnswer (otherwise : Bytes32) (key msg : List Byte) : List HmacRow → Bytes32
  | [] => otherwise
  | row :: rows => if row.key = key ∧ row.msg = msg then row.mac else tableAnswer otherwise key msg rows

/-- One transaction on the HMAC port (R36; the primitive `HMAC(key, msg)` of spec/00_scope.md R13). -/
def hmacAnswer (u : HmacUnit) (key msg : List Byte) : Bytes32 :=
  match u with
  | .sha256 => hmacSha256 key msg
  | .table rows otherwise => tableAnswer otherwise key msg rows
  | .unknown id => Config.unknownHmac id key msg

/-- The loop of spec/42_ecdsa.md R173, at most the given number of times; `none` where no candidate is in `[1, N)`. -/
def nonceLoop (u : HmacUnit) : Nat → Bytes32 → Bytes32 → Option Nat
  | 0, _, _ => none
  | n + 1, k0, v0 =>
    let v1 := hmacAnswer u k0.toList v0.toList
    let k := os2ip v1.toList
    if 1 ≤ k ∧ k < orderN then some k
    else
      let k1 := hmacAnswer u k0.toList (v1.toList ++ [0x00#8])
      nonceLoop u n k1 (hmacAnswer u k1.toList v1.toList)

/-- `detK(d, z)` (spec/42_ecdsa.md R173); `none` is NonceExhausted (R175). -/
def detK (u : HmacUnit) (maxIter d z : Nat) : Option Nat :=
  let pb := (i2osp32 d).toList
  let zb := (i2osp32 (z % orderN)).toList
  let k0 : Bytes32 := Vector.replicate 32 0x00#8
  let v0 : Bytes32 := Vector.replicate 32 0x01#8
  let k1 := hmacAnswer u k0.toList (v0.toList ++ [0x00#8] ++ pb ++ zb)
  let v1 := hmacAnswer u k1.toList v0.toList
  let k2 := hmacAnswer u k1.toList (v1.toList ++ [0x01#8] ++ pb ++ zb)
  let v2 := hmacAnswer u k2.toList v1.toList
  nonceLoop u maxIter k2 v2

end Sys2Proof.Machine
end

