-- ==== Sys2Proof/Machine/Ecdsa.lean ====
section
/-! DEFINITION. The ECDSA commands (spec/42_ecdsa.md). -/

namespace Sys2Proof.Machine

/-- The nonce of a private key and digest under the platform's parameters (spec/42_ecdsa.md R173): NonceExhausted where
`detK` finds none (R175). -/
def nonceOperand (s : State) (d z : Nat) : Except ErrCode Nat :=
  match detK s.cfg.hmac s.cfg.nonceMaxIter d z with
  | none => .error .nonceExhausted
  | some k => .ok k

/-- The raw signature for nonce `k`: `r = (x of k*G) mod N`, `s = k^(N-2) * (z + r*d) mod N` (R176). `k*G` is finite for
`1 ≤ k < N`; the x coordinate of Inf, which is then not reached, is read as 0 (assumption 15). -/
def rawSignature (k d z : Nat) : Nat × Nat :=
  let r := (ptMul k generator).xCoord % orderN
  (r, powmod k (orderN - 2) orderN * (z + r * d) % orderN)

/-- The low-s rule (R177). -/
def lowS (sv : Nat) : Nat := if halfN < sv then orderN - sv else sv

/-- The verdict of VERIFY on a validated public key (R180, with the pre-checks of R181). -/
def verifyVerdict (q : Point) (z r sv : Nat) : Bool :=
  if q ≠ .inf ∧ r < orderN ∧ sv < orderN ∧ sv ≠ 0 then
    let w := powmod sv (orderN - 2) orderN
    let u := z * w % orderN
    let t := r * w % orderN
    match ptAdd (ptMul u generator) (ptMul t q) with
    | .inf => false
    | .fin x _ => x % orderN == r
  else false

/-- KPUB (R172). -/
def execKpub (d : PReg) (k : VReg) (s : State) : Host.Outcome State Fault Refusal :=
  completion s do
    let key ← privateKey s k
    pure (.point d (ptMul key generator))

/-- NONCE (R174). Whether the opcode is a command at all is the decoder's check (assumption 16). -/
def execNonce (k d z : VReg) (s : State) : Host.Outcome State Fault Refusal :=
  completion s do
    let key ← privateKey s d
    let n ← nonceOperand s key (valV s z)
    pure (.data k n)

/-- SIGN (R176): both destinations are written, or none (R178). -/
def execSign (r d z sReg : VReg) (s : State) : Host.Outcome State Fault Refusal :=
  completion s do
    let key ← privateKey s d
    let n ← nonceOperand s key (valV s z)
    let raw := rawSignature n key (valV s z)
    check (raw.1 != 0 && raw.2 != 0) .signatureDegenerate
    pure (.signature r raw.1 sReg (lowS raw.2))

/-- VERIFY (R180): a rejected signature is not an error (spec/60_exceptions.md R202). -/
def execVerify (q : PReg) (z r sReg : VReg) (s : State) : Host.Outcome State Fault Refusal :=
  completion s do
    let key ← pointOperand s q
    pure (.verdict (verifyVerdict key (valV s z) (valV s r) (valV s sReg)))

end Sys2Proof.Machine
end

