-- ==== Sys2Proof/Machine/Field.lean ====
section
/-! DEFINITION. The field commands (spec/40_field.md section 2). Checks stand in the order of R112: modulus, operands in
field order, zero divisor. -/

namespace Sys2Proof.Machine

/-- FCHK (spec/40_field.md R113). -/
def execFchk (a : VReg) (m : Modulus) (s : State) : Host.Outcome State Fault Refusal :=
  completion s do
    let n ← modulusOperand s m
    let _ ← fieldOperand s a n
    pure .none

/-- FADD (R114). -/
def execFadd (d a b : VReg) (m : Modulus) (s : State) : Host.Outcome State Fault Refusal :=
  completion s do
    let n ← modulusOperand s m
    let x ← fieldOperand s a n
    let y ← fieldOperand s b n
    pure (.data d ((x + y) % n))

/-- FSUB (R115). -/
def execFsub (d a b : VReg) (m : Modulus) (s : State) : Host.Outcome State Fault Refusal :=
  completion s do
    let n ← modulusOperand s m
    let x ← fieldOperand s a n
    let y ← fieldOperand s b n
    pure (.data d (subMod x y n))

/-- FMUL (R116). -/
def execFmul (d a b : VReg) (m : Modulus) (s : State) : Host.Outcome State Fault Refusal :=
  completion s do
    let n ← modulusOperand s m
    let x ← fieldOperand s a n
    let y ← fieldOperand s b n
    pure (.data d (x * y % n))

/-- FDIV (R118). -/
def execFdiv (d a b : VReg) (m : Modulus) (s : State) : Host.Outcome State Fault Refusal :=
  completion s do
    let n ← modulusOperand s m
    let x ← fieldOperand s a n
    let y ← fieldOperand s b n
    check (y != 0) .divisionByZero
    pure (.data d (divMod x y n))

/-- FINV (R117). -/
def execFinv (d a : VReg) (m : Modulus) (s : State) : Host.Outcome State Fault Refusal :=
  completion s do
    let n ← modulusOperand s m
    let x ← fieldOperand s a n
    check (x != 0) .divisionByZero
    pure (.data d (powmod x (n - 2) n))

/-- FPOW and FPOW.NEG (R121); the exponent is not range-checked (R120). -/
def execFpow (neg : Bool) (d a e : VReg) (m : Modulus) (s : State) : Host.Outcome State Fault Refusal :=
  completion s do
    let n ← modulusOperand s m
    let x ← fieldOperand s a n
    pure (.data d (powmod x (powExponent neg (valV s e) n) n))

/-- FSQRT (R122): the root is not checked. -/
def execFsqrt (d a : VReg) (m : Modulus) (s : State) : Host.Outcome State Fault Refusal :=
  completion s do
    let n ← modulusOperand s m
    check (n % 4 == 3) .invalidModulus
    let x ← fieldOperand s a n
    pure (.data d (powmod x ((n + 1) / 4) n))

end Sys2Proof.Machine
end

