-- ==== Sys2Proof/Machine/Dispatch.lean ====
section
/-! DEFINITION. One arm for each command: `Exec` and the completion step of a decoded command (spec/10_state.md R35). -/

namespace Sys2Proof.Machine

def exec (i : Instr) (s : State) : Host.Outcome State Fault Refusal :=
  match i with
  -- field commands, spec/40_field.md
  | .fchk a m => Sys2Proof.Machine.execFchk a m s
  | .fadd d a b m => Sys2Proof.Machine.execFadd d a b m s
  | .fsub d a b m => Sys2Proof.Machine.execFsub d a b m s
  | .fmul d a b m => Sys2Proof.Machine.execFmul d a b m s
  | .fdiv d a b m => Sys2Proof.Machine.execFdiv d a b m s
  | .finv d a m => Sys2Proof.Machine.execFinv d a m s
  | .fpow neg d a e m => Sys2Proof.Machine.execFpow neg d a e m s
  | .fsqrt d a m => Sys2Proof.Machine.execFsqrt d a m s
  -- curve commands, spec/41_curve.md
  | .pset d x y => Sys2Proof.Machine.execPset d x y s
  | .pinf d => Sys2Proof.Machine.execPinf d s
  | .pgen d => Sys2Proof.Machine.execPgen d s
  | .padd d p q => Sys2Proof.Machine.execPadd d p q s
  | .pmul d p k => Sys2Proof.Machine.execPmul d p k s
  | .pgetx d p => Sys2Proof.Machine.execPgetx d p s
  | .pgety d p => Sys2Proof.Machine.execPgety d p s
  -- ECDSA commands, spec/42_ecdsa.md
  | .kpub d k => Sys2Proof.Machine.execKpub d k s
  | .nonce k d z => Sys2Proof.Machine.execNonce k d z s
  | .sign r d z sReg => Sys2Proof.Machine.execSign r d z sReg s
  | .verify q z r sReg => Sys2Proof.Machine.execVerify q z r sReg s

end Sys2Proof.Machine
end

