-- ==== Sys2Proof/Machine/Window.lean ====
section
/-! DEFINITION. The register window: its address map (spec/20_memory.md R51, R53), the access rules (R55 to R57) and the
host's two primitives (R52). -/

namespace Sys2Proof.Machine

/-- What a window offset names (R53): a register, or one word of a 256-bit register. -/
inductive Target where
  | id
  | ctrl
  | status
  | errcode
  | cmd
  /-- Word `j` of `V[i]`. -/
  | data (i : VReg) (j : Fin 8)
  /-- Word `j` of `PR[i].X`. -/
  | pointX (i : PReg) (j : Fin 8)
  /-- Word `j` of `PR[i].Y`. -/
  | pointY (i : PReg) (j : Fin 8)
  /-- `PR[i].TAG`. -/
  | pointTag (i : PReg)
deriving DecidableEq, Repr

/-- The size of the window in bytes (R51). -/
def windowSize : Nat := 0x800

/-- The window offset of a bus address, if it is in the window (R51). -/
def windowOffset (base addr : Nat) : Option Nat :=
  if base ≤ addr ∧ addr < base + windowSize then some (addr - base) else none

/-- The control and status registers, offsets below 0x100 (R53). -/
def controlTarget (off : Nat) : Option Target :=
  if off = 0x000 then some .id
  else if off = 0x004 then some .ctrl
  else if off = 0x008 then some .status
  else if off = 0x00C then some .errcode
  else if off = 0x010 then some .cmd
  else none

/-- The point registers: `rel` is the offset from 0x400 (R53). -/
def pointTarget (rel : Nat) : Option Target :=
  let i : PReg := Fin.ofNat 8 (rel / 0x80)
  let r := rel % 0x80
  if r < 0x20 then some (.pointX i (Fin.ofNat 8 (r / 4)))
  else if r < 0x40 then some (.pointY i (Fin.ofNat 8 ((r - 0x20) / 4)))
  else if r = 0x40 then some (.pointTag i)
  else none

/-- The address map (R53): `none` where nothing is mapped or the offset is not a multiple of 4 (R57). -/
def target (off : Nat) : Option Target :=
  if off % 4 ≠ 0 then none
  else if off < 0x100 then controlTarget off
  else if off < 0x300 then
    some (.data (Fin.ofNat 16 ((off - 0x100) / 0x20)) (Fin.ofNat 8 ((off - 0x100) % 0x20 / 4)))
  else if off < 0x400 then none
  else if off < windowSize then pointTarget (off - 0x400)
  else none

/-- The window offset of a target (R53). -/
def targetOffset : Target → Nat
  | .id => 0x000
  | .ctrl => 0x004
  | .status => 0x008
  | .errcode => 0x00C
  | .cmd => 0x010
  | .data i j => 0x100 + 0x20 * i.val + 4 * j.val
  | .pointX i j => 0x400 + 0x80 * i.val + 4 * j.val
  | .pointY i j => 0x420 + 0x80 * i.val + 4 * j.val
  | .pointTag i => 0x440 + 0x80 * i.val

/-- A word of V, PR.X, PR.Y or PR.TAG: refused while the engine is busy (R55). -/
def isOperandTarget : Target → Bool
  | .data _ _ | .pointX _ _ | .pointY _ _ | .pointTag _ => true
  | .id | .ctrl | .status | .errcode | .cmd => false

/-- The word a target reads (R53). -/
def targetWord (s : State) : Target → Word
  | .id => idWord
  | .ctrl => ctrlWord s
  | .status => statusWord s
  | .errcode => errcodeWord s
  | .cmd => s.lastcmd
  | .data i j => wordAt (readV s i) j
  | .pointX i j => wordAt (readPR s i).x j
  | .pointY i j => wordAt (readPR s i).y j
  | .pointTag i => flagBit (readPR s i).inf 0

/-- The state after an accepted write to a target other than CMD in a busy state or a refused one (R53; CTRL
spec/10_state.md R25, STATUS R29, CMD spec/30_encoding.md R80, TAG `INF <- v[0]` R22). -/
def storeTarget (s : State) (t : Target) (w : Word) : State :=
  match t with
  | .id | .errcode => s
  | .ctrl => writeCtrl s w
  | .status => writeStatus s w
  | .cmd => accept s w
  | .data i j => writeV s i (setWordAt (readV s i) j w)
  | .pointX i j => writePR s i { readPR s i with x := setWordAt (readPR s i).x j w }
  | .pointY i j => writePR s i { readPR s i with y := setWordAt (readPR s i).y j w }
  | .pointTag i => writePR s i { readPR s i with inf := w.getLsbD 0 }

/-- Whether the CORE accepts a read of a target (R55). -/
def readAccepted (s : State) (t : Target) : Bool := !(s.phase.isBusy && isOperandTarget t)

/-- Whether the CORE accepts a write to a target (R55): while busy it refuses CMD too. -/
def writeAccepted (s : State) (t : Target) : Bool := !(s.phase.isBusy && (isOperandTarget t || t == .cmd))

/-- `BusRead(off)` of `size` bytes (R52, R55, R57). No read has a side effect (R59). -/
def busRead (s : State) (off size : Nat) : Reply :=
  if size ≠ 4 then .busErr
  else match target off with
    | none => .busErr
    | some t => if readAccepted s t then .data (targetWord s t) else .busErr

/-- `BusWrite(off, w)` of `size` bytes (R52, R55 to R57): the state after it and the reply. -/
def busWrite (s : State) (off size : Nat) (w : Word) : State × Reply :=
  if size ≠ 4 then (s, .busErr)
  else match target off with
    | none => (s, .busErr)
    | some t => if writeAccepted s t then (storeTarget s t w, .ok) else (s, .busErr)

/-- The reply is recorded (assumption 2). -/
def pushReply (s : State) (r : Reply) : State := { s with replies := s.replies ++ [r] }

/-- One host access (R51, R52): outside the window the CORE does not respond (assumption 10). -/
def hostAccess (s : State) (a : BusAccess) : State :=
  match windowOffset s.cfg.base a.addr with
  | none => pushReply s .noResponse
  | some off =>
    match a.kind with
    | .read => pushReply s (busRead s off a.size)
    | .write w => pushReply (busWrite s off a.size w).1 (busWrite s off a.size w).2

end Sys2Proof.Machine
end

