-- ==== Sys2Proof/Machine/Engine.lean ====
section
/-! DEFINITION. The agents' turns (spec/00_scope.md R17): the engine's completion step (spec/10_state.md R35), a host
access, a power-on reset, and how a command word is placed for the engine's next step. -/

namespace Sys2Proof.Machine

/-- The engine runs the command word `c` (spec/10_state.md R35): a word that is no command completes with IllegalCommand
and none of a command's own checks is made (spec/30_encoding.md R84). -/
def runCommand (s : State) (c : Word) : Host.Outcome State Fault Refusal :=
  match decode s.cfg.nonceCmdEnabled c with
  | .ok i => exec i s
  | .error _ => .next (raiseError s .illegalCommand)

/-- The engine's turn: completion is enabled in `Busy(c)` (R35); while idle every register keeps its value
(spec/60_exceptions.md R225). -/
def engineTurn (s : State) : Host.Outcome State Fault Refusal :=
  match s.phase with
  | .idle => .next s
  | .busy c => runCommand s c

/-- The next turn is taken; with no turn left the engine moves, so that no command stays busy forever
(spec/70_reset_and_hazards.md R243, assumption 1). -/
def takeTurn (s : State) : Host.Outcome State Fault Refusal :=
  match s.turns with
  | [] => engineTurn s
  | .engine :: rest => engineTurn { s with turns := rest }
  | .access a :: rest => .next (hostAccess { s with turns := rest } a)
  | .powerOnReset :: rest => .next (resetCore { s with turns := rest })

/-- A command word is accepted and the engine moves next (assumption 8). -/
def issueWord (s : State) (w : Word) : State :=
  { accept s w with turns := .engine :: s.turns }

end Sys2Proof.Machine
end

