-- ==== Sys2Proof/Machine/Step.lean ====
section
/-! DEFINITION. One step of the machine, and how a command word is placed so that the next step runs it. -/

namespace Sys2Proof.Machine

/-- One step: the next turn (spec/00_scope.md R17). -/
def step (s : State) : Host.Outcome State Fault Refusal := takeTurn s

/-- `s` with a command word of the opcode table's numbering accepted (spec/30_encoding.md R80) and the engine to move
next, so that the very next step runs it (assumption 8). The command is one 32-bit word (R89). -/
def State.withFetchWord (s : State) (nbits w : Nat) : State :=
  issueWord s (BitVec.ofNat 32 (w % 2 ^ nbits))

end Sys2Proof.Machine
end

