-- ==== Sys2Proof/Safety.lean ====
section
/-! DEFINITION. What a run may be relied on for, in the words statements use: the invariant every step keeps, the
registers a command may write, and what a command leaves alone. -/

namespace Sys2Proof

/-- The data registers a command names as destinations (spec/30_encoding.md R86). -/
def Instr.dataDests : Instr → List VReg
  | .fadd d _ _ _ | .fsub d _ _ _ | .fmul d _ _ _ | .fdiv d _ _ _ | .finv d _ _
  | .fpow _ d _ _ _ | .fsqrt d _ _ | .pgetx d _ | .pgety d _ | .nonce d _ _ => [d]
  | .sign r _ _ sReg => [r, sReg]
  | .fchk _ _ | .pset _ _ _ | .pinf _ | .pgen _ | .padd _ _ _ | .pmul _ _ _ | .kpub _ _ | .verify _ _ _ _ => []

/-- The point registers a command names as destinations (R86). -/
def Instr.pointDests : Instr → List PReg
  | .pset d _ _ | .pinf d | .pgen d | .padd d _ _ | .pmul d _ _ | .kpub d _ => [d]
  | .fchk _ _ | .fadd _ _ _ _ | .fsub _ _ _ _ | .fmul _ _ _ _ | .fdiv _ _ _ _ | .finv _ _ _
  | .fpow _ _ _ _ _ | .fsqrt _ _ _ | .pgetx _ _ | .pgety _ _ | .nonce _ _ _ | .sign _ _ _ _ | .verify _ _ _ _ => []

/-- Whether a command is VERIFY, the only one that writes STATUS.VALID (spec/10_state.md R31). -/
def Instr.isVerify : Instr → Bool
  | .verify _ _ _ _ => true
  | .fchk _ _ | .fadd _ _ _ _ | .fsub _ _ _ _ | .fmul _ _ _ _ | .fdiv _ _ _ _ | .finv _ _ _
  | .fpow _ _ _ _ _ | .fsqrt _ _ _ | .pset _ _ _ | .pinf _ | .pgen _ | .padd _ _ _ | .pmul _ _ _
  | .pgetx _ _ | .pgety _ _ | .kpub _ _ | .nonce _ _ _ | .sign _ _ _ _ => false

end Sys2Proof

namespace Sys2Proof.Machine

/-- The error codes rules produce, with 0 for none (spec/93_implementation_defined.md I3, spec/60_exceptions.md R200). -/
def legalCodes : List Byte := [0x00, 0x01, 0x03, 0x04, 0x10, 0x11, 0x12, 0x13, 0x14]

/-- A command word whose opcode is VERIFY's (spec/30_encoding.md R85). -/
def isVerifyWord (w : Word) : Bool := (Fields.ofWord w).opc == 0x23

/-- The invariant of the control state (spec/10_state.md R28 to R32, R35, R38; spec/30_encoding.md R80; parameter
NONCE_MAX_ITER ≥ 1 of spec/00_scope.md R8). -/
structure State.Inv (s : State) : Prop where
  /-- BUSY is the engine's phase. -/
  busy_eq : s.busy = s.phase.isBusy
  /-- While a command runs, LASTCMD is its word, and DONE, VALID and ERRCODE are clear. -/
  running : ∀ c, s.phase = .busy c → s.lastcmd = c ∧ s.done = false ∧ s.valid = false ∧ s.errcode = 0
  /-- ERRCODE never holds a reserved code. -/
  code_legal : s.errcode ∈ legalCodes
  /-- VALID = 1 only after a VERIFY that completed without error. -/
  valid_verify : s.valid = true → s.errcode = 0 ∧ isVerifyWord s.lastcmd = true
  /-- The nonce loop may run at least once. -/
  iter_pos : 1 ≤ s.cfg.nonceMaxIter

/-- The parts of the state no completion changes: CTRL.IE, LASTCMD, the parameters, the turns and the replies. -/
def SameSurroundings (s t : State) : Prop :=
  t.ie = s.ie ∧ t.lastcmd = s.lastcmd ∧ t.cfg = s.cfg ∧ t.turns = s.turns ∧ t.replies = s.replies

/-- What every completion leaves (spec/10_state.md R35): DONE set, BUSY clear, the engine idle. -/
def Completed (t : State) : Prop := t.done = true ∧ t.busy = false ∧ t.phase = .idle

/-- The spec's part of the state (R42): everything but the parameters, the turns and the replies. -/
def SameCore (s t : State) : Prop :=
  t.v = s.v ∧ t.pr = s.pr ∧ t.ie = s.ie ∧ t.busy = s.busy ∧ t.done = s.done ∧ t.valid = s.valid
    ∧ t.errcode = s.errcode ∧ t.lastcmd = s.lastcmd ∧ t.phase = s.phase

end Sys2Proof.Machine
end

