-- ==== Sys2Proof/Certificates/Slice0/Obligations.lean ====
section
/-! DEFINITION. The statements about secp256k1-core, from the numbered rules of spec/. What a statement expects of a
state is written out here (`Sys2Proof.Expected`), not through the model's own completion and write operations. -/

namespace Sys2Proof.Expected

open Sys2Proof.Machine

/-- A completion with code `c` (spec/10_state.md R35, spec/60_exceptions.md R204, R205): the code, DONE, BUSY and the
phase; everything else is as in `s`. -/
def finished (s : State) (c : Byte) : State := { s with errcode := c, done := true, busy := false, phase := .idle }

/-- `V[d]` holds `x`; everything else is as in `s`. -/
def withV (s : State) (d : VReg) (x : Nat) : State := { s with v := s.v.set d (BitVec.ofNat 256 x) }

/-- `PR[d]` holds `p` with the fields of spec/10_state.md R23; everything else is as in `s`. -/
def withPR (s : State) (d : PReg) (p : Point) : State :=
  { s with pr := s.pr.set d (match p with
    | .inf => { inf := true, x := 0, y := 0 }
    | .fin x y => { inf := false, x := BitVec.ofNat 256 x, y := BitVec.ofNat 256 y }) }

/-- The reset values of spec/10_state.md R42. -/
def ResetValues (t : State) : Prop :=
  (∀ i, readV t i = 0) ∧ (∀ i, readPR t i = { inf := true, x := 0, y := 0 }) ∧ t.ie = false ∧ t.busy = false
    ∧ t.done = false ∧ t.valid = false ∧ t.errcode = 0 ∧ t.lastcmd = 0 ∧ t.phase = .idle

/-- The engine is the next to move: no turn is left, or the next turn is its own; `rest` are the turns after it. -/
def EngineNext (s : State) (rest : List Turn) : Prop := (s.turns = [] ∧ rest = []) ∨ s.turns = .engine :: rest

/-- `w[lo + n - 1 : lo]` (spec/00_scope.md R9). -/
def bits (w : Word) (lo n : Nat) : Nat := w.toNat / 2 ^ lo % 2 ^ n

/-- The 19 opcodes of spec/30_encoding.md R85. -/
def opcodes : List Nat :=
  [0x01, 0x02, 0x03, 0x04, 0x05, 0x06, 0x07, 0x08, 0x10, 0x11, 0x12, 0x13, 0x14, 0x15, 0x16, 0x20, 0x21, 0x22, 0x23]

/-- The eight conditions of spec/30_encoding.md R84, with the field roles of R86. -/
def Malformed (nonceEnabled : Bool) (w : Word) : Prop :=
  let opc := bits w 0 6
  let msel := bits w 6 2
  let fa := bits w 8 4
  let fb := bits w 12 4
  let fc := bits w 16 4
  let fd := bits w 20 4
  let neg := bits w 24 1
  bits w 25 7 ≠ 0
    ∨ (opc ∉ opcodes ∨ opc = 0x21 ∧ nonceEnabled = false)
    ∨ msel = 3
    ∨ (msel ≠ 0 ∧ ¬ (0x01 ≤ opc ∧ opc ≤ 0x08))
    ∨ (neg = 1 ∧ opc ≠ 0x07)
    ∨ (opc = 0x01 ∧ fa ≠ 0 ∨ opc ∈ [0x11, 0x12] ∧ fb ≠ 0
        ∨ opc ∈ [0x01, 0x06, 0x08, 0x11, 0x12, 0x15, 0x16, 0x20] ∧ fc ≠ 0
        ∨ opc ∈ [0x10, 0x11, 0x12, 0x13, 0x14, 0x15, 0x16, 0x20, 0x21] ∧ fd ≠ 0
        ∨ (0x01 ≤ opc ∧ opc ≤ 0x08) ∧ msel ≠ 0 ∧ fd ≠ 0)
    ∨ (opc ∈ [0x10, 0x11, 0x12, 0x13, 0x14, 0x20, 0x23] ∧ 8 ≤ fa ∨ opc ∈ [0x13, 0x14, 0x15, 0x16] ∧ 8 ≤ fb
        ∨ opc = 0x13 ∧ 8 ≤ fc)
    ∨ (opc = 0x22 ∧ fa = fd)

/-- Window offsets at which nothing is mapped (spec/20_memory.md R53). -/
def Unmapped (off : Nat) : Prop :=
  0x014 ≤ off ∧ off < 0x100 ∨ 0x300 ≤ off ∧ off < 0x400 ∨ 0x400 ≤ off ∧ 0x44 ≤ (off - 0x400) % 0x80

/-- The curve equation (spec/41_curve.md R140). -/
def CurveEq (x y : Nat) : Prop := y * y % curveP = (x * x * x + 7) % curveP

/-- A coordinate is out of range (the first check of spec/41_curve.md R142). -/
def CoordinateTooLarge (p : Point) : Prop := ∃ x y, p = .fin x y ∧ (curveP ≤ x ∨ curveP ≤ y)

/-- The coordinates are in range and the point is off the curve (the second check of R142). -/
def OffCurve (p : Point) : Prop := ∃ x y, p = .fin x y ∧ x < curveP ∧ y < curveP ∧ ¬ CurveEq x y

/-- A valid point (spec/41_curve.md R141). -/
def ValidPoint (p : Point) : Prop := p = .inf ∨ ∃ x y, p = .fin x y ∧ x < curveP ∧ y < curveP ∧ CurveEq x y

/-- The k-fold sum `p + p + ... + p` (spec/41_curve.md R147). -/
def foldSum (p : Point) : Nat → Point
  | 0 => .inf
  | k + 1 => ptAdd (foldSum p k) p

/-- The loop of spec/41_curve.md R147, all 256 iterations. -/
def doubleAndAdd (k : Nat) (p : Point) : Point :=
  ((List.range 256).foldl
    (fun rc i => (if k.testBit i then ptAdd rc.1 rc.2 else rc.1, ptAdd rc.2 rc.2)) (Point.inf, p)).1

/-- One pass of the retry part of spec/42_ecdsa.md R173's loop, after a candidate is refused: `K`, `V` become
`HMAC(K, V' ‖ 0x00)` and `HMAC(K, V')`, where `V' = HMAC(K, V)` was the candidate. -/
def nonceRetry (u : HmacUnit) (kv : Bytes32 × Bytes32) : Bytes32 × Bytes32 :=
  let v := hmacAnswer u kv.1.toList kv.2.toList
  let k := hmacAnswer u kv.1.toList (v.toList ++ [0x00#8])
  (k, hmacAnswer u k.toList v.toList)

/-- `K`, `V` before the loop of R173. -/
def nonceStart (u : HmacUnit) (d z : Nat) : Bytes32 × Bytes32 :=
  let tail := (i2osp32 d).toList ++ (i2osp32 (z % orderN)).toList
  let k1 := hmacAnswer u (List.replicate 32 0x00#8) (List.replicate 32 0x01#8 ++ 0x00#8 :: tail)
  let v1 := hmacAnswer u k1.toList (List.replicate 32 0x01#8)
  let k2 := hmacAnswer u k1.toList (v1.toList ++ 0x01#8 :: tail)
  (k2, hmacAnswer u k2.toList v1.toList)

/-- Candidate number `i` of R173's loop, `k <- OS2IP(HMAC(K, V))`. -/
def nonceCandidate (u : HmacUnit) (d z i : Nat) : Nat :=
  let kv := (nonceRetry u)^[i] (nonceStart u d z)
  os2ip (hmacAnswer u kv.1.toList kv.2.toList).toList

/-- The nonce the state's parameters give (spec/42_ecdsa.md R173). -/
def NonceIs (s : State) (d z k : Nat) : Prop := detK s.cfg.hmac s.cfg.nonceMaxIter d z = some k

/-- No nonce is found (R175). -/
def NonceFails (s : State) (d z : Nat) : Prop := detK s.cfg.hmac s.cfg.nonceMaxIter d z = none

/-- The raw `s` of spec/42_ecdsa.md R176. -/
def rawS (k d z r : Nat) : Nat := k ^ (orderN - 2) % orderN * (z + r * d) % orderN

/-- The registers a command reads as sources (spec/30_encoding.md R86). -/
def dataSources : Instr → List VReg
  | .fchk a m => a :: modReg m
  | .fadd _ a b m | .fsub _ a b m | .fmul _ a b m | .fdiv _ a b m => a :: b :: modReg m
  | .finv _ a m | .fsqrt _ a m => a :: modReg m
  | .fpow _ _ a e m => a :: e :: modReg m
  | .pset _ x y => [x, y]
  | .pmul _ _ k => [k]
  | .kpub _ k => [k]
  | .nonce _ d z => [d, z]
  | .sign _ d z _ => [d, z]
  | .verify _ z r sReg => [z, r, sReg]
  | .pinf _ | .pgen _ | .padd _ _ _ | .pgetx _ _ | .pgety _ _ => []
where
  /-- The modulus register, if one is named (R83). -/
  modReg : Modulus → List VReg
    | .reg d => [d]
    | .prime | .order => []

/-- The point registers a command reads as sources (R86). -/
def pointSources : Instr → List PReg
  | .padd _ p q => [p, q]
  | .pmul _ p _ | .pgetx _ p | .pgety _ p | .verify p _ _ _ => [p]
  | .fchk _ _ | .fadd _ _ _ _ | .fsub _ _ _ _ | .fmul _ _ _ _ | .fdiv _ _ _ _ | .finv _ _ _
  | .fpow _ _ _ _ _ | .fsqrt _ _ _ | .pset _ _ _ | .pinf _ | .pgen _ | .kpub _ _ | .nonce _ _ _ | .sign _ _ _ _ => []

/-- The error codes a command may complete with, 0 for success (spec/60_exceptions.md R200, column "raised by", less
IllegalCommand, which the engine raises before a command is known). -/
def codesOf : Instr → List Byte
  | .fchk _ _ | .fadd _ _ _ _ | .fsub _ _ _ _ | .fmul _ _ _ _ | .fpow _ _ _ _ _ | .fsqrt _ _ _ => [0x00, 0x01, 0x11]
  | .fdiv _ _ _ _ | .finv _ _ _ => [0x00, 0x01, 0x03, 0x11]
  | .pset _ _ _ | .padd _ _ _ | .pmul _ _ _ | .verify _ _ _ _ => [0x00, 0x01, 0x04]
  | .pgetx _ _ | .pgety _ _ => [0x00, 0x01, 0x04, 0x12]
  | .pinf _ | .pgen _ => [0x00]
  | .kpub _ _ => [0x00, 0x01]
  | .nonce _ _ _ => [0x00, 0x01, 0x13]
  | .sign _ _ _ _ => [0x00, 0x01, 0x13, 0x14]

end Sys2Proof.Expected

open Sys2Proof Sys2Proof.Machine Sys2Proof.Expected

/-! ### Encoding -/

/-- Decoding the word of a well-formed command gives the command back (spec/30_encoding.md R81, R85, R86). -/
def Obligations.DecodeOfEncodeIsTheCommand : Prop :=
  ∀ (en : Bool) (i : Instr), i.wf en = true → decode en (encode i) = .ok i

/-- A word that decodes is the word of the command it decodes to, and that command is well formed: no two words decode
to one command (spec/30_encoding.md R84, R85). -/
def Obligations.DecodedWordIsItsEncoding : Prop :=
  ∀ (en : Bool) (w : Word) (i : Instr), decode en w = .ok i → encode i = w ∧ i.wf en = true

/-- The six worked encodings of spec/30_encoding.md R91, both ways and in assembler spelling. -/
def Obligations.WorkedEncodings : Prop :=
  ∀ x ∈ [((.fadd 1 2 3 (.reg 4) : Instr), (0x00432102 : Word), "fadd v1, v2, v3, v4"),
      (.fmul 5 5 6 .prime, 0x00065544, "fmul v5, v5, v6, p"),
      (.fpow true 0 1 2 (.reg 3), 0x01321007, "fpow.neg v0, v1, v2, v3"),
      (.pmul 1 0 2, 0x00020114, "pmul pr1, pr0, v2"),
      (.sign 2 0 1 3, 0x00310222, "sign v2, v0, v1, v3"),
      (.verify 0 1 2 3, 0x00321023, "verify pr0, v1, v2, v3")],
    ∀ en : Bool, decode en x.2.1 = .ok x.1 ∧ encode x.1 = x.2.1 ∧ asm x.1 = x.2.2

/-- spec/30_encoding.md R84: the engine completes a word with IllegalCommand exactly when one of the eight conditions
holds, and then makes no other check; every other word is one command, which it runs. -/
def Obligations.MalformedWordsAreIllegalCommands : Prop :=
  ∀ (s : State) (w : Word) (rest : List Turn), s.phase = .busy w → EngineNext s rest →
    (Malformed s.cfg.nonceCmdEnabled w → step s = .next (finished { s with turns := rest } 0x10)) ∧
    (¬ Malformed s.cfg.nonceCmdEnabled w →
      ∃ i, decode s.cfg.nonceCmdEnabled w = .ok i ∧ (∀ j, decode s.cfg.nonceCmdEnabled w = .ok j → j = i) ∧
        step s = exec i { s with turns := rest })

/-! ### The agents' turns -/

/-- When the running word decodes, the engine's step is exec of the command at that state, its turn taken
(spec/10_state.md R35). -/
def Obligations.EngineStepRunsTheDecodedCommand : Prop :=
  ∀ (s : State) (w : Word) (i : Instr) (rest : List Turn), s.phase = .busy w → EngineNext s rest →
    decode s.cfg.nonceCmdEnabled w = .ok i → step s = exec i { s with turns := rest }

/-- spec/00_scope.md R19: nothing stops the CORE; a running command completes when the engine moves, and every host
access to the window is answered (the order of the agents' moves is the model's list of turns, assumption 1). -/
def Obligations.NothingStopsTheCore : Prop :=
  ∀ s : State, ∃ t, step s = .next t ∧
    (∀ c rest, s.phase = .busy c → EngineNext s rest → Completed t) ∧
    (∀ a rest, s.turns = .access a :: rest →
      ∃ r, t.replies = s.replies ++ [r] ∧
        (s.cfg.base ≤ a.addr ∧ a.addr < s.cfg.base + 0x800 → r ≠ .noResponse))

/-- spec/70_reset_and_hazards.md R243: from every state, one step more than there are turns to come leaves the engine
idle: an accepted command always completes (or a reset abandons it). That the engine moves when no turn is left is the
model's form of R243's fairness (assumption 1). -/
def Obligations.EveryCommandCompletes : Prop :=
  ∀ s : State, ∃ t : State, Sys2Proof.core.run (s.turns.length + 1) s = .next t ∧ t.phase = .idle ∧ t.turns = []

/-- The invariant of the control state holds after reset. -/
def Obligations.InvariantAtReset : Prop := State.reset.Inv

/-- Every step keeps the invariant of the control state: BUSY is the phase; while busy LASTCMD is the running word and
DONE, VALID, ERRCODE are clear; ERRCODE holds no reserved code; VALID = 1 only after a VERIFY without error
(spec/10_state.md R28 to R32, R35, R38; spec/93_implementation_defined.md I3). -/
def Obligations.StepKeepsTheInvariant : Prop :=
  ∀ s t : State, s.Inv → step s = .next t → t.Inv

/-- spec/10_state.md R35, spec/20_memory.md R55, R64: no host access changes a running command, its registers or its
flags, but a soft reset, which abandons it. -/
def Obligations.RunningCommandIsUndisturbed : Prop :=
  ∀ (s t : State) (c : Word) (a : BusAccess) (rest : List Turn),
    s.phase = .busy c → s.turns = .access a :: rest → step s = .next t →
      (t.phase = .busy c ∧ t.v = s.v ∧ t.pr = s.pr ∧ t.lastcmd = s.lastcmd ∧ t.errcode = s.errcode
        ∧ t.valid = s.valid ∧ t.busy = s.busy ∧ t.cfg = s.cfg) ∨
      (∃ w : Word, a = { addr := s.cfg.base + 0x004, size := 4, kind := .write w } ∧ w.getLsbD 1 = true ∧ ResetValues t)

/-! ### Reset -/

/-- spec/10_state.md R42: the values at power-on reset and at soft reset, in either phase. -/
def Obligations.ResetGivesTheResetValues : Prop :=
  ResetValues State.reset ∧
  (∀ (s : State) (rest : List Turn), s.turns = .powerOnReset :: rest →
    ∃ t, step s = .next t ∧ ResetValues t ∧ statusWord t = 0) ∧
  (∀ (s : State) (w : Word), w.getLsbD 1 = true → ResetValues (busWrite s 0x004 4 w).1)

/-- spec/70_reset_and_hazards.md R232: a soft reset is accepted in either phase, answers OK, abandons a running command
without DONE and without an interrupt, and no later engine turn writes a result. That it leaves the parameters and the
turns to come is the model's choice (assumption 17). -/
def Obligations.SoftResetAbandonsTheCommand : Prop :=
  ∀ (s : State) (w : Word), w.getLsbD 1 = true →
    ∃ t, busWrite s 0x004 4 w = (t, .ok) ∧ ResetValues t ∧ irq t = false ∧ t.cfg = s.cfg ∧ t.turns = s.turns ∧
      ∀ rest, EngineNext t rest → step t = .next { t with turns := rest }

/-! ### The register window -/

/-- spec/20_memory.md R55, row by row: what is accepted while idle and while busy; while busy no write changes V or PR
(a soft reset apart, spec/70_reset_and_hazards.md R232). -/
def Obligations.AccessRulesByPhase : Prop :=
  ∀ s : State,
    (∀ off ∈ [0x000, 0x004, 0x008, 0x00C, 0x010], ∃ w, busRead s off 4 = .data w) ∧
    (∀ w, busWrite s 0x000 4 w = (s, .ok) ∧ busWrite s 0x00C 4 w = (s, .ok)) ∧
    (∀ w, (busWrite s 0x004 4 w).2 = .ok ∧ (busWrite s 0x008 4 w).2 = .ok) ∧
    (∀ w, s.phase = .idle → (busWrite s 0x010 4 w).2 = .ok ∧ (busWrite s 0x010 4 w).1.phase = .busy w) ∧
    (∀ c w, s.phase = .busy c → busWrite s 0x010 4 w = (s, .busErr)) ∧
    (∀ (i : VReg) (j : Fin 8) (off : Nat), off = 0x100 + 0x20 * i.val + 4 * j.val →
      (s.phase = .idle → (∃ w, busRead s off 4 = .data w) ∧ ∀ w, (busWrite s off 4 w).2 = .ok) ∧
      (∀ c, s.phase = .busy c → busRead s off 4 = .busErr ∧ ∀ w, busWrite s off 4 w = (s, .busErr))) ∧
    (∀ (i : PReg) (j : Fin 17) (off : Nat), off = 0x400 + 0x80 * i.val + 4 * j.val →
      (s.phase = .idle → (∃ w, busRead s off 4 = .data w) ∧ ∀ w, (busWrite s off 4 w).2 = .ok) ∧
      (∀ c, s.phase = .busy c → busRead s off 4 = .busErr ∧ ∀ w, busWrite s off 4 w = (s, .busErr))) ∧
    (∀ off size, Unmapped off → busRead s off size = .busErr ∧ ∀ w, busWrite s off size w = (s, .busErr)) ∧
    (∀ c off size w, s.phase = .busy c → ¬ (off = 0x004 ∧ w.getLsbD 1 = true) →
      (busWrite s off size w).1.v = s.v ∧ (busWrite s off size w).1.pr = s.pr)

/-- spec/20_memory.md R56: an access answered with BUSERR changes nothing of the CORE and raises no interrupt. -/
def Obligations.BusErrorChangesNothing : Prop :=
  ∀ (s t : State) (a : BusAccess) (rest : List Turn), s.turns = .access a :: rest → step s = .next t →
    t.replies = s.replies ++ [.busErr] → SameCore s t ∧ irq t = irq s ∧ t.cfg = s.cfg

/-- spec/20_memory.md R57: an access that is not an aligned 32-bit word access is refused and has no effect. -/
def Obligations.OnlyAlignedWordAccesses : Prop :=
  ∀ (s : State) (off size : Nat), off % 4 ≠ 0 ∨ size ≠ 4 →
    busRead s off size = .busErr ∧ ∀ w, busWrite s off size w = (s, .busErr)

/-- spec/20_memory.md R53: the map gives every register word its own offset, every offset names at most one, and the
aligned window offsets that name none are the gaps of the table. -/
def Obligations.AddressMapIsExact : Prop :=
  (∀ t : Target, target (targetOffset t) = some t) ∧
  (∀ (off : Nat) (t : Target), target off = some t → targetOffset t = off ∧ off < 0x800) ∧
  (∀ off : Nat, off < 0x800 → off % 4 = 0 → (target off = none ↔ Unmapped off))

/-- spec/20_memory.md R54 for the data registers: word `j` of `V[i]` is bits 255-32j..224-32j, and a write of it changes
those bits and nothing else. -/
def Obligations.DataRegisterWords : Prop :=
  ∀ (s : State) (i : VReg) (j : Fin 8) (w : Word), s.phase = .idle →
    busRead s (0x100 + 0x20 * i.val + 4 * j.val) 4 = .data ((readV s i).extractLsb' (224 - 32 * j.val) 32) ∧
    ∃ t, busWrite s (0x100 + 0x20 * i.val + 4 * j.val) 4 w = (t, .ok) ∧
      (∀ n, n < 256 → (readV t i).getLsbD n =
        if 224 - 32 * j.val ≤ n ∧ n ≤ 255 - 32 * j.val then w.getLsbD (n - (224 - 32 * j.val))
        else (readV s i).getLsbD n) ∧
      (∀ k, k ≠ i → readV t k = readV s k) ∧ t = { s with v := t.v }

/-- spec/20_memory.md R53, R54 and spec/10_state.md R22 for the point registers: words of X and Y, and TAG with its one
implemented bit; a write changes the word written and nothing else (R23). -/
def Obligations.PointRegisterWords : Prop :=
  ∀ (s : State) (i : PReg) (j : Fin 8) (w : Word), s.phase = .idle →
    busRead s (0x400 + 0x80 * i.val + 4 * j.val) 4 = .data ((readPR s i).x.extractLsb' (224 - 32 * j.val) 32) ∧
    busRead s (0x420 + 0x80 * i.val + 4 * j.val) 4 = .data ((readPR s i).y.extractLsb' (224 - 32 * j.val) 32) ∧
    busRead s (0x440 + 0x80 * i.val) 4 = .data (if (readPR s i).inf then 1 else 0) ∧
    (∃ t, busWrite s (0x400 + 0x80 * i.val + 4 * j.val) 4 w = (t, .ok) ∧
      (∀ n, n < 256 → (readPR t i).x.getLsbD n =
        if 224 - 32 * j.val ≤ n ∧ n ≤ 255 - 32 * j.val then w.getLsbD (n - (224 - 32 * j.val))
        else (readPR s i).x.getLsbD n) ∧
      (readPR t i).y = (readPR s i).y ∧ (readPR t i).inf = (readPR s i).inf ∧
      (∀ k, k ≠ i → readPR t k = readPR s k) ∧ t = { s with pr := t.pr }) ∧
    (∃ t, busWrite s (0x420 + 0x80 * i.val + 4 * j.val) 4 w = (t, .ok) ∧
      (∀ n, n < 256 → (readPR t i).y.getLsbD n =
        if 224 - 32 * j.val ≤ n ∧ n ≤ 255 - 32 * j.val then w.getLsbD (n - (224 - 32 * j.val))
        else (readPR s i).y.getLsbD n) ∧
      (readPR t i).x = (readPR s i).x ∧ (readPR t i).inf = (readPR s i).inf ∧
      (∀ k, k ≠ i → readPR t k = readPR s k) ∧ t = { s with pr := t.pr }) ∧
    busWrite s (0x440 + 0x80 * i.val) 4 w =
      ({ s with pr := s.pr.set i { readPR s i with inf := w.getLsbD 0 } }, .ok)

/-- spec/20_memory.md R58: eight writes of the words of a 32-byte big-endian string load its value, and nothing else
changes. -/
def Obligations.BigEndianLoad : Prop :=
  ∀ (s : State) (i : VReg) (str : Bytes32), s.phase = .idle →
    (List.finRange 8).foldl
      (fun u j => (busWrite u (0x100 + 0x20 * i.val + 4 * j.val) 4
        (BitVec.ofNat 32 (os2ip ((str.toList.drop (4 * j.val)).take 4)))).1) s
      = withV s i (os2ip str.toList) ∧ os2ip str.toList < 2 ^ 256

/-- spec/20_memory.md R51, R52: one turn of the host is one access, answered by a reply; outside the window the CORE does
not respond (assumption 10). -/
def Obligations.HostTurnIsOneAccess : Prop :=
  ∀ (s : State) (a : BusAccess) (rest : List Turn), s.turns = .access a :: rest →
    (a.addr < s.cfg.base ∨ s.cfg.base + 0x800 ≤ a.addr →
      step s = .next { s with turns := rest, replies := s.replies ++ [.noResponse] }) ∧
    (∀ off, off < 0x800 → a.addr = s.cfg.base + off →
      (a.kind = .read →
        step s = .next { s with turns := rest, replies := s.replies ++ [busRead s off a.size] }) ∧
      (∀ w, a.kind = .write w →
        step s = .next { (busWrite s off a.size w).1 with
          turns := rest, replies := s.replies ++ [(busWrite s off a.size w).2] }))

/-- spec/30_encoding.md R80: a CMD write while idle accepts any word, also one that decodes to no command, which then
completes with IllegalCommand; while busy it is refused and changes nothing. -/
def Obligations.CmdWriteAcceptsEveryWord : Prop :=
  ∀ (s : State) (w : Word),
    (s.phase = .idle → busWrite s 0x010 4 w =
      ({ s with lastcmd := w, busy := true, done := false, valid := false, errcode := 0, phase := .busy w }, .ok)) ∧
    (∀ c, s.phase = .busy c → busWrite s 0x010 4 w = (s, .busErr)) ∧
    (∀ e rest, s.phase = .idle → decode s.cfg.nonceCmdEnabled w = .error e → EngineNext s rest →
      ∃ t, step (busWrite s 0x010 4 w).1 = .next t ∧ t.errcode = 0x10 ∧ t.lastcmd = w)

/-- What the control registers read, in either phase (spec/10_state.md R27, R30, R32, R33, R38): the bits of STATUS, with
ERR = (ERRCODE ≠ 0); ERRCODE; ID; CMD; and that writes to ID and ERRCODE are ignored. -/
def Obligations.ControlRegistersRead : Prop :=
  ∀ (s : State) (w : Word),
    (∃ x : Word, busRead s 0x008 4 = .data x ∧ x.getLsbD 0 = s.busy ∧ x.getLsbD 1 = s.done ∧
      (x.getLsbD 2 = true ↔ s.errcode ≠ 0) ∧ x.getLsbD 3 = s.valid ∧ ∀ n, 4 ≤ n → x.getLsbD n = false) ∧
    busRead s 0x000 4 = .data 0x256B0001 ∧ busRead s 0x010 4 = .data s.lastcmd ∧
    (∃ x : Word, busRead s 0x00C 4 = .data x ∧ x.toNat = s.errcode.toNat) ∧
    busWrite s 0x000 4 w = (s, .ok) ∧ busWrite s 0x00C 4 w = (s, .ok)

/-- spec/10_state.md R25, R26: CTRL reads IE in bit 0 and 0 elsewhere, in either phase; a write sets IE, and with bit 1
set a soft reset follows, which clears it. -/
def Obligations.CtrlReadsAndWrites : Prop :=
  ∀ (s : State) (w : Word),
    busRead s 0x004 4 = .data (if s.ie then 1 else 0) ∧
    (w.getLsbD 1 = false → busWrite s 0x004 4 w = ({ s with ie := w.getLsbD 0 }, .ok)) ∧
    (w.getLsbD 1 = true → (busWrite s 0x004 4 w).2 = .ok ∧ ResetValues (busWrite s 0x004 4 w).1)

/-- spec/10_state.md R28, on every state: an accepted CMD write sets BUSY; the completion step, a power-on reset and a
soft reset (in either phase) clear it; and a step that changes BUSY is one of these four events. -/
def Obligations.BusyChangesOnlyAsStated : Prop :=
  (∀ (s : State) (w : Word) (rest : List Turn), s.phase = .idle →
    s.turns = .access { addr := s.cfg.base + 0x010, size := 4, kind := .write w } :: rest →
    ∃ t, step s = .next t ∧ t.busy = true) ∧
  (∀ (s : State) (c : Word) (rest : List Turn), s.phase = .busy c → EngineNext s rest →
    ∃ t, step s = .next t ∧ t.busy = false) ∧
  (∀ (s : State) (rest : List Turn), s.turns = .powerOnReset :: rest → ∃ t, step s = .next t ∧ t.busy = false) ∧
  (∀ (s : State) (w : Word) (rest : List Turn), w.getLsbD 1 = true →
    s.turns = .access { addr := s.cfg.base + 0x004, size := 4, kind := .write w } :: rest →
    ∃ t, step s = .next t ∧ t.busy = false) ∧
  (∀ s t : State, step s = .next t → t.busy ≠ s.busy →
    (∃ (w : Word) (rest : List Turn), s.phase = .idle ∧
      s.turns = .access { addr := s.cfg.base + 0x010, size := 4, kind := .write w } :: rest) ∨
    (∃ (c : Word) (rest : List Turn), s.phase = .busy c ∧ EngineNext s rest) ∨
    (∃ rest, s.turns = .powerOnReset :: rest) ∨
    (∃ (w : Word) (rest : List Turn), w.getLsbD 1 = true ∧
      s.turns = .access { addr := s.cfg.base + 0x004, size := 4, kind := .write w } :: rest))

/-- spec/10_state.md R29: what sets and clears DONE, and that a STATUS write changes nothing else. -/
def Obligations.DoneIsSetAndClearedAsStated : Prop :=
  (∀ (s : State) (w : Word), s.phase = .idle → (busWrite s 0x010 4 w).1.done = false) ∧
  (∀ (s t : State) (c : Word) (rest : List Turn), s.phase = .busy c → EngineNext s rest → step s = .next t →
    t.done = true) ∧
  (∀ (s : State) (w : Word), w.getLsbD 1 = true → busWrite s 0x008 4 w = ({ s with done := false }, .ok)) ∧
  (∀ (s : State) (w : Word), w.getLsbD 1 = false → busWrite s 0x008 4 w = (s, .ok)) ∧
  (∀ (s : State) (w : Word), w.getLsbD 1 = true → (busWrite s 0x004 4 w).1.done = false) ∧
  (∀ (s t : State) (rest : List Turn), s.turns = .powerOnReset :: rest → step s = .next t → t.done = false)

/-- spec/10_state.md R31: VALID is cleared by acceptance and written only by a VERIFY that completes without error, with
its verdict; on a state that meets the invariant every other completion leaves it 0. -/
def Obligations.ValidIsWrittenOnlyByVerify : Prop :=
  (∀ (s : State) (w : Word), s.phase = .idle → (busWrite s 0x010 4 w).1.valid = false) ∧
  (∀ (i : Instr) (s t : State), exec i s = .next t → ¬ (i.isVerify = true ∧ t.errcode = 0) → t.valid = s.valid) ∧
  (∀ (s t : State) (c : Word) (rest : List Turn), s.Inv → s.phase = .busy c → EngineNext s rest → step s = .next t →
    t.valid = true → t.errcode = 0 ∧ ∃ i, decode s.cfg.nonceCmdEnabled c = .ok i ∧ i.isVerify = true) ∧
  (∀ (q : PReg) (z r sReg : VReg) (s t : State), exec (.verify q z r sReg) s = .next t → t.errcode = 0 →
    t.valid = verifyVerdict (valP s q) (valV s z) (valV s r) (valV s sReg))

/-- spec/60_exceptions.md R210: irq is IE and DONE: raised by every completion while IE = 1, dropped by a STATUS write of
DONE, by acceptance, by a reset and by IE <- 0. -/
def Obligations.IrqIsALevel : Prop :=
  (∀ s : State, irq s = (s.ie && s.done)) ∧
  (∀ (s t : State) (c : Word) (rest : List Turn), s.phase = .busy c → EngineNext s rest → step s = .next t →
    irq t = s.ie) ∧
  (∀ (s : State) (w : Word), w.getLsbD 1 = true → irq (busWrite s 0x008 4 w).1 = false) ∧
  (∀ (s : State) (w : Word), s.phase = .idle → irq (busWrite s 0x010 4 w).1 = false) ∧
  (∀ (s : State) (w : Word), irq (busWrite s 0x004 4 w).1 = (w.getLsbD 0 && s.done && !w.getLsbD 1)) ∧
  (∀ (s t : State) (rest : List Turn), s.turns = .powerOnReset :: rest → step s = .next t → irq t = false)

/-! ### Completion, frames, sources -/

/-- spec/60_exceptions.md R204: a completion with an error code writes no register and leaves VALID; the code is
recorded, DONE is set, BUSY cleared and the engine idle; for every command and for every word the engine runs. -/
def Obligations.ErrorsArePrecise : Prop :=
  (∀ (i : Instr) (s : State), ∃ t, exec i s = .next t ∧ Completed t ∧ (t.errcode ≠ 0 → t = finished s t.errcode)) ∧
  (∀ (s : State) (c : Word) (rest : List Turn), s.phase = .busy c → EngineNext s rest →
    ∃ t, step s = .next t ∧ Completed t ∧ (t.errcode ≠ 0 →
      t = finished { s with turns := rest } t.errcode ∧ (statusWord t).getLsbD 2 = true ∧ (s.Inv → t.valid = false)))

/-- The frame of every command (spec/10_state.md R20, R31, R35, R39): only the registers it names as destinations, the
flags of a completion and, for VERIFY, VALID may change. -/
def Obligations.CommandsWriteOnlyTheirDestinations : Prop :=
  ∀ (i : Instr) (s t : State), exec i s = .next t →
    (∀ r, r ∉ i.dataDests → readV t r = readV s r) ∧ (∀ p, p ∉ i.pointDests → readPR t p = readPR s p) ∧
    (i.isVerify = false → t.valid = s.valid) ∧ SameSurroundings s t ∧ Completed t

/-- spec/00_scope.md R18: the results of a command are a function of its source registers, the constants and the HMAC
function (with the parameter NONCE_MAX_ITER of R8) alone: two states that agree on those give the same code, the same
destinations and the same verdict. -/
def Obligations.ResultsDependOnSourcesOnly : Prop :=
  ∀ (i : Instr) (s u : State),
    (∀ r ∈ dataSources i, readV s r = readV u r) → (∀ p ∈ pointSources i, (readPR s p).value = (readPR u p).value) →
    s.cfg.hmac = u.cfg.hmac → s.cfg.nonceMaxIter = u.cfg.nonceMaxIter →
    ∃ t w, exec i s = .next t ∧ exec i u = .next w ∧ t.errcode = w.errcode ∧
      (t.errcode = 0 → (∀ r ∈ i.dataDests, readV t r = readV w r) ∧ (∀ p ∈ i.pointDests, readPR t p = readPR w p) ∧
        (i.isVerify = true → t.valid = w.valid))

/-- spec/60_exceptions.md R200: each command completes with one of the codes the table gives it. -/
def Obligations.CommandsRaiseOnlyTheirCodes : Prop :=
  ∀ (i : Instr) (s t : State), exec i s = .next t → t.errcode ∈ codesOf i

/-! ### Field commands -/

/-- spec/40_field.md R113: FCHK succeeds exactly when the operand is below the modulus; nothing is written. -/
def Obligations.FchkChecksTheRange : Prop :=
  ∀ (s : State) (a : VReg) (m : Modulus),
    (2 ≤ modulusValue s m → valV s a < modulusValue s m → exec (.fchk a m) s = .next (finished s 0)) ∧
    (modulusValue s m < 2 → exec (.fchk a m) s = .next (finished s 0x11)) ∧
    (2 ≤ modulusValue s m → modulusValue s m ≤ valV s a → exec (.fchk a m) s = .next (finished s 0x01))

/-- spec/40_field.md R114: FADD writes `(a + b) mod m`, or completes with the first error. -/
def Obligations.FaddWritesTheSum : Prop :=
  ∀ (s : State) (d a b : VReg) (m : Modulus),
    (2 ≤ modulusValue s m → valV s a < modulusValue s m → valV s b < modulusValue s m →
      exec (.fadd d a b m) s = .next (finished (withV s d ((valV s a + valV s b) % modulusValue s m)) 0)) ∧
    (modulusValue s m < 2 → exec (.fadd d a b m) s = .next (finished s 0x11)) ∧
    (2 ≤ modulusValue s m → modulusValue s m ≤ valV s a ∨ modulusValue s m ≤ valV s b →
      exec (.fadd d a b m) s = .next (finished s 0x01))

/-- spec/40_field.md R115: FSUB writes the Euclidean remainder of `a - b`, or completes with the first error. -/
def Obligations.FsubWritesTheDifference : Prop :=
  ∀ (s : State) (d a b : VReg) (m : Modulus),
    (2 ≤ modulusValue s m → valV s a < modulusValue s m → valV s b < modulusValue s m →
      exec (.fsub d a b m) s =
        .next (finished (withV s d (((valV s a : Int) - valV s b) % modulusValue s m).toNat) 0)) ∧
    (modulusValue s m < 2 → exec (.fsub d a b m) s = .next (finished s 0x11)) ∧
    (2 ≤ modulusValue s m → modulusValue s m ≤ valV s a ∨ modulusValue s m ≤ valV s b →
      exec (.fsub d a b m) s = .next (finished s 0x01))

/-- spec/40_field.md R116: FMUL writes `(a * b) mod m`, or completes with the first error. -/
def Obligations.FmulWritesTheProduct : Prop :=
  ∀ (s : State) (d a b : VReg) (m : Modulus),
    (2 ≤ modulusValue s m → valV s a < modulusValue s m → valV s b < modulusValue s m →
      exec (.fmul d a b m) s = .next (finished (withV s d (valV s a * valV s b % modulusValue s m)) 0)) ∧
    (modulusValue s m < 2 → exec (.fmul d a b m) s = .next (finished s 0x11)) ∧
    (2 ≤ modulusValue s m → modulusValue s m ≤ valV s a ∨ modulusValue s m ≤ valV s b →
      exec (.fmul d a b m) s = .next (finished s 0x01))

/-- spec/40_field.md R117: FINV writes `a^(m-2) mod m`; zero raises DivisionByZero, after the range check. -/
def Obligations.FinvWritesTheFermatPower : Prop :=
  ∀ (s : State) (d a : VReg) (m : Modulus),
    (2 ≤ modulusValue s m → valV s a < modulusValue s m → valV s a ≠ 0 →
      exec (.finv d a m) s =
        .next (finished (withV s d (valV s a ^ (modulusValue s m - 2) % modulusValue s m)) 0)) ∧
    (modulusValue s m < 2 → exec (.finv d a m) s = .next (finished s 0x11)) ∧
    (2 ≤ modulusValue s m → modulusValue s m ≤ valV s a → exec (.finv d a m) s = .next (finished s 0x01)) ∧
    (2 ≤ modulusValue s m → valV s a = 0 → exec (.finv d a m) s = .next (finished s 0x03))

/-- spec/40_field.md R118: FDIV writes `a * b^(m-2) mod m`; a zero divisor raises DivisionByZero, also for `a = 0`, but
an operand out of range comes first. -/
def Obligations.FdivWritesTheQuotient : Prop :=
  ∀ (s : State) (d a b : VReg) (m : Modulus),
    (2 ≤ modulusValue s m → valV s a < modulusValue s m → valV s b < modulusValue s m → valV s b ≠ 0 →
      exec (.fdiv d a b m) s =
        .next (finished (withV s d (valV s a * (valV s b ^ (modulusValue s m - 2) % modulusValue s m)
          % modulusValue s m)) 0)) ∧
    (modulusValue s m < 2 → exec (.fdiv d a b m) s = .next (finished s 0x11)) ∧
    (2 ≤ modulusValue s m → modulusValue s m ≤ valV s a ∨ modulusValue s m ≤ valV s b →
      exec (.fdiv d a b m) s = .next (finished s 0x01)) ∧
    (2 ≤ modulusValue s m → valV s a < modulusValue s m → valV s b = 0 →
      exec (.fdiv d a b m) s = .next (finished s 0x03))

/-- spec/40_field.md R120, R121: FPOW writes `a^n mod m` for the exponent `n` of R120, with `a^0 = 1`; the exponent is
not range-checked and there is no DivisionByZero. -/
def Obligations.FpowWritesThePower : Prop :=
  ∀ (s : State) (neg : Bool) (d a e : VReg) (m : Modulus),
    (2 ≤ modulusValue s m → valV s a < modulusValue s m →
      ∃ n : Nat, (neg = true ∧ valV s e ≠ 0 → (n : Int) = (-(valV s e : Int)) % (modulusValue s m - 1)) ∧
        (neg = true ∧ 0 < valV s e ∧ valV s e ≤ modulusValue s m - 1 → n = modulusValue s m - 1 - valV s e) ∧
        (¬ (neg = true ∧ valV s e ≠ 0) → n = valV s e) ∧
        exec (.fpow neg d a e m) s = .next (finished (withV s d (valV s a ^ n % modulusValue s m)) 0)) ∧
    (modulusValue s m < 2 → exec (.fpow neg d a e m) s = .next (finished s 0x11)) ∧
    (2 ≤ modulusValue s m → modulusValue s m ≤ valV s a → exec (.fpow neg d a e m) s = .next (finished s 0x01))

/-- spec/40_field.md R122: FSQRT writes `a^((m+1) div 4) mod m`, unchecked; a modulus below 2 or not 3 mod 4 is refused
before the operand is looked at. -/
def Obligations.FsqrtWritesTheRootPower : Prop :=
  ∀ (s : State) (d a : VReg) (m : Modulus),
    (modulusValue s m % 4 = 3 → valV s a < modulusValue s m →
      exec (.fsqrt d a m) s =
        .next (finished (withV s d (valV s a ^ ((modulusValue s m + 1) / 4) % modulusValue s m)) 0)) ∧
    (modulusValue s m < 2 ∨ modulusValue s m % 4 ≠ 3 → exec (.fsqrt d a m) s = .next (finished s 0x11)) ∧
    (modulusValue s m % 4 = 3 → modulusValue s m ≤ valV s a → exec (.fsqrt d a m) s = .next (finished s 0x01))

/-- spec/40_field.md R126: FSUB undoes FADD for every modulus; for a prime modulus FDIV undoes FMUL and a non-zero
element to the power m - 1 is 1. -/
def Obligations.FieldLaws : Prop :=
  (∀ (s : State) (d e a b : VReg) (m : Modulus), 2 ≤ modulusValue s m → valV s a < modulusValue s m →
    valV s b < modulusValue s m → b ≠ d → m ≠ .reg d →
    ∃ t u, exec (.fadd d a b m) s = .next t ∧ exec (.fsub e d b m) t = .next u ∧ u.errcode = 0 ∧
      valV u e = valV s a) ∧
  (∀ (s : State) (d e a b : VReg) (m : Modulus), (modulusValue s m).Prime → valV s a < modulusValue s m →
    0 < valV s b → valV s b < modulusValue s m → b ≠ d → m ≠ .reg d →
    ∃ t u, exec (.fmul d a b m) s = .next t ∧ exec (.fdiv e d b m) t = .next u ∧ u.errcode = 0 ∧
      valV u e = valV s a) ∧
  (∀ (s : State) (d a e : VReg) (m : Modulus), (modulusValue s m).Prime → 0 < valV s a →
    valV s a < modulusValue s m → valV s e = modulusValue s m - 1 →
    ∃ t, exec (.fpow false d a e m) s = .next t ∧ t.errcode = 0 ∧ valV t d = 1)

/-- spec/40_field.md R122: modulo a prime 3 mod 4, FSQRT's value squares to `a` when `a` is a square and to `m - a` when
it is not. -/
def Obligations.FsqrtOfASquareIsARoot : Prop :=
  ∀ (s : State) (d a : VReg) (m : Modulus), (modulusValue s m).Prime → modulusValue s m % 4 = 3 →
    valV s a < modulusValue s m →
    ∃ t, exec (.fsqrt d a m) s = .next t ∧ t.errcode = 0 ∧
      ((∃ x, x * x % modulusValue s m = valV s a) → valV t d * valV t d % modulusValue s m = valV s a) ∧
      ((¬ ∃ x, x * x % modulusValue s m = valV s a) →
        valV t d * valV t d % modulusValue s m = modulusValue s m - valV s a)

/-! ### Curve commands -/

/-- spec/41_curve.md R150: PSET writes the point of two coordinates, or completes with the first failing check. -/
def Obligations.PsetBuildsAValidPoint : Prop :=
  ∀ (s : State) (d : PReg) (x y : VReg),
    (valV s x < curveP → valV s y < curveP → CurveEq (valV s x) (valV s y) →
      exec (.pset d x y) s = .next (finished (withPR s d (.fin (valV s x) (valV s y))) 0)) ∧
    (curveP ≤ valV s x ∨ curveP ≤ valV s y → exec (.pset d x y) s = .next (finished s 0x01)) ∧
    (valV s x < curveP → valV s y < curveP → ¬ CurveEq (valV s x) (valV s y) →
      exec (.pset d x y) s = .next (finished s 0x04))

/-- spec/41_curve.md R151, R152: PINF and PGEN write Inf and G, in every state; what PGETX and PGETY then read back. -/
def Obligations.PinfAndPgenWriteConstants : Prop :=
  ∀ (s : State) (d : PReg) (r : VReg),
    exec (.pinf d) s = .next (finished (withPR s d .inf) 0) ∧
    exec (.pgen d) s = .next (finished (withPR s d (.fin genX genY)) 0) ∧
    exec (.pgetx r d) (finished (withPR s d .inf) 0) = .next (finished (withPR s d .inf) 0x12) ∧
    (∃ t, exec (.pgetx r d) (finished (withPR s d (.fin genX genY)) 0) = .next t ∧ t.errcode = 0 ∧ valV t r = genX) ∧
    (∃ t, exec (.pgety r d) (finished (withPR s d (.fin genX genY)) 0) = .next t ∧ t.errcode = 0 ∧ valV t r = genY)

/-- spec/41_curve.md R153: PADD writes the sum of two valid points; the first operand is checked first, and the range
before the curve equation. -/
def Obligations.PaddWritesTheSum : Prop :=
  ∀ (s : State) (d p q : PReg),
    (ValidPoint (valP s p) → ValidPoint (valP s q) →
      exec (.padd d p q) s = .next (finished (withPR s d (ptAdd (valP s p) (valP s q))) 0)) ∧
    (CoordinateTooLarge (valP s p) ∨ ValidPoint (valP s p) ∧ CoordinateTooLarge (valP s q) →
      exec (.padd d p q) s = .next (finished s 0x01)) ∧
    (OffCurve (valP s p) ∨ ValidPoint (valP s p) ∧ OffCurve (valP s q) →
      exec (.padd d p q) s = .next (finished s 0x04))

/-- spec/41_curve.md R154: PMUL writes `k * p` for a valid point and any scalar; an invalid point is an error even for
`k = 0`. -/
def Obligations.PmulWritesTheMultiple : Prop :=
  ∀ (s : State) (d p : PReg) (k : VReg),
    (ValidPoint (valP s p) → exec (.pmul d p k) s = .next (finished (withPR s d (ptMul (valV s k) (valP s p))) 0)) ∧
    (CoordinateTooLarge (valP s p) → exec (.pmul d p k) s = .next (finished s 0x01)) ∧
    (OffCurve (valP s p) → exec (.pmul d p k) s = .next (finished s 0x04))

/-- spec/41_curve.md R155, R156: PGETX and PGETY write the coordinate of a valid finite point; Inf raises
PointAtInfinity, an invalid point its own error. -/
def Obligations.PgetReadsTheCoordinates : Prop :=
  ∀ (s : State) (d : VReg) (p : PReg),
    (∀ x y, valP s p = .fin x y → x < curveP → y < curveP → CurveEq x y →
      exec (.pgetx d p) s = .next (finished (withV s d x) 0) ∧ exec (.pgety d p) s = .next (finished (withV s d y) 0)) ∧
    (valP s p = .inf →
      exec (.pgetx d p) s = .next (finished s 0x12) ∧ exec (.pgety d p) s = .next (finished s 0x12)) ∧
    (CoordinateTooLarge (valP s p) →
      exec (.pgetx d p) s = .next (finished s 0x01) ∧ exec (.pgety d p) s = .next (finished s 0x01)) ∧
    (OffCurve (valP s p) →
      exec (.pgetx d p) s = .next (finished s 0x04) ∧ exec (.pgety d p) s = .next (finished s 0x04))

/-- spec/41_curve.md R145: the five cases of the group law, the formulas read in `ZMod P` with `a / b = a * b^(P-2)`. -/
def Obligations.GroupLawCases : Prop :=
  (∀ q, ptAdd .inf q = q) ∧ (∀ p, ptAdd p .inf = p) ∧
  (∀ x, ptAdd (.fin x 0) (.fin x 0) = .inf) ∧
  (∀ x y1 y2, y1 ≠ y2 → ptAdd (.fin x y1) (.fin x y2) = .inf) ∧
  (∀ x y : Nat, y ≠ 0 → ∃ x3 y3, ptAdd (.fin x y) (.fin x y) = .fin x3 y3 ∧ x3 < curveP ∧ y3 < curveP ∧
    ∃ sl : ZMod curveP, sl = 3 * (x : ZMod curveP) ^ 2 * (2 * (y : ZMod curveP)) ^ (curveP - 2) ∧
      (x3 : ZMod curveP) = sl ^ 2 - 2 * x ∧ (y3 : ZMod curveP) = sl * (x - x3) - y) ∧
  (∀ x1 y1 x2 y2 : Nat, x1 ≠ x2 → ∃ x3 y3, ptAdd (.fin x1 y1) (.fin x2 y2) = .fin x3 y3 ∧ x3 < curveP ∧
    y3 < curveP ∧ ∃ sl : ZMod curveP, sl = ((y2 : ZMod curveP) - y1) * ((x2 : ZMod curveP) - x1) ^ (curveP - 2) ∧
      (x3 : ZMod curveP) = sl ^ 2 - x1 - x2 ∧ (y3 : ZMod curveP) = sl * (x1 - x3) - y1)

/-- spec/41_curve.md R146: the group law stays on the curve, never divides by zero, its case 2 is not reached by valid
points, and a point plus its negation is Inf. -/
def Obligations.PointAdditionStaysOnTheCurve : Prop :=
  (∀ p q, ValidPoint p → ValidPoint q → ValidPoint (ptAdd p q)) ∧
  (∀ x y, ValidPoint (.fin x y) → y ≠ 0 ∧ 2 * y % curveP ≠ 0) ∧
  (∀ x1 y1 x2 y2, ValidPoint (.fin x1 y1) → ValidPoint (.fin x2 y2) → x1 ≠ x2 → subMod x2 x1 curveP ≠ 0) ∧
  (∀ x y, ValidPoint (.fin x y) → ValidPoint (.fin x ((curveP - y) % curveP)) ∧
    ptAdd (.fin x y) (.fin x ((curveP - y) % curveP)) = .inf)

/-- spec/41_curve.md R147: scalar multiplication is the 256-iteration double-and-add, whatever the schedule; `k = 0` and
`p = Inf` give Inf; and on valid points it is the k-fold sum. -/
def Obligations.ScalarMultiplicationIsDoubleAndAdd : Prop :=
  (∀ (k : Nat) (p : Point), k < 2 ^ 256 → ptMul k p = doubleAndAdd k p) ∧ (∀ p, ptMul 0 p = .inf) ∧
  (∀ k, ptMul k .inf = .inf) ∧
  (∀ (k : Nat) (p : Point), k < 2 ^ 256 → ValidPoint p → ptMul k p = foldSum p k)

/-- spec/41_curve.md R148: `1 * p = p`, scalars add, `N * G = Inf`, and multiples of G depend on the scalar mod N. -/
def Obligations.ScalarMultiplicationLaws : Prop :=
  (∀ p, ValidPoint p → ptMul 1 p = p) ∧
  (∀ (k1 k2 : Nat) (p : Point), ValidPoint p → k1 + k2 < 2 ^ 256 →
    ptMul (k1 + k2) p = ptAdd (ptMul k1 p) (ptMul k2 p)) ∧
  ptMul orderN (.fin genX genY) = .inf ∧
  (∀ k, k < 2 ^ 256 → ptMul k (.fin genX genY) = ptMul (k % orderN) (.fin genX genY))

/-! ### ECDSA commands -/

/-- spec/42_ecdsa.md R172: KPUB writes `d * G`, which is finite, for `0 < d < N` and raises OutOfRange otherwise. -/
def Obligations.KpubWritesThePublicKey : Prop :=
  ∀ (s : State) (d : PReg) (k : VReg),
    (0 < valV s k → valV s k < orderN →
      exec (.kpub d k) s = .next (finished (withPR s d (ptMul (valV s k) (.fin genX genY))) 0) ∧
      ptMul (valV s k) (.fin genX genY) ≠ .inf) ∧
    (valV s k = 0 ∨ orderN ≤ valV s k → exec (.kpub d k) s = .next (finished s 0x01))

/-- spec/42_ecdsa.md R173, R175: `detK` is the first candidate in `[1, N)` among the first NONCE_MAX_ITER, for every HMAC
unit, and fails when there is none. -/
def Obligations.NonceIsTheFirstCandidateInRange : Prop :=
  ∀ (u : HmacUnit) (maxIter d z : Nat),
    (∀ k, detK u maxIter d z = some k ↔ ∃ i, i < maxIter ∧ nonceCandidate u d z i = k ∧ 1 ≤ k ∧ k < orderN ∧
      ∀ j, j < i → ¬ (1 ≤ nonceCandidate u d z j ∧ nonceCandidate u d z j < orderN)) ∧
    (detK u maxIter d z = none ↔ ∀ j, j < maxIter → ¬ (1 ≤ nonceCandidate u d z j ∧ nonceCandidate u d z j < orderN))

/-- spec/42_ecdsa.md R174: NONCE writes the nonce, which is in `[1, N)`; z and z + N give the same one; a bad key raises
OutOfRange and a failed search NonceExhausted. -/
def Obligations.NonceWritesTheNonce : Prop :=
  ∀ (s : State) (k d z : VReg),
    (∀ n, 0 < valV s d → valV s d < orderN → NonceIs s (valV s d) (valV s z) n →
      exec (.nonce k d z) s = .next (finished (withV s k n) 0) ∧ 1 ≤ n ∧ n < orderN) ∧
    (0 < valV s d → valV s d < orderN → NonceFails s (valV s d) (valV s z) →
      exec (.nonce k d z) s = .next (finished s 0x13)) ∧
    (valV s d = 0 ∨ orderN ≤ valV s d → exec (.nonce k d z) s = .next (finished s 0x01)) ∧
    (∀ z', detK s.cfg.hmac s.cfg.nonceMaxIter (valV s d) (z' + orderN) =
      detK s.cfg.hmac s.cfg.nonceMaxIter (valV s d) z')

/-- spec/42_ecdsa.md R176, R177, R178: SIGN writes r and the low s, or completes with the first error and writes
neither. -/
def Obligations.SignWritesTheSignature : Prop :=
  ∀ (s : State) (r d z sReg : VReg), r ≠ sReg →
    (∀ n x y, 0 < valV s d → valV s d < orderN → NonceIs s (valV s d) (valV s z) n →
      ptMul n (.fin genX genY) = .fin x y → x % orderN ≠ 0 → rawS n (valV s d) (valV s z) (x % orderN) ≠ 0 →
      exec (.sign r d z sReg) s = .next (finished (withV (withV s r (x % orderN)) sReg
        (if orderN / 2 < rawS n (valV s d) (valV s z) (x % orderN)
          then orderN - rawS n (valV s d) (valV s z) (x % orderN)
          else rawS n (valV s d) (valV s z) (x % orderN))) 0)) ∧
    (∀ n x y, 0 < valV s d → valV s d < orderN → NonceIs s (valV s d) (valV s z) n →
      ptMul n (.fin genX genY) = .fin x y → x % orderN = 0 ∨ rawS n (valV s d) (valV s z) (x % orderN) = 0 →
      exec (.sign r d z sReg) s = .next (finished s 0x14)) ∧
    (0 < valV s d → valV s d < orderN → NonceFails s (valV s d) (valV s z) →
      exec (.sign r d z sReg) s = .next (finished s 0x13)) ∧
    (valV s d = 0 ∨ orderN ≤ valV s d → exec (.sign r d z sReg) s = .next (finished s 0x01))

/-- spec/42_ecdsa.md R176, R177: a signature SIGN writes has `0 < r < N` and `0 < s ≤ HALF_N`. -/
def Obligations.SignaturesAreInRangeAndLowS : Prop :=
  ∀ (s t : State) (r d z sReg : VReg), r ≠ sReg → exec (.sign r d z sReg) s = .next t → t.errcode = 0 →
    0 < valV t r ∧ valV t r < orderN ∧ 0 < valV t sReg ∧ valV t sReg ≤ orderN / 2

/-- spec/42_ecdsa.md R180: VERIFY writes the verdict to VALID and no register; an invalid key is an error. -/
def Obligations.VerifyGivesTheVerdict : Prop :=
  ∀ (s : State) (q : PReg) (z r sReg : VReg),
    (ValidPoint (valP s q) → ∃ b, exec (.verify q z r sReg) s = .next (finished { s with valid := b } 0) ∧
      (b = true ↔ valP s q ≠ .inf ∧ valV s r < orderN ∧ valV s sReg < orderN ∧ valV s sReg ≠ 0 ∧
        ∃ x y, ptAdd (ptMul (valV s z * (valV s sReg ^ (orderN - 2) % orderN) % orderN) (.fin genX genY))
            (ptMul (valV s r * (valV s sReg ^ (orderN - 2) % orderN) % orderN) (valP s q)) = .fin x y ∧
          x % orderN = valV s r)) ∧
    (CoordinateTooLarge (valP s q) → exec (.verify q z r sReg) s = .next (finished s 0x01)) ∧
    (OffCurve (valP s q) → exec (.verify q z r sReg) s = .next (finished s 0x04))

/-- spec/42_ecdsa.md R181: the pre-checks reject without an error: r ≥ N, s ≥ N, s = 0, Q = Inf, or an infinite sum;
an invalid finite Q is an error. -/
def Obligations.VerifyRejectsWithoutError : Prop :=
  ∀ (s : State) (q : PReg) (z r sReg : VReg),
    (ValidPoint (valP s q) →
    (orderN ≤ valV s r ∨ orderN ≤ valV s sReg ∨ valV s sReg = 0 ∨ valP s q = .inf ∨
      ptAdd (ptMul (valV s z * (valV s sReg ^ (orderN - 2) % orderN) % orderN) (.fin genX genY))
        (ptMul (valV s r * (valV s sReg ^ (orderN - 2) % orderN) % orderN) (valP s q)) = .inf) →
    exec (.verify q z r sReg) s = .next (finished { s with valid := false } 0)) ∧
    (CoordinateTooLarge (valP s q) → exec (.verify q z r sReg) s = .next (finished s 0x01)) ∧
    (OffCurve (valP s q) → exec (.verify q z r sReg) s = .next (finished s 0x04))

/-- spec/42_ecdsa.md R182: a signature SIGN gives verifies under the public key of its private key, for every HMAC
unit, digest and key; NONCE and SIGN are functions of key, digest and HMAC parameter; and SIGN's r is the x coordinate of
the nonce's point modulo N. -/
def Obligations.SignedDigestVerifies : Prop :=
  (∀ (s t u : State) (r d z sReg : VReg) (q : PReg) (z' r' s' : VReg),
    r ≠ sReg → exec (.sign r d z sReg) s = .next t → t.errcode = 0 →
    valP u q = ptMul (valV s d) (.fin genX genY) → valV u z' = valV s z → valV u r' = valV t r →
    valV u s' = valV t sReg →
    ∃ w, exec (.verify q z' r' s') u = .next w ∧ w.errcode = 0 ∧ w.valid = true) ∧
  (∀ (s u : State) (r d z sReg k : VReg), s.cfg = u.cfg → valV s d = valV u d → valV s z = valV u z →
    ∃ t w t' w', exec (.sign r d z sReg) s = .next t ∧ exec (.sign r d z sReg) u = .next w ∧
      t.errcode = w.errcode ∧ (t.errcode = 0 → valV t r = valV w r ∧ valV t sReg = valV w sReg) ∧
      exec (.nonce k d z) s = .next t' ∧ exec (.nonce k d z) u = .next w' ∧
      t'.errcode = w'.errcode ∧ (t'.errcode = 0 → valV t' k = valV w' k)) ∧
  (∀ (s t : State) (r d z sReg : VReg), r ≠ sReg → exec (.sign r d z sReg) s = .next t → t.errcode = 0 →
    ∃ k x y, NonceIs s (valV s d) (valV s z) k ∧ ptMul k (.fin genX genY) = .fin x y ∧ valV t r = x % orderN)

/-- spec/42_ecdsa.md R180 (corner cases), for public keys that are multiples of G: `(r, N - s)` verifies exactly when
`(r, s)` does. -/
def Obligations.HighSVerifiesWhenLowSDoes : Prop :=
  ∀ (s t u : State) (q : PReg) (z r sReg sHigh : VReg) (d : Nat), d < orderN →
    valP s q = ptMul d (.fin genX genY) → 0 < valV s sReg → valV s sReg < orderN →
    valV s sHigh = orderN - valV s sReg → exec (.verify q z r sReg) s = .next t →
    exec (.verify q z r sHigh) s = .next u → t.errcode = 0 ∧ u.errcode = 0 ∧ t.valid = u.valid
end

