-- ==== Sys2Proof/Laws/Arith.lean ====
section
/-! SUPPORT. The exact arithmetic of spec/00_scope.md R10: the fast definitions give the clear ones. -/

namespace Sys2Proof.Machine

theorem subMod_lt {m : Nat} (a b : Nat) (hm : 0 < m) : subMod a b m < m := Nat.mod_lt _ hm

/-- `subMod` is the Euclidean remainder of the integer difference (R10). -/
theorem subMod_eq_emod {m : Nat} (a b : Nat) (hm : 0 < m) : (subMod a b m : ℤ) = ((a : ℤ) - b) % m := by
  have hb : b % m ≤ m := (Nat.mod_lt b hm).le
  have h : ((a : ℤ) + ((m : ℤ) - (b % m : ℕ))) % m = ((a : ℤ) - b) % m := by
    apply Int.emod_emod_of_dvd _ (dvd_refl (m : ℤ)) |>.symm.trans
    rw [Int.emod_emod_of_dvd _ (dvd_refl (m : ℤ))]
    apply Int.ModEq.symm
    apply (Int.modEq_iff_dvd).2
    refine ⟨1 + (b / m : ℕ), ?_⟩
    have := Nat.div_add_mod b m
    have hz : (b : ℤ) = m * (b / m : ℕ) + (b % m : ℕ) := by exact_mod_cast this.symm
    rw [hz]
    push_cast
    ring
  unfold subMod
  push_cast [hb]
  exact_mod_cast h

/-- Subtraction in `ZMod m`. -/
theorem subMod_cast {m : Nat} (a b : Nat) (hm : 0 < m) : (subMod a b m : ZMod m) = (a : ZMod m) - b := by
  have h := congrArg (fun z : ℤ => (z : ZMod m)) (subMod_eq_emod a b hm)
  simpa using h

theorem subMod_of_le {a b m : Nat} (hba : b ≤ a) (ham : a < m) : subMod a b m = a - b := by
  have hb : b % m = b := Nat.mod_eq_of_lt (hba.trans_lt ham)
  have : a + (m - b) = (a - b) + m := by omega
  rw [subMod, hb, this, Nat.add_mod_right, Nat.mod_eq_of_lt (by omega)]

theorem subMod_of_lt {a b m : Nat} (hab : a < b) (hbm : b < m) : subMod a b m = a + (m - b) := by
  rw [subMod, Nat.mod_eq_of_lt hbm, Nat.mod_eq_of_lt (by omega)]

theorem powmodBits_mod (m n a e acc : Nat) (he : e < 2 ^ n) :
    powmodBits m n a e acc % m = acc * a ^ e % m := by
  induction n generalizing a e acc with
  | zero =>
    have : e = 0 := by simpa using he
    simp [powmodBits, this]
  | succ n ih =>
    have he2 : e / 2 < 2 ^ n := by rw [pow_succ] at he; omega
    have hsplit : e = 2 * (e / 2) + e % 2 := (Nat.div_add_mod e 2).symm
    rw [powmodBits, ih _ _ _ he2]
    have hsq : (a * a % m) ^ (e / 2) ≡ a ^ (2 * (e / 2)) [MOD m] := by
      rw [pow_mul, pow_two]
      exact (Nat.mod_modEq _ _).pow _
    split
    · next h1 =>
      have : a ^ e = a * a ^ (2 * (e / 2)) := by
        conv_lhs => rw [hsplit, h1, pow_succ]
        ring
      rw [this, ← mul_assoc]
      exact (Nat.mod_modEq _ _).mul hsq
    · next h1 =>
      have : a ^ e = a ^ (2 * (e / 2)) := by
        conv_lhs => rw [hsplit, show e % 2 = 0 by omega, add_zero]
      rw [this]
      exact (Nat.ModEq.refl _).mul hsq

theorem powmodBits_reduced (m n a e acc : Nat) (h : acc % m = acc) :
    powmodBits m n a e acc % m = powmodBits m n a e acc := by
  induction n generalizing a e acc with
  | zero => exact h
  | succ n ih =>
    rw [powmodBits]
    apply ih
    split
    · exact Nat.mod_mod _ _
    · exact h

/-- `powmod` is the power reduced (R10), for every base, exponent and modulus. -/
theorem powmod_eq (a e m : Nat) : powmod a e m = a ^ e % m := by
  have he : e < 2 ^ (Nat.log2 e + 1) := Nat.lt_log2_self
  rw [powmod, ← powmodBits_reduced _ _ _ _ _ (Nat.mod_mod _ _), powmodBits_mod _ _ _ _ _ he]
  have h1 : 1 % m ≡ 1 [MOD m] := Nat.mod_modEq _ _
  have ha : (a % m) ^ e ≡ a ^ e [MOD m] := (Nat.mod_modEq _ _).pow _
  simpa [Nat.ModEq] using h1.mul ha

theorem powmod_lt {m : Nat} (a e : Nat) (hm : 0 < m) : powmod a e m < m := by
  rw [powmod_eq]
  exact Nat.mod_lt _ hm

/-- `powmod` in `ZMod m`. -/
theorem powmod_cast (a e m : Nat) : (powmod a e m : ZMod m) = (a : ZMod m) ^ e := by
  rw [powmod_eq]
  simp

/-- Division in `ZMod m` is multiplication by the Fermat power (spec/40_field.md R118). -/
theorem divMod_cast (a b m : Nat) : (divMod a b m : ZMod m) = (a : ZMod m) * (b : ZMod m) ^ (m - 2) := by
  simp [divMod, powmod_cast]

theorem divMod_lt {m : Nat} (a b : Nat) (hm : 0 < m) : divMod a b m < m := Nat.mod_lt _ hm

theorem curveP_pos : 0 < curveP := by decide

theorem orderN_pos : 0 < orderN := by decide

theorem curveP_lt : curveP < 2 ^ 256 := by decide

theorem orderN_lt : orderN < 2 ^ 256 := by decide

/-- The curve equation in `ZMod P` (spec/41_curve.md R140). -/
theorem onCurve_iff (x y : Nat) :
    onCurve x y = true ↔ (y : ZMod curveP) ^ 2 = (x : ZMod curveP) ^ 3 + 7 := by
  have h : (subMod (y * y) (x * x * x + curveB) curveP : ZMod curveP) =
      (y : ZMod curveP) ^ 2 - ((x : ZMod curveP) ^ 3 + 7) := by
    rw [subMod_cast _ _ curveP_pos]
    push_cast [curveB]
    ring
  rw [onCurve, beq_iff_eq, ← sub_eq_zero (a := (y : ZMod curveP) ^ 2), ← h, ZMod.natCast_eq_zero_iff]
  constructor
  · intro h0; rw [h0]; exact dvd_zero _
  · intro hd; exact Nat.eq_zero_of_dvd_of_lt hd (subMod_lt _ _ curveP_pos)

end Sys2Proof.Machine
end

