-- ==== Sys2Proof/Laws/State.lean ====
section
/-! SUPPORT. One lemma for each field of State under each update, true by rfl, and the register accessors under the
updates: no later proof unfolds a record update. -/

namespace Sys2Proof.Machine

/-! ### writeV -/

@[simp] theorem writeV_v (s : State) (i : VReg) (x : U256) : (writeV s i x).v = s.v.set i x := rfl
@[simp] theorem writeV_pr (s : State) (i : VReg) (x : U256) : (writeV s i x).pr = s.pr := rfl
@[simp] theorem writeV_ie (s : State) (i : VReg) (x : U256) : (writeV s i x).ie = s.ie := rfl
@[simp] theorem writeV_busy (s : State) (i : VReg) (x : U256) : (writeV s i x).busy = s.busy := rfl
@[simp] theorem writeV_done (s : State) (i : VReg) (x : U256) : (writeV s i x).done = s.done := rfl
@[simp] theorem writeV_valid (s : State) (i : VReg) (x : U256) : (writeV s i x).valid = s.valid := rfl
@[simp] theorem writeV_errcode (s : State) (i : VReg) (x : U256) : (writeV s i x).errcode = s.errcode := rfl
@[simp] theorem writeV_lastcmd (s : State) (i : VReg) (x : U256) : (writeV s i x).lastcmd = s.lastcmd := rfl
@[simp] theorem writeV_phase (s : State) (i : VReg) (x : U256) : (writeV s i x).phase = s.phase := rfl
@[simp] theorem writeV_cfg (s : State) (i : VReg) (x : U256) : (writeV s i x).cfg = s.cfg := rfl
@[simp] theorem writeV_turns (s : State) (i : VReg) (x : U256) : (writeV s i x).turns = s.turns := rfl
@[simp] theorem writeV_replies (s : State) (i : VReg) (x : U256) : (writeV s i x).replies = s.replies := rfl

/-! ### writePR -/

@[simp] theorem writePR_v (s : State) (i : PReg) (r : PointReg) : (writePR s i r).v = s.v := rfl
@[simp] theorem writePR_pr (s : State) (i : PReg) (r : PointReg) : (writePR s i r).pr = s.pr.set i r := rfl
@[simp] theorem writePR_ie (s : State) (i : PReg) (r : PointReg) : (writePR s i r).ie = s.ie := rfl
@[simp] theorem writePR_busy (s : State) (i : PReg) (r : PointReg) : (writePR s i r).busy = s.busy := rfl
@[simp] theorem writePR_done (s : State) (i : PReg) (r : PointReg) : (writePR s i r).done = s.done := rfl
@[simp] theorem writePR_valid (s : State) (i : PReg) (r : PointReg) : (writePR s i r).valid = s.valid := rfl
@[simp] theorem writePR_errcode (s : State) (i : PReg) (r : PointReg) : (writePR s i r).errcode = s.errcode := rfl
@[simp] theorem writePR_lastcmd (s : State) (i : PReg) (r : PointReg) : (writePR s i r).lastcmd = s.lastcmd := rfl
@[simp] theorem writePR_phase (s : State) (i : PReg) (r : PointReg) : (writePR s i r).phase = s.phase := rfl
@[simp] theorem writePR_cfg (s : State) (i : PReg) (r : PointReg) : (writePR s i r).cfg = s.cfg := rfl
@[simp] theorem writePR_turns (s : State) (i : PReg) (r : PointReg) : (writePR s i r).turns = s.turns := rfl
@[simp] theorem writePR_replies (s : State) (i : PReg) (r : PointReg) : (writePR s i r).replies = s.replies := rfl

/-! ### setValid -/

@[simp] theorem setValid_v (s : State) (b : Bool) : (setValid s b).v = s.v := rfl
@[simp] theorem setValid_pr (s : State) (b : Bool) : (setValid s b).pr = s.pr := rfl
@[simp] theorem setValid_ie (s : State) (b : Bool) : (setValid s b).ie = s.ie := rfl
@[simp] theorem setValid_busy (s : State) (b : Bool) : (setValid s b).busy = s.busy := rfl
@[simp] theorem setValid_done (s : State) (b : Bool) : (setValid s b).done = s.done := rfl
@[simp] theorem setValid_valid (s : State) (b : Bool) : (setValid s b).valid = b := rfl
@[simp] theorem setValid_errcode (s : State) (b : Bool) : (setValid s b).errcode = s.errcode := rfl
@[simp] theorem setValid_lastcmd (s : State) (b : Bool) : (setValid s b).lastcmd = s.lastcmd := rfl
@[simp] theorem setValid_phase (s : State) (b : Bool) : (setValid s b).phase = s.phase := rfl
@[simp] theorem setValid_cfg (s : State) (b : Bool) : (setValid s b).cfg = s.cfg := rfl
@[simp] theorem setValid_turns (s : State) (b : Bool) : (setValid s b).turns = s.turns := rfl
@[simp] theorem setValid_replies (s : State) (b : Bool) : (setValid s b).replies = s.replies := rfl

/-! ### writeIe -/

@[simp] theorem writeIe_v (s : State) (w : Word) : (writeIe s w).v = s.v := rfl
@[simp] theorem writeIe_pr (s : State) (w : Word) : (writeIe s w).pr = s.pr := rfl
@[simp] theorem writeIe_ie (s : State) (w : Word) : (writeIe s w).ie = w.getLsbD 0 := rfl
@[simp] theorem writeIe_busy (s : State) (w : Word) : (writeIe s w).busy = s.busy := rfl
@[simp] theorem writeIe_done (s : State) (w : Word) : (writeIe s w).done = s.done := rfl
@[simp] theorem writeIe_valid (s : State) (w : Word) : (writeIe s w).valid = s.valid := rfl
@[simp] theorem writeIe_errcode (s : State) (w : Word) : (writeIe s w).errcode = s.errcode := rfl
@[simp] theorem writeIe_lastcmd (s : State) (w : Word) : (writeIe s w).lastcmd = s.lastcmd := rfl
@[simp] theorem writeIe_phase (s : State) (w : Word) : (writeIe s w).phase = s.phase := rfl
@[simp] theorem writeIe_cfg (s : State) (w : Word) : (writeIe s w).cfg = s.cfg := rfl
@[simp] theorem writeIe_turns (s : State) (w : Word) : (writeIe s w).turns = s.turns := rfl
@[simp] theorem writeIe_replies (s : State) (w : Word) : (writeIe s w).replies = s.replies := rfl

/-! ### finish -/

@[simp] theorem finish_v (s : State) (c : Byte) : (finish s c).v = s.v := rfl
@[simp] theorem finish_pr (s : State) (c : Byte) : (finish s c).pr = s.pr := rfl
@[simp] theorem finish_ie (s : State) (c : Byte) : (finish s c).ie = s.ie := rfl
@[simp] theorem finish_busy (s : State) (c : Byte) : (finish s c).busy = false := rfl
@[simp] theorem finish_done (s : State) (c : Byte) : (finish s c).done = true := rfl
@[simp] theorem finish_valid (s : State) (c : Byte) : (finish s c).valid = s.valid := rfl
@[simp] theorem finish_errcode (s : State) (c : Byte) : (finish s c).errcode = c := rfl
@[simp] theorem finish_lastcmd (s : State) (c : Byte) : (finish s c).lastcmd = s.lastcmd := rfl
@[simp] theorem finish_phase (s : State) (c : Byte) : (finish s c).phase = .idle := rfl
@[simp] theorem finish_cfg (s : State) (c : Byte) : (finish s c).cfg = s.cfg := rfl
@[simp] theorem finish_turns (s : State) (c : Byte) : (finish s c).turns = s.turns := rfl
@[simp] theorem finish_replies (s : State) (c : Byte) : (finish s c).replies = s.replies := rfl

/-! ### accept -/

@[simp] theorem accept_v (s : State) (w : Word) : (accept s w).v = s.v := rfl
@[simp] theorem accept_pr (s : State) (w : Word) : (accept s w).pr = s.pr := rfl
@[simp] theorem accept_ie (s : State) (w : Word) : (accept s w).ie = s.ie := rfl
@[simp] theorem accept_busy (s : State) (w : Word) : (accept s w).busy = true := rfl
@[simp] theorem accept_done (s : State) (w : Word) : (accept s w).done = false := rfl
@[simp] theorem accept_valid (s : State) (w : Word) : (accept s w).valid = false := rfl
@[simp] theorem accept_errcode (s : State) (w : Word) : (accept s w).errcode = 0 := rfl
@[simp] theorem accept_lastcmd (s : State) (w : Word) : (accept s w).lastcmd = w := rfl
@[simp] theorem accept_phase (s : State) (w : Word) : (accept s w).phase = .busy w := rfl
@[simp] theorem accept_cfg (s : State) (w : Word) : (accept s w).cfg = s.cfg := rfl
@[simp] theorem accept_turns (s : State) (w : Word) : (accept s w).turns = s.turns := rfl
@[simp] theorem accept_replies (s : State) (w : Word) : (accept s w).replies = s.replies := rfl

/-! ### pushReply -/

@[simp] theorem pushReply_v (s : State) (r : Reply) : (pushReply s r).v = s.v := rfl
@[simp] theorem pushReply_pr (s : State) (r : Reply) : (pushReply s r).pr = s.pr := rfl
@[simp] theorem pushReply_ie (s : State) (r : Reply) : (pushReply s r).ie = s.ie := rfl
@[simp] theorem pushReply_busy (s : State) (r : Reply) : (pushReply s r).busy = s.busy := rfl
@[simp] theorem pushReply_done (s : State) (r : Reply) : (pushReply s r).done = s.done := rfl
@[simp] theorem pushReply_valid (s : State) (r : Reply) : (pushReply s r).valid = s.valid := rfl
@[simp] theorem pushReply_errcode (s : State) (r : Reply) : (pushReply s r).errcode = s.errcode := rfl
@[simp] theorem pushReply_lastcmd (s : State) (r : Reply) : (pushReply s r).lastcmd = s.lastcmd := rfl
@[simp] theorem pushReply_phase (s : State) (r : Reply) : (pushReply s r).phase = s.phase := rfl
@[simp] theorem pushReply_cfg (s : State) (r : Reply) : (pushReply s r).cfg = s.cfg := rfl
@[simp] theorem pushReply_turns (s : State) (r : Reply) : (pushReply s r).turns = s.turns := rfl
@[simp] theorem pushReply_replies (s : State) (r : Reply) : (pushReply s r).replies = s.replies ++ [r] := rfl

/-! ### resetCore -/

@[simp] theorem resetCore_v (s : State) : (resetCore s).v = State.reset.v := rfl
@[simp] theorem resetCore_pr (s : State) : (resetCore s).pr = State.reset.pr := rfl
@[simp] theorem resetCore_ie (s : State) : (resetCore s).ie = State.reset.ie := rfl
@[simp] theorem resetCore_busy (s : State) : (resetCore s).busy = State.reset.busy := rfl
@[simp] theorem resetCore_done (s : State) : (resetCore s).done = State.reset.done := rfl
@[simp] theorem resetCore_valid (s : State) : (resetCore s).valid = State.reset.valid := rfl
@[simp] theorem resetCore_errcode (s : State) : (resetCore s).errcode = State.reset.errcode := rfl
@[simp] theorem resetCore_lastcmd (s : State) : (resetCore s).lastcmd = State.reset.lastcmd := rfl
@[simp] theorem resetCore_phase (s : State) : (resetCore s).phase = State.reset.phase := rfl
@[simp] theorem resetCore_cfg (s : State) : (resetCore s).cfg = s.cfg := rfl
@[simp] theorem resetCore_turns (s : State) : (resetCore s).turns = s.turns := rfl
@[simp] theorem resetCore_replies (s : State) : (resetCore s).replies = s.replies := rfl

/-! ### Register accessors under the updates -/

@[simp] theorem readV_writeV (s : State) (i j : VReg) (x : U256) :
    readV (writeV s i x) j = if i = j then x else readV s j := by
  simp [readV, Vector.getElem_set, Fin.ext_iff]

@[simp] theorem readPR_writePR (s : State) (i j : PReg) (r : PointReg) :
    readPR (writePR s i r) j = if i = j then r else readPR s j := by
  simp [readPR, Vector.getElem_set, Fin.ext_iff]

@[simp] theorem readPR_writeV (s : State) (i : VReg) (x : U256) (j : PReg) : readPR (writeV s i x) j = readPR s j := rfl
@[simp] theorem readV_writePR (s : State) (i : PReg) (r : PointReg) (j : VReg) : readV (writePR s i r) j = readV s j := rfl
@[simp] theorem readV_setValid (s : State) (b : Bool) (j : VReg) : readV (setValid s b) j = readV s j := rfl
@[simp] theorem readPR_setValid (s : State) (b : Bool) (j : PReg) : readPR (setValid s b) j = readPR s j := rfl
@[simp] theorem readV_writeIe (s : State) (w : Word) (j : VReg) : readV (writeIe s w) j = readV s j := rfl
@[simp] theorem readPR_writeIe (s : State) (w : Word) (j : PReg) : readPR (writeIe s w) j = readPR s j := rfl
@[simp] theorem readV_finish (s : State) (c : Byte) (j : VReg) : readV (finish s c) j = readV s j := rfl
@[simp] theorem readPR_finish (s : State) (c : Byte) (j : PReg) : readPR (finish s c) j = readPR s j := rfl
@[simp] theorem readV_accept (s : State) (w : Word) (j : VReg) : readV (accept s w) j = readV s j := rfl
@[simp] theorem readPR_accept (s : State) (w : Word) (j : PReg) : readPR (accept s w) j = readPR s j := rfl
@[simp] theorem readV_pushReply (s : State) (r : Reply) (j : VReg) : readV (pushReply s r) j = readV s j := rfl
@[simp] theorem readPR_pushReply (s : State) (r : Reply) (j : PReg) : readPR (pushReply s r) j = readPR s j := rfl

/-! ### The reset state -/

@[simp] theorem readV_reset (i : VReg) : readV State.reset i = 0 := by simp [readV, State.reset]

@[simp] theorem readPR_reset (i : PReg) : readPR State.reset i = PointReg.reset := by simp [readPR, State.reset]

/-- A completed state is its start with the destinations written and the flags set (one lemma for R204 and R205). -/
theorem completeState_cases (s : State) (r : Except ErrCode Result) :
    (∃ e, r = .error e ∧ completeState s r = finish s (errNumber e)) ∨
      (∃ x, r = .ok x ∧ completeState s r = finish (writeResult s x) 0) := by
  cases r with
  | error e => exact .inl ⟨e, rfl, rfl⟩
  | ok x => exact .inr ⟨x, rfl, rfl⟩

theorem errNumber_ne_zero (e : ErrCode) : errNumber e ≠ 0 := by cases e <;> decide

/-- A point survives being written to a register and read back when its coordinates are 256-bit values (R22, R23). -/
theorem value_ofPoint_fin {x y : Nat} (hx : x < 2 ^ 256) (hy : y < 2 ^ 256) :
    (PointReg.ofPoint (.fin x y)).value = .fin x y := by
  simpa [PointReg.ofPoint, PointReg.value] using And.intro hx hy

theorem value_ofPoint_inf : (PointReg.ofPoint .inf).value = .inf := rfl

end Sys2Proof.Machine
end

