-- ==== Sys2Proof/Laws/Commands.lean ====
section
/-! SUPPORT. One lemma for each shared operation of the commands: when its check passes, what it gives; and how a chain of
checks ends. -/

namespace Sys2Proof.Machine

@[simp] theorem check_true (e : ErrCode) : check true e = .ok () := rfl

@[simp] theorem check_false (e : ErrCode) : check false e = .error e := rfl

@[simp] theorem ok_bind {ε α β : Type} (x : α) (f : α → Except ε β) : ((Except.ok x : Except ε α) >>= f) = f x := rfl

@[simp] theorem error_bind {ε α β : Type} (e : ε) (f : α → Except ε β) :
    ((Except.error e : Except ε α) >>= f) = .error e := rfl

@[simp] theorem pure_eq_ok {ε α : Type} (x : α) : (pure x : Except ε α) = .ok x := rfl

theorem modulusOperand_ok {s : State} {m : Modulus} (h : 2 ≤ modulusValue s m) :
    modulusOperand s m = .ok (modulusValue s m) := by simp [modulusOperand, h]

theorem modulusOperand_error {s : State} {m : Modulus} (h : modulusValue s m < 2) :
    modulusOperand s m = .error .invalidModulus := by
  simp [modulusOperand, Nat.not_le.2 h]

theorem fieldOperand_ok {s : State} {i : VReg} {m : Nat} (h : valV s i < m) :
    fieldOperand s i m = .ok (valV s i) := by simp [fieldOperand, h]

theorem fieldOperand_error {s : State} {i : VReg} {m : Nat} (h : m ≤ valV s i) :
    fieldOperand s i m = .error .outOfRange := by
  simp [fieldOperand, Nat.not_lt.2 h]

theorem privateKey_ok {s : State} {i : VReg} (h0 : 0 < valV s i) (hN : valV s i < orderN) :
    privateKey s i = .ok (valV s i) := by simp [privateKey, h0, hN]

theorem privateKey_error {s : State} {i : VReg} (h : valV s i = 0 ∨ orderN ≤ valV s i) :
    privateKey s i = .error .outOfRange := by
  rcases h with h | h
  · simp [privateKey, h]
  · simp [privateKey, Nat.not_lt.2 h]

/-- `checkPoint` answers the point itself exactly when it is valid (spec/41_curve.md R141, R142). -/
theorem checkPoint_eq_ok {p q : Point} : checkPoint p = .ok q ↔ p.valid = true ∧ q = p := by
  cases p with
  | inf => simp [checkPoint, Point.valid, eq_comm]
  | fin x y =>
    by_cases hx : x < curveP <;> by_cases hy : y < curveP <;> cases hc : onCurve x y <;>
      simp [checkPoint, Point.valid, hx, hy, hc, eq_comm]

theorem checkPoint_ok {p : Point} (h : p.valid = true) : checkPoint p = .ok p := checkPoint_eq_ok.2 ⟨h, rfl⟩

/-- How `checkPoint` fails: a coordinate out of range first, then the curve equation (R142). -/
theorem checkPoint_error {p : Point} {e : ErrCode} :
    checkPoint p = .error e ↔ ∃ x y, p = .fin x y ∧
      ((curveP ≤ x ∨ curveP ≤ y) ∧ e = .outOfRange ∨
        x < curveP ∧ y < curveP ∧ onCurve x y = false ∧ e = .invalidCurvePoint) := by
  cases p with
  | inf => simp [checkPoint]
  | fin x y =>
    constructor
    · intro h
      refine ⟨x, y, rfl, ?_⟩
      by_cases hxy : x < curveP ∧ y < curveP
      · cases hc : onCurve x y <;> simp [checkPoint, hxy.1, hxy.2, hc] at h
        exact .inr ⟨hxy.1, hxy.2, rfl, h.symm⟩
      · have hb : (decide (x < curveP) && decide (y < curveP)) = false := by simpa using hxy
        rw [checkPoint, hb] at h
        simp only [check_false, error_bind, Except.error.injEq] at h
        exact .inl ⟨by omega, h.symm⟩
    · rintro ⟨x', y', he, h⟩
      cases he
      rcases h with ⟨hr, rfl⟩ | ⟨hx, hy, hc, rfl⟩
      · have hb : (decide (x < curveP) && decide (y < curveP)) = false := by simp; omega
        rw [checkPoint, hb]
        rfl
      · simp [checkPoint, hx, hy, hc]

/-- Every completion: what stays, what is set, and how the result reaches the registers. -/
theorem completion_next (s : State) (r : Except ErrCode Result) : completion s r = .next (completeState s r) := rfl

theorem writeResult_surroundings (s : State) (r : Result) :
    (writeResult s r).ie = s.ie ∧ (writeResult s r).lastcmd = s.lastcmd ∧ (writeResult s r).cfg = s.cfg ∧
      (writeResult s r).turns = s.turns ∧ (writeResult s r).replies = s.replies := by
  cases r <;> exact ⟨rfl, rfl, rfl, rfl, rfl⟩

theorem generator_valid : generator.valid = true := by decide +kernel

end Sys2Proof.Machine
end

