-- ==== Sys2Proof/Laws/Encoding.lean ====
section
/-! SUPPORT. The fields of a command word and the word itself determine each other (spec/30_encoding.md R81), and the
decoder's small checks. -/

namespace Sys2Proof

theorem Fields.ofWord_toWord (f : Fields) : Fields.ofWord f.toWord = f := by
  obtain ⟨opc, msel, fa, fb, fc, fd, neg, rsv⟩ := f
  simp only [Fields.ofWord, Fields.toWord, Fields.mk.injEq]
  refine ⟨?_, ?_, ?_, ?_, ?_, ?_, ?_, ?_⟩ <;>
  · ext k hk
    simp only [BitVec.getElem_extractLsb', BitVec.getLsbD_or, BitVec.getLsbD_shiftLeft, BitVec.getLsbD_setWidth]
    simp (disch := omega) [BitVec.getLsbD_of_ge, ← BitVec.getLsbD_eq_getElem]
    try interval_cases k <;> simp

theorem Fields.toWord_ofWord (w : Word) : (Fields.ofWord w).toWord = w := by
  ext k hk
  simp only [Fields.ofWord, Fields.toWord, BitVec.getElem_or, BitVec.getElem_shiftLeft, BitVec.getElem_setWidth]
  interval_cases k <;> simp [BitVec.getLsbD_extractLsb', ← BitVec.getLsbD_eq_getElem]

@[simp] theorem require_true (e : DecodeError) : require true e = .ok () := rfl

@[simp] theorem require_false (e : DecodeError) : require false e = .error e := rfl

theorem require_eq_ok {c : Bool} {e : DecodeError} {u : Unit} : require c e = .ok u ↔ c = true := by
  cases c <;> simp [require]

theorem zeroField_eq_ok {f : BitVec 4} {u : Unit} : zeroField f = .ok u ↔ f = 0 := by
  simp [zeroField, require_eq_ok]

@[simp] theorem zeroField_zero : zeroField 0#4 = .ok () := rfl

@[simp] theorem dataField_encodeData (r : VReg) : dataField (encodeData r) = r := by
  ext; simp [dataField, encodeData]

@[simp] theorem encodeData_dataField (f : BitVec 4) : encodeData (dataField f) = f := by
  simp [dataField, encodeData]

@[simp] theorem pointField_encodePoint (r : PReg) : pointField (encodePoint r) = .ok r := by
  revert r; decide

theorem pointField_eq_ok {f : BitVec 4} {r : PReg} : pointField f = .ok r ↔ f = encodePoint r := by
  revert f r; decide

@[simp] theorem decodeModulus_encode (m : Modulus) :
    decodeModulus (encodeMsel m) (encodeModulusField m) = .ok m := by
  cases m <;> simp [decodeModulus, encodeMsel, encodeModulusField, bind, Except.bind, pure, Except.pure]

/-- Two chained checks succeed when both do. -/
theorem bind_eq_ok {ε α β : Type} {x : Except ε α} {f : α → Except ε β} {b : β} :
    (x >>= f) = .ok b ↔ ∃ a, x = .ok a ∧ f a = .ok b := by
  cases x <;> simp [bind, Except.bind]

theorem decodeModulus_eq_ok {msel : BitVec 2} {fd : BitVec 4} {m : Modulus} :
    decodeModulus msel fd = .ok m ↔ msel = encodeMsel m ∧ fd = encodeModulusField m := by
  constructor
  · intro h
    unfold decodeModulus at h
    split at h
    · next h0 =>
      cases h
      exact ⟨BitVec.eq_of_toNat_eq (by simpa [encodeMsel] using h0), by simp [encodeModulusField]⟩
    · next h1 =>
      obtain ⟨u, hz, hm⟩ := bind_eq_ok.1 h
      cases hm
      exact ⟨BitVec.eq_of_toNat_eq (by simpa [encodeMsel] using h1), zeroField_eq_ok.1 hz⟩
    · next h2 =>
      obtain ⟨u, hz, hm⟩ := bind_eq_ok.1 h
      cases hm
      exact ⟨BitVec.eq_of_toNat_eq (by simpa [encodeMsel] using h2), zeroField_eq_ok.1 hz⟩
    · cases h
  · rintro ⟨rfl, rfl⟩
    exact decodeModulus_encode m

end Sys2Proof
end

