-- ==== Sys2Proof/Laws/Group.lean ====
section
/-! SUPPORT. The model's points and group law are Mathlib's nonsingular points of y^2 = x^3 + 7 over the field of P
elements: what lets the laws of spec/41_curve.md R146 to R148 be read off the group structure. -/

namespace Sys2Proof.Machine

/-- The curve y^2 = x^3 + 7 over `ZMod P` (spec/41_curve.md R140). -/
def secpCurve : WeierstrassCurve.Affine (ZMod curveP) := { a₁ := 0, a₂ := 0, a₃ := 0, a₄ := 0, a₆ := 7 }

theorem natCast_ne_zero_of_lt {n : Nat} (h0 : n ≠ 0) (hP : n < curveP) : (n : ZMod curveP) ≠ 0 := by
  rw [Ne, ZMod.natCast_eq_zero_iff]
  exact fun h => absurd (Nat.le_of_dvd (Nat.pos_of_ne_zero h0) h) (Nat.not_le.2 hP)

theorem natCast_inj_of_lt {a b : Nat} (ha : a < curveP) (hb : b < curveP) (h : (a : ZMod curveP) = b) : a = b := by
  have := (ZMod.natCast_eq_natCast_iff' a b curveP).1 h
  rwa [Nat.mod_eq_of_lt ha, Nat.mod_eq_of_lt hb] at this

theorem secpCurve_equation (x y : ZMod curveP) : secpCurve.Equation x y ↔ y ^ 2 = x ^ 3 + 7 := by
  rw [WeierstrassCurve.Affine.equation_iff]
  simp [secpCurve]

theorem secpCurve_negY (x y : ZMod curveP) : secpCurve.negY x y = -y := by
  simp [WeierstrassCurve.Affine.negY, secpCurve]

section Field

variable [Fact curveP.Prime]

theorem secpCurve_nonsingular {x y : ZMod curveP} (h : y ^ 2 = x ^ 3 + 7) : secpCurve.Nonsingular x y := by
  have hd : secpCurve.Δ ≠ 0 := by
    have he : secpCurve.Δ = -((21168 : ℕ) : ZMod curveP) := by
      simp only [WeierstrassCurve.Δ, WeierstrassCurve.b₂, WeierstrassCurve.b₄, WeierstrassCurve.b₆,
        WeierstrassCurve.b₈, secpCurve]
      push_cast
      ring
    rw [he, neg_ne_zero]
    exact natCast_ne_zero_of_lt (by decide) (by decide)
  exact (WeierstrassCurve.Affine.equation_iff_nonsingular_of_Δ_ne_zero hd).1 ((secpCurve_equation x y).2 h)

/-- A model point stands for a point of the curve group. -/
def Represents : Point → secpCurve.Point → Prop
  | .inf, .zero => True
  | .fin x y, .some a b _ => x < curveP ∧ y < curveP ∧ (x : ZMod curveP) = a ∧ (y : ZMod curveP) = b
  | _, _ => False

theorem represents_inf : Represents .inf 0 := trivial

/-- Exactly the valid points stand for points of the group (spec/41_curve.md R141). -/
theorem valid_iff_represents (p : Point) : p.valid = true ↔ ∃ A, Represents p A := by
  cases p with
  | inf => exact ⟨fun _ => ⟨0, trivial⟩, fun _ => rfl⟩
  | fin x y =>
    simp only [Point.valid, Bool.and_eq_true, decide_eq_true_eq, onCurve_iff]
    constructor
    · rintro ⟨⟨hx, hy⟩, hc⟩
      exact ⟨.some _ _ (secpCurve_nonsingular hc), hx, hy, rfl, rfl⟩
    · rintro ⟨A, hA⟩
      cases A with
      | zero => exact hA.elim
      | some a b h =>
        obtain ⟨hx, hy, rfl, rfl⟩ := hA
        exact ⟨⟨hx, hy⟩, (secpCurve_equation _ _).1 h.1⟩

theorem Represents.valid {p : Point} {A : secpCurve.Point} (h : Represents p A) : p.valid = true :=
  (valid_iff_represents p).2 ⟨A, h⟩

/-- A point of the group has one representation. -/
theorem Represents.unique : ∀ {p q : Point} {A : secpCurve.Point}, Represents p A → Represents q A → p = q
  | .inf, .inf, .zero, _, _ => rfl
  | .fin _ _, .fin _ _, .some _ _ _, hp, hq => by
    obtain ⟨hx, hy, hxa, hyb⟩ := hp
    obtain ⟨hx', hy', hxa', hyb'⟩ := hq
    rw [natCast_inj_of_lt hx hx' (hxa.trans hxa'.symm), natCast_inj_of_lt hy hy' (hyb.trans hyb'.symm)]
  | .fin _ _, _, .zero, hp, _ => hp.elim
  | _, .fin _ _, .zero, _, hq => hq.elim
  | .inf, _, .some _ _ _, hp, _ => hp.elim
  | _, .inf, .some _ _ _, _, hq => hq.elim

theorem Represents.eq_zero_iff : ∀ {p : Point} {A : secpCurve.Point}, Represents p A → (A = 0 ↔ p = .inf)
  | .inf, .zero, _ => ⟨fun _ => rfl, fun _ => rfl⟩
  | .fin _ _, .some _ _ h, _ =>
    ⟨fun h0 => absurd h0 (WeierstrassCurve.Affine.Point.some_ne_zero h), fun h0 => by cases h0⟩
  | .fin _ _, .zero, hp => hp.elim
  | .inf, .some _ _ _, hp => hp.elim

/-- The power `P - 2` is the inverse (spec/40_field.md R117). -/
theorem pow_sub_two_eq_inv {b : ZMod curveP} (hb : b ≠ 0) : b ^ (curveP - 2) = b⁻¹ := by
  have h1 : b ^ (curveP - 2) * b = 1 := by
    rw [← pow_succ, show curveP - 2 + 1 = curveP - 1 by decide]
    exact ZMod.pow_card_sub_one_eq_one hb
  exact eq_inv_of_mul_eq_one_left h1

theorem divMod_cast_curve {a b : Nat} (hb : (b : ZMod curveP) ≠ 0) :
    (divMod a b curveP : ZMod curveP) = (a : ZMod curveP) / b := by
  rw [divMod_cast, pow_sub_two_eq_inv hb, div_eq_mul_inv]

/-- The third point of a line is the group's, when the slope is. -/
theorem represents_thirdPoint {s x1 x2 y1 : Nat} {a1 a2 b1 b2 : ZMod curveP} (hx1 : (x1 : ZMod curveP) = a1)
    (hx2 : (x2 : ZMod curveP) = a2) (hy1 : (y1 : ZMod curveP) = b1)
    (hs : (s : ZMod curveP) = secpCurve.slope a1 a2 b1 b2)
    (h : secpCurve.Nonsingular (secpCurve.addX a1 a2 (secpCurve.slope a1 a2 b1 b2))
      (secpCurve.addY a1 a2 b1 (secpCurve.slope a1 a2 b1 b2))) :
    Represents (thirdPoint s x1 x2 y1) (.some _ _ h) := by
  have hX : (subMod (s * s) (x1 + x2) curveP : ZMod curveP) =
      secpCurve.addX a1 a2 (secpCurve.slope a1 a2 b1 b2) := by
    rw [subMod_cast _ _ curveP_pos]
    push_cast
    rw [hs, hx1, hx2]
    simp only [WeierstrassCurve.Affine.addX, secpCurve]
    ring
  refine ⟨subMod_lt _ _ curveP_pos, subMod_lt _ _ curveP_pos, hX, ?_⟩
  rw [subMod_cast _ _ curveP_pos, Nat.cast_mul, subMod_cast _ _ curveP_pos, hX, hs, hx1, hy1]
  simp only [WeierstrassCurve.Affine.addY, WeierstrassCurve.Affine.negAddY, WeierstrassCurve.Affine.negY, secpCurve]
  ring

/-- The model's group law is the group's addition (spec/41_curve.md R145). -/
theorem Represents.add {p q : Point} {A B : secpCurve.Point} (hp : Represents p A) (hq : Represents q B) :
    Represents (ptAdd p q) (A + B) := by
  cases p with
  | inf =>
    cases A with
    | zero => simpa [ptAdd, ← WeierstrassCurve.Affine.Point.zero_def] using hq
    | some a b h => exact hp.elim
  | fin x1 y1 =>
    cases A with
    | zero => exact hp.elim
    | some a1 b1 h1 =>
    cases q with
    | inf =>
      cases B with
      | zero => simpa [ptAdd, ← WeierstrassCurve.Affine.Point.zero_def] using hp
      | some a b h => exact hq.elim
    | fin x2 y2 =>
      cases B with
      | zero => exact hq.elim
      | some a2 b2 h2 =>
      obtain ⟨hx1, hy1, hxa1, hyb1⟩ := hp
      obtain ⟨hx2, hy2, hxa2, hyb2⟩ := hq
      by_cases hx : x1 = x2
      · subst hx
        have ha : a1 = a2 := hxa1.symm.trans hxa2
        by_cases hy : y1 = y2
        · subst hy
          have hb : b1 = b2 := hyb1.symm.trans hyb2
          by_cases h0 : y1 = 0
          · subst h0
            have hb1 : b1 = 0 := by rw [← hyb1, Nat.cast_zero]
            have hb2 : b2 = 0 := by rw [← hyb2, Nat.cast_zero]
            rw [WeierstrassCurve.Affine.Point.add_of_Y_eq ha (by rw [secpCurve_negY, hb1, hb2, neg_zero])]
            simp [ptAdd, represents_inf]
          · have hb1 : b1 ≠ 0 := by rw [← hyb1]; exact natCast_ne_zero_of_lt h0 hy1
            have h2ne : (2 : ZMod curveP) ≠ 0 := by
              exact_mod_cast natCast_ne_zero_of_lt (n := 2) (by decide) (by decide)
            have hne : b1 ≠ secpCurve.negY a2 b2 := by
              rw [secpCurve_negY, ← hb]
              intro he
              have : 2 * b1 = 0 := by linear_combination he
              exact (mul_ne_zero h2ne hb1) this
            rw [WeierstrassCurve.Affine.Point.add_of_Y_ne hne]
            have hlaw : ptAdd (.fin x1 y1) (.fin x1 y1) =
                thirdPoint (divMod (3 * (x1 * x1)) (2 * y1) curveP) x1 x1 y1 := by
              simp [ptAdd, h0]
            rw [hlaw]
            refine represents_thirdPoint hxa1 hxa2 hyb1 ?_ _
            have hd : ((2 * y1 : ℕ) : ZMod curveP) ≠ 0 := by
              push_cast
              rw [hyb1]
              exact mul_ne_zero h2ne hb1
            rw [divMod_cast_curve hd, WeierstrassCurve.Affine.slope_of_Y_ne ha hne]
            push_cast
            rw [hxa1, hyb1, secpCurve_negY]
            simp only [secpCurve]
            congr 1 <;> ring
        · have hnb : ¬ b1 = b2 := fun he => hy (natCast_inj_of_lt hy1 hy2 (by rw [hyb1, hyb2, he]))
          have hneg : b1 = secpCurve.negY a2 b2 := by
            rcases WeierstrassCurve.Affine.Y_eq_of_X_eq h1.1 h2.1 ha with h | h
            · exact absurd h hnb
            · exact h
          rw [WeierstrassCurve.Affine.Point.add_of_Y_eq ha hneg]
          simp [ptAdd, hy, represents_inf]
      · have hna : a1 ≠ a2 := fun he => hx (natCast_inj_of_lt hx1 hx2 (by rw [hxa1, hxa2, he]))
        rw [WeierstrassCurve.Affine.Point.add_of_X_ne hna]
        have hlaw : ptAdd (.fin x1 y1) (.fin x2 y2) =
            thirdPoint (divMod (subMod y2 y1 curveP) (subMod x2 x1 curveP) curveP) x1 x2 y1 := by
          simp [ptAdd, hx]
        rw [hlaw]
        refine represents_thirdPoint hxa1 hxa2 hyb1 ?_ _
        have hd : (subMod x2 x1 curveP : ZMod curveP) ≠ 0 := by
          rw [subMod_cast _ _ curveP_pos, hxa1, hxa2]
          exact sub_ne_zero.2 (Ne.symm hna)
        rw [divMod_cast_curve hd, subMod_cast _ _ curveP_pos, subMod_cast _ _ curveP_pos, hxa1, hxa2, hyb1, hyb2,
          WeierstrassCurve.Affine.slope_of_X_ne hna, ← neg_sub b1, ← neg_sub a1, neg_div_neg_eq]

/-- The double-and-add loop is the multiple in the group. -/
theorem represents_ptMulBits {n k : Nat} {r c : Point} {R C : secpCurve.Point} (hk : k < 2 ^ n)
    (hr : Represents r R) (hc : Represents c C) : Represents (ptMulBits n k r c) (R + k • C) := by
  induction n generalizing k r c R C with
  | zero =>
    have : k = 0 := by simpa using hk
    simpa [ptMulBits, this] using hr
  | succ n ih =>
    rw [ptMulBits]
    split
    · next h0 => simpa [h0] using hr
    · have hk2 : k / 2 < 2 ^ n := by rw [pow_succ] at hk; omega
      have hsplit : k • C = (k % 2) • C + (k / 2) • (C + C) := by
        conv_lhs => rw [← Nat.div_add_mod k 2]
        rw [add_smul, mul_comm, mul_smul, two_smul, add_comm]
      have hcc := hc.add hc
      by_cases h1 : k % 2 = 1
      · rw [if_pos h1, hsplit, h1, one_smul, ← add_assoc]
        exact ih hk2 (hr.add hc) hcc
      · rw [if_neg h1, hsplit, show k % 2 = 0 by omega, zero_nsmul, zero_add]
        exact ih hk2 hr hcc

/-- Scalar multiplication is the multiple in the group (spec/41_curve.md R147). -/
theorem Represents.mul {k : Nat} {p : Point} {A : secpCurve.Point} (hk : k < 2 ^ 256) (hp : Represents p A) :
    Represents (ptMul k p) (k • A) := by
  have h := represents_ptMulBits hk represents_inf hp
  rwa [zero_add] at h

end Field

end Sys2Proof.Machine
end

