-- ==== Sys2Proof/Laws/PerInstr.lean ====
section
/-! SUPPORT. One lemma for each command: its fields decode to it (spec/30_encoding.md R81, R85, R86). -/

namespace Sys2Proof.Laws.FieldsRoundTrip

/-- A well-formed command is what its own fields decode to. -/
def Statement (i : Instr) : Prop :=
  ∀ nonceEnabled : Bool, i.wf nonceEnabled = true → decodeFields nonceEnabled (encodeFields i) = .ok i

theorem fchk (a : VReg) (m : Modulus) : Statement (.fchk a m) := by
  intro en h
  simp [decodeFields, encodeFields, fieldCommand, isFieldOpcode, decodeFieldCommand, bind, Except.bind,
    pure, Except.pure]

theorem fadd (d a b : VReg) (m : Modulus) : Statement (.fadd d a b m) := by
  intro en h
  simp [decodeFields, encodeFields, fieldCommand, isFieldOpcode, decodeFieldCommand, bind, Except.bind]

theorem fsub (d a b : VReg) (m : Modulus) : Statement (.fsub d a b m) := by
  intro en h
  simp [decodeFields, encodeFields, fieldCommand, isFieldOpcode, decodeFieldCommand, bind, Except.bind]

theorem fmul (d a b : VReg) (m : Modulus) : Statement (.fmul d a b m) := by
  intro en h
  simp [decodeFields, encodeFields, fieldCommand, isFieldOpcode, decodeFieldCommand, bind, Except.bind]

theorem fdiv (d a b : VReg) (m : Modulus) : Statement (.fdiv d a b m) := by
  intro en h
  simp [decodeFields, encodeFields, fieldCommand, isFieldOpcode, decodeFieldCommand, bind, Except.bind]

theorem finv (d a : VReg) (m : Modulus) : Statement (.finv d a m) := by
  intro en h
  simp [decodeFields, encodeFields, fieldCommand, isFieldOpcode, decodeFieldCommand, bind, Except.bind,
    pure, Except.pure]

theorem fpow (neg : Bool) (d a e : VReg) (m : Modulus) : Statement (.fpow neg d a e m) := by
  intro en h
  cases neg <;>
    simp [decodeFields, encodeFields, fieldCommand, isFieldOpcode, decodeFieldCommand, bind, Except.bind]

theorem fsqrt (d a : VReg) (m : Modulus) : Statement (.fsqrt d a m) := by
  intro en h
  simp [decodeFields, encodeFields, fieldCommand, isFieldOpcode, decodeFieldCommand, bind, Except.bind,
    pure, Except.pure]

theorem pset (d : PReg) (x y : VReg) : Statement (.pset d x y) := by
  intro en h
  simp [decodeFields, encodeFields, pointCommand, isFieldOpcode, decodePointCommand, bind, Except.bind,
    pure, Except.pure]

theorem pinf (d : PReg) : Statement (.pinf d) := by
  intro en h
  simp [decodeFields, encodeFields, pointCommand, isFieldOpcode, decodePointCommand, bind, Except.bind,
    pure, Except.pure]

theorem pgen (d : PReg) : Statement (.pgen d) := by
  intro en h
  simp [decodeFields, encodeFields, pointCommand, isFieldOpcode, decodePointCommand, bind, Except.bind,
    pure, Except.pure]

theorem padd (d p q : PReg) : Statement (.padd d p q) := by
  intro en h
  simp [decodeFields, encodeFields, pointCommand, isFieldOpcode, decodePointCommand, bind, Except.bind,
    pure, Except.pure]

theorem pmul (d p : PReg) (k : VReg) : Statement (.pmul d p k) := by
  intro en h
  simp [decodeFields, encodeFields, pointCommand, isFieldOpcode, decodePointCommand, bind, Except.bind,
    pure, Except.pure]

theorem pgetx (d : VReg) (p : PReg) : Statement (.pgetx d p) := by
  intro en h
  simp [decodeFields, encodeFields, pointCommand, isFieldOpcode, decodePointCommand, bind, Except.bind,
    pure, Except.pure]

theorem pgety (d : VReg) (p : PReg) : Statement (.pgety d p) := by
  intro en h
  simp [decodeFields, encodeFields, pointCommand, isFieldOpcode, decodePointCommand, bind, Except.bind,
    pure, Except.pure]

theorem kpub (d : PReg) (k : VReg) : Statement (.kpub d k) := by
  intro en h
  simp [decodeFields, encodeFields, pointCommand, isFieldOpcode, decodePointCommand, bind, Except.bind,
    pure, Except.pure]

theorem nonce (k d z : VReg) : Statement (.nonce k d z) := by
  intro en h
  have hen : en = true := h
  simp [hen, decodeFields, encodeFields, pointCommand, isFieldOpcode, decodePointCommand, bind, Except.bind,
    pure, Except.pure]

theorem sign (r d z s : VReg) : Statement (.sign r d z s) := by
  intro en h
  have hne : (encodeData r != encodeData s) = true := by
    revert h; revert r s; simp only [Instr.wf]; decide
  simp [hne, decodeFields, encodeFields, pointCommand, isFieldOpcode, decodePointCommand, bind, Except.bind,
    pure, Except.pure]

theorem verify (q : PReg) (z r s : VReg) : Statement (.verify q z r s) := by
  intro en h
  simp [decodeFields, encodeFields, pointCommand, isFieldOpcode, decodePointCommand, bind, Except.bind,
    pure, Except.pure]

end Sys2Proof.Laws.FieldsRoundTrip
end

