-- ==== Sys2Proof/Laws/Words.lean ====
section
/-! SUPPORT. The words of a 256-bit register (spec/20_memory.md R54) and the address map (R51, R53). -/

namespace Sys2Proof.Machine

/-- Bit `n` of a word of a register (R54). -/
theorem getLsbD_wordAt (x : U256) (j : Fin 8) (n : Nat) :
    (wordAt x j).getLsbD n = (decide (n < 32) && x.getLsbD (wordShift j + n)) := by
  simp [wordAt, BitVec.getLsbD_extractLsb']

/-- Bit `n` of a register after a write of word `j`: the word's bits where it lies, the old bits elsewhere (R54). -/
theorem getLsbD_setWordAt (x : U256) (j : Fin 8) (w : Word) {n : Nat} (hn : n < 256) :
    (setWordAt x j w).getLsbD n =
      if wordShift j ≤ n ∧ n < wordShift j + 32 then w.getLsbD (n - wordShift j) else x.getLsbD n := by
  have hmask : (0xFFFFFFFF#256) = (BitVec.allOnes 32).setWidth 256 := by decide
  simp only [setWordAt, hmask, BitVec.getLsbD_or, BitVec.getLsbD_and, BitVec.getLsbD_not, BitVec.getLsbD_shiftLeft,
    BitVec.getLsbD_setWidth, BitVec.getLsbD_allOnes]
  by_cases h1 : wordShift j ≤ n
  · by_cases h2 : n < wordShift j + 32
    · have : n - wordShift j < 32 := by omega
      have h256 : n - wordShift j < 256 := by omega
      simp [h1, h2, hn, h256, this, Nat.not_lt.2 h1]
    · have : ¬ n - wordShift j < 32 := by omega
      have hw : w.getLsbD (n - wordShift j) = false := BitVec.getLsbD_of_ge _ _ (by omega)
      simp [h1, h2, hn, this, hw]
  · have h3 : n < wordShift j := by omega
    simp [h1, hn, h3]

@[simp] theorem wordAt_setWordAt_same (x : U256) (j : Fin 8) (w : Word) : wordAt (setWordAt x j w) j = w := by
  ext n hn
  have hs : wordShift j + n < 256 := by have := j.isLt; simp only [wordShift]; omega
  rw [← BitVec.getLsbD_eq_getElem, getLsbD_wordAt, getLsbD_setWordAt _ _ _ hs]
  simp [hn]

theorem wordAt_setWordAt_ne (x : U256) {j k : Fin 8} (w : Word) (hjk : j ≠ k) :
    wordAt (setWordAt x j w) k = wordAt x k := by
  ext n hn
  have hj := j.isLt
  have hk := k.isLt
  have hne : j.val ≠ k.val := fun h => hjk (Fin.ext h)
  have hs : wordShift k + n < 256 := by simp only [wordShift]; omega
  rw [← BitVec.getLsbD_eq_getElem, ← BitVec.getLsbD_eq_getElem, getLsbD_wordAt, getLsbD_wordAt, getLsbD_setWordAt _ _ _ hs]
  have : ¬ (wordShift j ≤ wordShift k + n ∧ wordShift k + n < wordShift j + 32) := by
    simp only [wordShift]; omega
  simp [this]

/-- Two registers with the same eight words are the same. -/
theorem eq_of_wordAt_eq {x y : U256} (h : ∀ j, wordAt x j = wordAt y j) : x = y := by
  apply BitVec.eq_of_getLsbD_eq
  intro n hn
  have hj : 7 - n / 32 < 8 := by omega
  have hb : (wordAt x ⟨7 - n / 32, hj⟩).getLsbD (n % 32) = (wordAt y ⟨7 - n / 32, hj⟩).getLsbD (n % 32) := by
    rw [h]
  have hs : wordShift ⟨7 - n / 32, hj⟩ + n % 32 = n := by simp only [wordShift]; omega
  have hlt : decide (n % 32 < 32) = true := by simp; omega
  rw [getLsbD_wordAt, getLsbD_wordAt, hs, hlt] at hb
  exact hb

theorem windowOffset_base_add {base off : Nat} (h : off < windowSize) : windowOffset base (base + off) = some off := by
  simp [windowOffset, h]

theorem windowOffset_eq_some {base addr off : Nat} :
    windowOffset base addr = some off ↔ addr = base + off ∧ off < windowSize := by
  simp only [windowOffset]
  split <;> simp <;> omega

theorem targetOffset_lt (t : Target) : targetOffset t < windowSize := by
  cases t <;> simp only [targetOffset, windowSize] <;> omega

theorem targetOffset_aligned (t : Target) : targetOffset t % 4 = 0 := by
  cases t <;> simp only [targetOffset] <;> omega

/-- What a host access does to the parts of the state that are not the CORE's (one lemma for every access). -/
theorem busWrite_surroundings (s : State) (off size : Nat) (w : Word) :
    (busWrite s off size w).1.cfg = s.cfg ∧ (busWrite s off size w).1.turns = s.turns ∧
      (busWrite s off size w).1.replies = s.replies := by
  unfold busWrite
  split
  · exact ⟨rfl, rfl, rfl⟩
  · split
    · exact ⟨rfl, rfl, rfl⟩
    · next t _ =>
      split
      · cases t with
        | ctrl => rw [show storeTarget s .ctrl w = writeCtrl s w from rfl, writeCtrl]; split <;> exact ⟨rfl, rfl, rfl⟩
        | status => rw [show storeTarget s .status w = writeStatus s w from rfl, writeStatus]; split <;> exact ⟨rfl, rfl, rfl⟩
        | id | errcode | cmd | data | pointX | pointY | pointTag => exact ⟨rfl, rfl, rfl⟩
      · exact ⟨rfl, rfl, rfl⟩

end Sys2Proof.Machine
end

