-- ==== Sys2Proof/Laws/Steps.lean ====
section
/-! SUPPORT. One lemma for each agent's move: what a command's completion, the engine's turn, a host access and a step can
do. Statements about steps cite these and unfold no more. -/

namespace Sys2Proof.Machine

/-! ### Completion -/

/-- What kind of result a command can complete with (spec/30_encoding.md R86, spec/60_exceptions.md R205). -/
def Result.fits (i : Instr) : Result → Prop
  | .none => i.isVerify = false
  | .data d _ => d ∈ i.dataDests ∧ i.isVerify = false
  | .point d _ => d ∈ i.pointDests ∧ i.isVerify = false
  | .signature dr _ ds _ => dr ∈ i.dataDests ∧ ds ∈ i.dataDests ∧ i.isVerify = false
  | .verdict _ => i.isVerify = true

/-- Every command completes, with an error code or with a result that fits it. -/
theorem exec_completes (i : Instr) (s : State) :
    ∃ r, exec i s = .next (completeState s r) ∧ ∀ x, r = .ok x → x.fits i := by
  cases i
  all_goals
    refine ⟨_, rfl, ?_⟩
    intro x
    simp only [bind, Except.bind, pure, Except.pure]
    repeat' split
    all_goals first | (intro h; cases h; done) | skip
    all_goals
      intro h
      have := Except.ok.inj h
      subst this
      simp [Result.fits, Instr.dataDests, Instr.pointDests, Instr.isVerify]

theorem completeState_completed (s : State) (r : Except ErrCode Result) : Completed (completeState s r) := by
  cases r <;> exact ⟨rfl, rfl, rfl⟩

theorem completeState_surroundings (s : State) (r : Except ErrCode Result) : SameSurroundings s (completeState s r) := by
  cases r with
  | error e => exact ⟨rfl, rfl, rfl, rfl, rfl⟩
  | ok r => cases r <;> exact ⟨rfl, rfl, rfl, rfl, rfl⟩

/-- An error code is recorded and nothing else is written (spec/60_exceptions.md R204). -/
theorem completeState_of_errcode {s : State} {r : Except ErrCode Result} (h : (completeState s r).errcode ≠ 0) :
    completeState s r = finish s (completeState s r).errcode := by
  cases r with
  | error e => rfl
  | ok r => exact absurd rfl h

/-- Every word completes, also one that is no command (spec/30_encoding.md R84). -/
theorem runCommand_completes (s : State) (c : Word) : ∃ r, runCommand s c = .next (completeState s r) := by
  unfold runCommand
  split
  · next i _ =>
    obtain ⟨r, hr, _⟩ := exec_completes i s
    exact ⟨r, hr⟩
  · exact ⟨.error .illegalCommand, rfl⟩

/-! ### Turns -/

theorem step_of_no_turn {s : State} (h : s.turns = []) : step s = engineTurn s := by simp [step, takeTurn, h]

theorem step_of_engine {s : State} {rest : List Turn} (h : s.turns = .engine :: rest) :
    step s = engineTurn { s with turns := rest } := by simp [step, takeTurn, h]

theorem step_of_access {s : State} {a : BusAccess} {rest : List Turn} (h : s.turns = .access a :: rest) :
    step s = .next (hostAccess { s with turns := rest } a) := by simp [step, takeTurn, h]

theorem step_of_powerOnReset {s : State} {rest : List Turn} (h : s.turns = .powerOnReset :: rest) :
    step s = .next (resetCore { s with turns := rest }) := by simp [step, takeTurn, h]

theorem engineTurn_idle {s : State} (h : s.phase = .idle) : engineTurn s = .next s := by simp [engineTurn, h]

theorem engineTurn_busy {s : State} {c : Word} (h : s.phase = .busy c) : engineTurn s = runCommand s c := by
  simp [engineTurn, h]

/-- The engine is next to move, by its own turn or because no turn is left (assumption 1). -/
theorem step_of_engine_next {s : State} {rest : List Turn}
    (h : (s.turns = [] ∧ rest = []) ∨ s.turns = .engine :: rest) : step s = engineTurn { s with turns := rest } := by
  rcases h with ⟨h, rfl⟩ | h
  · rw [step_of_no_turn h, ← h]
  · exact step_of_engine h

/-- The engine's step completes the running word (spec/10_state.md R35). -/
theorem step_completes {s : State} {c : Word} {rest : List Turn} (hp : s.phase = .busy c)
    (h : (s.turns = [] ∧ rest = []) ∨ s.turns = .engine :: rest) :
    ∃ r, step s = .next (completeState { s with turns := rest } r) := by
  obtain ⟨r, hr⟩ := runCommand_completes { s with turns := rest } c
  exact ⟨r, by rw [step_of_engine_next h, engineTurn_busy (s := { s with turns := rest }) hp, hr]⟩

/-! ### Host accesses -/

/-- CTRL is at offset 4 alone (spec/20_memory.md R53). -/
theorem target_eq_ctrl {off : Nat} (h : target off = some .ctrl) : off = 0x004 := by
  simp only [target, controlTarget, pointTarget] at h
  repeat' split at h
  all_goals first | omega | cases h

/-- CMD is at offset 16 alone (spec/20_memory.md R53). -/
theorem target_eq_cmd {off : Nat} (h : target off = some .cmd) : off = 0x010 := by
  simp only [target, controlTarget, pointTarget] at h
  repeat' split at h
  all_goals first | omega | cases h

/-- A host write in the window is `BusWrite` at its offset, and its reply is recorded (spec/20_memory.md R51, R52). -/
theorem hostAccess_write (s : State) {off : Nat} (h : off < windowSize) (size : Nat) (w : Word) :
    hostAccess s { addr := s.cfg.base + off, size := size, kind := .write w } =
      pushReply (busWrite s off size w).1 (busWrite s off size w).2 := by
  have : windowOffset s.cfg.base (s.cfg.base + off) = some off := by simp [windowOffset, h]
  simp only [hostAccess, this]

/-- A host access either changes nothing but the replies, or is an accepted aligned word write to a target. -/
theorem hostAccess_cases (s : State) (a : BusAccess) :
    (∃ r, hostAccess s a = pushReply s r) ∨
    ∃ off t w, target off = some t ∧ a = { addr := s.cfg.base + off, size := 4, kind := .write w } ∧
      writeAccepted s t = true ∧ hostAccess s a = pushReply (storeTarget s t w) .ok := by
  unfold hostAccess
  cases ho : windowOffset s.cfg.base a.addr with
  | none => exact .inl ⟨_, rfl⟩
  | some off =>
    obtain ⟨addr, size, kind⟩ := a
    cases kind with
    | read => exact .inl ⟨_, rfl⟩
    | write w =>
      simp only [busWrite]
      by_cases hs : size = 4
      · cases ht : target off with
        | none => simp only [hs, ne_eq, not_true_eq_false, if_false]; exact .inl ⟨_, rfl⟩
        | some t =>
          cases ha : writeAccepted s t with
          | false => simp only [hs, ne_eq, not_true_eq_false, if_false, ha]; exact .inl ⟨_, rfl⟩
          | true =>
            have haddr : addr = s.cfg.base + off := (windowOffset_eq_some.1 ho).1
            exact .inr ⟨off, t, w, ht, by rw [hs, haddr], ha, by simp [hs, ha]⟩
      · simp only [ne_eq, hs, not_false_eq_true, if_true]; exact .inl ⟨_, rfl⟩

/-- Bit `n` of the word STATUS reads (spec/10_state.md R27). -/
theorem getLsbD_flagBit (b : Bool) {k : Nat} (hk : k < 32) (n : Nat) :
    (flagBit b k).getLsbD n = (b && n == k) := by
  rw [flagBit, BitVec.getLsbD_shiftLeft, BitVec.getLsbD_setWidth, BitVec.getLsbD_ofBool]
  by_cases h : n = k
  · subst h; simp [hk]
  · have e : (n == k) = false := by simpa using h
    rw [e]
    by_cases hn : n < k
    · simp [hn]
    · have : n - k ≠ 0 := by omega
      simp [this]

end Sys2Proof.Machine
end

