-- ==== Sys2Proof/Machine/HostNotation.lean ====
section
/-! DEFINITION. The host program notation of spec/30_encoding.md R94 as lists of turns. It is the host's, not the CORE's:
no meaning uses it. `wait` is one turn of the engine and one read of STATUS. -/

namespace Sys2Proof.Machine

/-- A 32-bit write to a window register, the window at `base`. -/
def hostWrite (base : Nat) (t : Target) (w : Word) : Turn :=
  .access { addr := base + targetOffset t, size := 4, kind := .write w }

/-- A 32-bit read of a window register. -/
def hostRead (base : Nat) (t : Target) : Turn :=
  .access { addr := base + targetOffset t, size := 4, kind := .read }

/-- `li vI, x`: eight writes, most significant word first. -/
def hostLi (base : Nat) (i : VReg) (x : U256) : List Turn :=
  (List.finRange 8).map fun j => hostWrite base (.data i j) (wordAt x j)

/-- `lip prI, x, y`: the two coordinates, then TAG <- 0. -/
def hostLip (base : Nat) (i : PReg) (x y : U256) : List Turn :=
  ((List.finRange 8).map fun j => hostWrite base (.pointX i j) (wordAt x j))
    ++ ((List.finRange 8).map fun j => hostWrite base (.pointY i j) (wordAt y j))
    ++ [hostWrite base (.pointTag i) 0]

/-- `cmd <command>`. -/
def hostCmd (base : Nat) (i : Instr) : List Turn := [hostWrite base .cmd (encode i)]

/-- `wait`. -/
def hostWait (base : Nat) : List Turn := [.engine, hostRead base .status]

/-- `rd vI`. -/
def hostRd (base : Nat) (i : VReg) : List Turn :=
  (List.finRange 8).map fun j => hostRead base (.data i j)

end Sys2Proof.Machine
end

