-- ==== Sys2Proof/Tests/Slice0.lean ====
section
/-! SUPPORT. The model's own tests: ill-formed commands, decoding of words written out from spec/30_encoding.md, at most two
one-command tests per command with expected values from spec/95_test_vectors.md (the vector's id stands with the test) or
worked out by hand from the rules, and for each obligation with hypotheses states and operands that meet them. -/

namespace Sys2Proof.Tests

open Sys2Proof.Machine Sys2Proof.Expected

-- One theorem after the other: kernel evaluations that wait for one another would each hold a thread.
set_option Elab.async false

/-! ### Helpers -/

/-- The reset state with some registers loaded. -/
def start (vs : List (VReg × Nat)) (ps : List (PReg × Point)) : State :=
  ps.foldl (fun s p => writePR s p.1 (PointReg.ofPoint p.2))
    (vs.foldl (fun s p => writeV s p.1 (BitVec.ofNat 256 p.2)) State.reset)

/-- The state after the command word `w` was placed and one step was taken. -/
def ran (w : Nat) (s : State) : Option State :=
  match step (s.withFetchWord 32 w) with
  | .next t => some t
  | .fault _ | .refused _ => none

/-- A data register and ERRCODE after the command word `w`. -/
def dataAfter (w : Nat) (s : State) (r : VReg) : Option (Nat × Byte) := (ran w s).map fun t => (valV t r, t.errcode)

/-- A point register and ERRCODE after the command word `w`. -/
def pointAfter (w : Nat) (s : State) (r : PReg) : Option (Point × Byte) := (ran w s).map fun t => (valP t r, t.errcode)

/-- An HMAC unit that answers every transaction with the number `k`. -/
def constantUnit (k : Nat) : HmacUnit := .table [] (i2osp32 k)

/-- `s` with an HMAC unit that answers `k`. -/
def withUnit (s : State) (k : Nat) : State := { s with cfg := { s.cfg with hmac := constantUnit k } }

/-- `s` while the command word `w` runs, with the turns `ts` to come. -/
def running (s : State) (w : Word) (ts : List Turn) : State := { accept s w with turns := ts }

/-- G, 2G, -G and a point off the curve (spec/95_test_vectors.md section 0). -/
def pointG : Point := .fin genX genY
def pointTwoG : Point :=
  .fin 0xC6047F9441ED7D6D3045406E95C07CD85C778E4B8CEF3CA7ABAC09B95C709EE5
    0x1AE168FEA63DC339A3C58419466CEAEEF7F632653266D0E1236431A950CFE52A
def pointMinusG : Point := .fin genX 0xB7C52588D95C3B9AA25B0403F1EEF75702E84BB7597AABE663B82F6F04EF2777
def pointOff : Point := .fin 1 1
def pointWide : Point := .fin curveP genY

/-! ### Ill-formed commands -/

theorem test_wf_refuses_sign_with_one_destination : (Instr.sign 2 0 1 2).wf true = false := by decide

theorem test_wf_refuses_disabled_nonce : (Instr.nonce 2 0 1).wf false = false := by decide

theorem test_wf_accepts : (Instr.sign 2 0 1 3).wf true = true ∧ (Instr.nonce 2 0 1).wf true = true := by decide

/-! ### Decoding words written out from spec/30_encoding.md R81, R85, R86 (ids of spec/95_test_vectors.md section 2) -/

-- 0b0000000_0_0100_0000_0010_0000_00_000001: F41
theorem test_decode_fchk : decode true 0x00402001 = .ok (.fchk 2 (.reg 4)) := by decide
theorem test_decode_fadd : decode true 0x00432102 = .ok (.fadd 1 2 3 (.reg 4)) := by decide
theorem test_decode_fsub : decode true 0x00032143 = .ok (.fsub 1 2 3 .prime) := by decide
theorem test_decode_fmul : decode true 0x00065544 = .ok (.fmul 5 5 6 .prime) := by decide
theorem test_decode_fdiv : decode true 0x00432105 = .ok (.fdiv 1 2 3 (.reg 4)) := by decide
theorem test_decode_finv : decode true 0x00002186 = .ok (.finv 1 2 .order) := by decide
theorem test_decode_fpow : decode true 0x00032187 = .ok (.fpow false 1 2 3 .order) := by decide
theorem test_decode_fpow_neg : decode true 0x01321007 = .ok (.fpow true 0 1 2 (.reg 3)) := by decide
theorem test_decode_fsqrt : decode true 0x00002148 = .ok (.fsqrt 1 2 .prime) := by decide
theorem test_decode_pset : decode true 0x00021110 = .ok (.pset 1 1 2) := by decide
theorem test_decode_pinf : decode true 0x00000311 = .ok (.pinf 3) := by decide
-- 0b0000000_0_0000_0000_0000_0000_00_010010: C1
theorem test_decode_pgen : decode true 0x00000012 = .ok (.pgen 0) := by decide
theorem test_decode_padd : decode true 0x00010213 = .ok (.padd 2 0 1) := by decide
theorem test_decode_pmul : decode true 0x00020114 = .ok (.pmul 1 0 2) := by decide
theorem test_decode_pgetx : decode true 0x00000115 = .ok (.pgetx 1 0) := by decide
theorem test_decode_pgety : decode true 0x00000116 = .ok (.pgety 1 0) := by decide
-- 0b0000000_0_0000_0000_0001_0000_00_100000: S1
theorem test_decode_kpub : decode true 0x00001020 = .ok (.kpub 0 1) := by decide
theorem test_decode_nonce : decode true 0x00010221 = .ok (.nonce 2 0 1) := by decide
theorem test_decode_sign : decode true 0x00310222 = .ok (.sign 2 0 1 3) := by decide
theorem test_decode_verify : decode true 0x00321023 = .ok (.verify 0 1 2 3) := by decide

/-- The words D1 to D17 are rejected, each by the name of a condition of R84 that it breaks. -/
theorem test_decode_rejects :
    decode true 0x00000000 = .error .reservedOpcode ∧ decode true 0x00000009 = .error .reservedOpcode ∧
    decode true 0x0000003F = .error .reservedOpcode ∧ decode true 0x02432102 = .error .reservedBits ∧
    decode true 0x80432102 = .error .reservedBits ∧ decode true 0x000321C2 = .error .reservedMsel ∧
    decode true 0x00000052 = .error .mselNotField ∧ decode true 0x01432102 = .error .negNotFpow ∧
    decode true 0x00432142 = .error .fieldNotZero ∧ decode true 0x00452106 = .error .fieldNotZero ∧
    decode true 0x00001011 = .error .fieldNotZero ∧ decode true 0x00010813 = .error .pointIndex ∧
    decode true 0x00029114 = .error .pointIndex ∧ decode true 0x00210222 = .error .signSameDest ∧
    decode true 0x00402101 = .error .fieldNotZero ∧ decode true 0x00321823 = .error .pointIndex ∧
    decode true 0x024321C2 = .error .reservedBits ∧ decode false 0x00010221 = .error .nonceDisabled := by decide

theorem test_decodeTableWord : decodeTableWord 32 0x00000012 = some (.pgen 0) ∧ decodeTableWord 32 0 = none := by decide

/-- The spellings of R92 are spellings of FMUL, PADD and FSUB. -/
theorem test_pseudo : pseudoFsq 1 2 .prime = .fmul 1 2 2 .prime ∧ pseudoPdbl 1 2 = .padd 1 2 2 ∧
    pseudoFneg 1 2 3 .prime = .fsub 1 3 2 .prime ∧ asm (.fpow true 0 1 2 (.reg 3)) = "fpow.neg v0, v1, v2, v3" := by decide

/-! ### One command each (spec/95_test_vectors.md sections 2.1 to 2.3) -/

-- F41, F43
theorem test_fchk : dataAfter 0x00402001 (start [(2, 12), (4, 13)] []) 2 = some (12, 0x00) ∧
    dataAfter 0x00002081 (start [(2, orderN)] []) 2 = some (orderN, 0x01) := by decide +kernel
-- F1, F3
theorem test_fadd : dataAfter 0x00432102 (start [(2, 7), (3, 12), (4, 13)] []) 1 = some (6, 0x00) := by decide +kernel
theorem test_fadd_carry : dataAfter 0x00032142 (start [(2, curveP - 1), (3, curveP - 1)] []) 1 =
    some (curveP - 2, 0x00) := by decide +kernel
-- F11, F13
theorem test_fsub : dataAfter 0x00432103 (start [(2, 6), (3, 12), (4, 13)] []) 1 = some (7, 0x00) := by decide +kernel
theorem test_fsub_negation : dataAfter 0x00032143 (start [(2, 0), (3, 1)] []) 1 =
    some (curveP - 1, 0x00) := by decide +kernel
-- F18, F17
theorem test_fmul_wide : dataAfter 0x00432104 (start [(2, 2 ^ 255), (3, 2 ^ 255), (4, 2 ^ 256 - 1)] []) 1 =
    some (2 ^ 254, 0x00) := by decide +kernel
theorem test_fmul_even : dataAfter 0x00432104 (start [(2, 7), (3, 5), (4, 12)] []) 1 = some (11, 0x00) := by decide +kernel
-- F19, F21
theorem test_fdiv : dataAfter 0x00432105 (start [(2, 2), (3, 7), (4, 19)] []) 1 = some (3, 0x00) := by decide +kernel
theorem test_fdiv_range_first : dataAfter 0x00432105 (start [(2, 20), (3, 0), (4, 19)] []) 1 =
    some (0, 0x01) := by decide +kernel
-- F26, F23
theorem test_finv_composite : dataAfter 0x00402106 (start [(2, 6), (4, 15)] []) 1 = some (6, 0x00) := by decide +kernel
theorem test_finv_zero : dataAfter 0x00402106 (start [(2, 0), (4, 13)] []) 1 = some (0, 0x03) := by decide +kernel
-- F29, F31
theorem test_fpow_neg : dataAfter 0x01432107 (start [(2, 7), (3, 15), (4, 13)] []) 1 = some (8, 0x00) := by decide +kernel
theorem test_fpow_zero : dataAfter 0x00432107 (start [(2, 0), (3, 0), (4, 13)] []) 1 = some (1, 0x00) := by decide +kernel
-- F38, F39
theorem test_fsqrt_unchecked : dataAfter 0x00402108 (start [(2, 5), (4, 223)] []) 1 = some (202, 0x00) := by decide +kernel
theorem test_fsqrt_modulus : dataAfter 0x00402108 (start [(2, 4), (4, 13)] []) 1 = some (0, 0x11) := by decide +kernel
-- C3, C7
theorem test_pset : pointAfter 0x00021110 (start [(1, genX), (2, genY)] []) 1 = some (pointG, 0x00) := by decide +kernel
theorem test_pset_zero : pointAfter 0x00021110 (start [] []) 1 = some (.inf, 0x04) := by decide +kernel
-- C2
theorem test_pinf : (ran 0x00000311 (start [] [(3, pointG)])).map (fun t => (readPR t 3, t.errcode)) =
    some ({ inf := true, x := 0, y := 0 }, 0x00) := by decide +kernel
-- C1
theorem test_pgen : pointAfter 0x00000012 (start [] []) 0 = some (pointG, 0x00) := by decide +kernel
-- C8, C11
theorem test_padd_doubles : pointAfter 0x00010213 (start [] [(0, pointG), (1, pointG)]) 2 =
    some (pointTwoG, 0x00) := by decide +kernel
theorem test_padd_negation : pointAfter 0x00010213 (start [] [(0, pointG), (1, pointMinusG), (2, pointG)]) 2 =
    some (.inf, 0x00) := by decide +kernel
-- C19, C25
theorem test_pmul : pointAfter 0x00020114 (start [(2, 3)] [(0, pointG)]) 1 =
    some (.fin 0xF9308A019258C31049344F85F89D5229B531C845836F99B08601F113BCE036F9
      0x388F7B0F632DE8140FE337E62A37F3566500A99934C2231B6CB9FD7584B8E672, 0x00) := by decide +kernel
theorem test_pmul_invalid : pointAfter 0x00020114 (start [(2, 0)] [(0, pointOff)]) 1 = some (.inf, 0x04) := by
  decide +kernel
-- C26, C28
theorem test_pgetx : dataAfter 0x00000115 (start [] [(0, pointG)]) 1 = some (genX, 0x00) ∧
    dataAfter 0x00000115 (start [] []) 1 = some (0, 0x12) := by decide +kernel
-- C27, C29
theorem test_pgety : dataAfter 0x00000116 (start [] [(0, pointG)]) 1 = some (genY, 0x00) ∧
    dataAfter 0x00000116 (start [] [(0, pointOff)]) 1 = some (0, 0x04) := by decide +kernel
-- S2, S5
theorem test_kpub : pointAfter 0x00001020 (start [(1, 2)] []) 0 = some (pointTwoG, 0x00) := by decide +kernel
theorem test_kpub_range : pointAfter 0x00001020 (start [(1, orderN)] []) 0 = some (.inf, 0x01) := by decide +kernel
-- S6: HMAC-SHA-256 is general knowledge (assumption 5)
theorem test_nonce : dataAfter 0x00010221
    (start [(0, 1), (1, 0x4AE7C3B6AC0BEFF671EFA8CF57386151C06E58CA53A78D83F36107316CEC125F)] []) 2 =
    some (0x8FC7795566C7334FAFE97624B655E2E4223988A150773243F75C4B5D9774F740, 0x00) := by decide +kernel
-- R175, with a unit whose every candidate is 0
theorem test_nonce_exhausted : dataAfter 0x00010221 (withUnit (start [(0, 1)] []) 0) 2 = some (0, 0x13) := by
  decide +kernel
-- R176 by hand for the nonce 1 and d = 1: r = Gx, s = z + Gx; z = 2^252 gives s > HALF_N, so N - s
theorem test_sign_low_s : (ran 0x00310222 (withUnit (start [(0, 1), (1, 2 ^ 252)] []) 1)).map
    (fun t => (valV t 2, valV t 3, t.errcode)) =
    some (genX, 0x7641998106234453AA5F9D6A3178F4F7B812E00B817A776265DFDD31B93E29A9, 0x00) := by decide +kernel
-- R178 by hand: z = N - Gx gives s = 0
theorem test_sign_degenerate : (ran 0x00310222 (withUnit (start [(0, 1), (1, orderN - genX)] []) 1)).map
    (fun t => (valV t 2, valV t 3, t.errcode)) = some (0, 0, 0x14) := by decide +kernel
-- R180 by hand: z = 0, r = s = Gx, Q = G give u = 0, v = 1, X = G; z = Gx gives u = 1, X = 2G
theorem test_verify : (ran 0x00321023 (start [(1, 0), (2, genX), (3, genX)] [(0, pointG)])).map
    (fun t => (t.valid, t.errcode)) = some (true, 0x00) := by decide +kernel
theorem test_verify_rejects : (ran 0x00321023 (start [(1, genX), (2, genX), (3, genX)] [(0, pointG)])).map
    (fun t => (t.valid, t.errcode)) = some (false, 0x00) := by decide +kernel

/-! ### The window (spec/95_test_vectors.md sections 2.5 to 2.7) -/

/-- Word order: the first word of V1 is at 0x120 (R54); TAG of PR0 is at 0x440 and reads 1 after reset (R42). -/
theorem test_word_order : (busWrite State.reset 0x120 4 0x11223344).1 = writeV State.reset 1 (0x11223344 <<< 224) ∧
    busRead State.reset 0x440 4 = .data 1 ∧ busRead State.reset 0x000 4 = .data 0x256B0001 := by decide +kernel

/-- STATUS after an illegal command is 0x6, and after a VERIFY that accepts 0xA. -/
theorem test_status : (ran 0x00000000 State.reset).map (busRead · 0x008 4) = some (.data 0x6) ∧
    (ran 0x00321023 (start [(2, genX), (3, genX)] [(0, pointG)])).map (busRead · 0x008 4) = some (.data 0xA) := by
  decide +kernel

/-- A word written to V while the engine runs is refused. -/
theorem test_busy_refuses : busWrite (running State.reset 0x00000012 []) 0x100 4 7 =
    (running State.reset 0x00000012 [], .busErr) := by decide +kernel

/-- The host notation of R94: `cmd pgen pr0`, `wait`, read from the window at its base. -/
theorem test_host_turns : hostCmd 0x1000 (.pgen 0) ++ hostWait 0x1000 =
    [.access { addr := 0x1010, size := 4, kind := .write 0x00000012 }, .engine,
      .access { addr := 0x1008, size := 4, kind := .read }] := by decide +kernel

/-! ### States and operands that meet the hypotheses of the obligations

One theorem for each obligation that has hypotheses, named after it; several clauses stand as the parts of one conjunction,
each at a boundary value of its range. -/

/-- The next state of an outcome. -/
def nextOf : Host.Outcome State Fault Refusal → Option State
  | .next t => some t
  | .fault _ | .refused _ => none

theorem next_exists {o : Host.Outcome State Fault Refusal} (h : (nextOf o).isSome = true) : ∃ t, o = .next t := by
  cases o with
  | next t => exact ⟨t, rfl⟩
  | fault r => cases h
  | refused r => cases h

theorem next_with {o : Host.Outcome State Fault Refusal} {p : State → Prop} [DecidablePred p]
    (h : (nextOf o).any (fun t => decide (p t)) = true) : ∃ t, o = .next t ∧ p t := by
  cases o with
  | next t => exact ⟨t, rfl, of_decide_eq_true h⟩
  | fault r => cases h
  | refused r => cases h

theorem engineNext_empty {s : State} (h : s.turns = []) : EngineNext s [] := .inl ⟨h, rfl⟩

theorem engineNext_engine {s : State} {rest : List Turn} (h : s.turns = .engine :: rest) : EngineNext s rest := .inr h

theorem validG : ValidPoint pointG := .inr ⟨genX, genY, rfl, by decide, by decide, by unfold CurveEq; decide +kernel⟩

theorem validMinusG : ValidPoint pointMinusG :=
  .inr ⟨_, _, rfl, by decide, by decide, by unfold CurveEq; decide +kernel⟩

theorem off_off : OffCurve pointOff := ⟨1, 1, rfl, by decide, by decide, by unfold CurveEq; decide +kernel⟩

theorem wide_wide : CoordinateTooLarge pointWide := ⟨curveP, genY, rfl, .inl (by decide)⟩

/-- A state that has just accepted a command meets the invariant. -/
theorem running_inv (s : State) (w : Word) (ts : List Turn) (h : 1 ≤ s.cfg.nonceMaxIter) : (running s w ts).Inv where
  busy_eq := rfl
  running := by intro c hc; cases hc; exact ⟨rfl, rfl, rfl, rfl⟩
  code_legal := by show (0 : Byte) ∈ legalCodes; decide
  valid_verify := by intro hv; cases hv
  iter_pos := h

theorem witness_DecodeOfEncodeIsTheCommand : (Instr.sign 15 15 15 0).wf true = true ∧
    (Instr.nonce 15 0 15).wf true = true ∧ (Instr.fpow true 15 15 15 (.reg 15)).wf false = true ∧
    (Instr.padd 7 7 7).wf false = true := by decide

theorem witness_DecodedWordIsItsEncoding : decode false 0x01FFFF07 = .ok (.fpow true 15 15 15 (.reg 15)) ∧
    decode true 0x00FFF723 = .ok (.verify 7 15 15 15) := by decide

theorem witness_MalformedWordsAreIllegalCommands :
    (running State.reset 0 []).phase = .busy 0 ∧ EngineNext (running State.reset 0 []) [] ∧
    EngineNext (running State.reset 0 [.engine, .powerOnReset]) [.powerOnReset] ∧
    (Malformed true 0x02432102 ∧ Malformed true 0x80432102 ∧ Malformed true 0x00000000 ∧
      Malformed true 0x0000003F ∧ Malformed true 0x000321C2 ∧ Malformed true 0x00000052 ∧
      Malformed true 0x01432102 ∧ Malformed true 0x00402101 ∧ Malformed true 0x00001011 ∧
      Malformed true 0x00452106 ∧ Malformed true 0x00900113 ∧ Malformed true 0x00432142 ∧
      Malformed true 0x00010813 ∧ Malformed true 0x00008113 ∧ Malformed true 0x00080113 ∧ Malformed true 0x00210222) ∧
    Malformed false 0x00010221 ∧
    (¬ Malformed true 0x00010221 ∧ ¬ Malformed true 0x01FFFF07 ∧ ¬ Malformed true 0x00077713 ∧
      ¬ Malformed true 0x00FFF723 ∧ ¬ Malformed true 0x00F0F001) := by
  refine ⟨rfl, engineNext_empty rfl, engineNext_engine rfl, ?_, ?_, ?_⟩
  · and_intros <;> (simp only [Malformed]; decide +kernel)
  · simp only [Malformed]; decide +kernel
  · and_intros <;> (simp only [Malformed]; decide +kernel)

theorem witness_EngineStepRunsTheDecodedCommand :
    (running State.reset 0x00000012 [.engine]).phase = .busy 0x00000012 ∧
    EngineNext (running State.reset 0x00000012 [.engine]) [] ∧
    decode (running State.reset 0x00000012 [.engine]).cfg.nonceCmdEnabled 0x00000012 = .ok (.pgen 0) :=
  ⟨rfl, engineNext_engine rfl, by decide⟩

/-- Accesses at the first and the last byte of the window. -/
theorem witness_NothingStopsTheCore :
    (running State.reset 0 []).phase = .busy 0 ∧ EngineNext (running State.reset 0 []) [] ∧
    (let a : BusAccess := { addr := 0, size := 4, kind := .read };
      (running State.reset 0 [.access a]).turns = [.access a] ∧ State.reset.cfg.base ≤ a.addr) ∧
    (let a : BusAccess := { addr := 0x7FF, size := 1, kind := .read };
      (running State.reset 0 [.access a]).turns = [.access a] ∧ a.addr < State.reset.cfg.base + 0x800) :=
  ⟨rfl, engineNext_empty rfl, ⟨rfl, by decide⟩, rfl, by decide⟩

/-- An access, an engine turn and a reset, each from a state that meets the invariant. -/
theorem witness_StepKeepsTheInvariant :
    (running State.reset 0x00000012 []).Inv ∧ (∃ t, step (running State.reset 0x00000012 []) = .next t) ∧
    (running State.reset 0 [.powerOnReset]).Inv ∧ (∃ t, step (running State.reset 0 [.powerOnReset]) = .next t) :=
  ⟨running_inv _ _ _ (by decide), next_exists (by decide +kernel), running_inv _ _ _ (by decide),
    next_exists (by decide +kernel)⟩

/-- Both outcomes: a refused write to CMD, and a soft reset. -/
theorem witness_RunningCommandIsUndisturbed :
    (let s := running State.reset 0x12 [.access { addr := 0x010, size := 4, kind := .write 0x11 }];
      s.phase = .busy 0x12 ∧ s.turns = [.access { addr := 0x010, size := 4, kind := .write 0x11 }] ∧
        ∃ t, step s = .next t ∧ t.phase = .busy 0x12) ∧
    (let s := running State.reset 0x12 [.access { addr := 0x004, size := 4, kind := .write 0x2 }];
      s.phase = .busy 0x12 ∧ ∃ t, step s = .next t ∧ t.phase = .idle) :=
  ⟨⟨rfl, rfl, next_with (by decide +kernel)⟩, rfl, next_with (by decide +kernel)⟩

theorem witness_ResetGivesTheResetValues :
    (running State.reset 0x12 [.powerOnReset]).turns = .powerOnReset :: [] ∧ (0x2 : Word).getLsbD 1 = true :=
  ⟨rfl, by decide⟩

theorem witness_SoftResetAbandonsTheCommand : (0x3 : Word).getLsbD 1 = true ∧
    EngineNext (busWrite (running State.reset 0x12 [.engine]) 0x004 4 0x3).1 [] :=
  ⟨by decide, engineNext_engine (by decide +kernel)⟩

/-- Idle and busy, the first and last word of V, of PR and the edges of the gaps. -/
theorem witness_AccessRulesByPhase : State.reset.phase = .idle ∧ (running State.reset 0x12 []).phase = .busy 0x12 ∧
    0x2FC = 0x100 + 0x20 * (15 : VReg).val + 4 * (7 : Fin 8).val ∧
    0x7C0 = 0x400 + 0x80 * (7 : PReg).val + 4 * (16 : Fin 17).val ∧
    (∀ off ∈ [0x014, 0x0FF, 0x300, 0x3FF, 0x444, 0x47F, 0x7C4, 0x7FF], Unmapped off) ∧
    ¬ (0x004 = 0x004 ∧ (0x1 : Word).getLsbD 1 = true) := by
  refine ⟨rfl, rfl, by decide, by decide, ?_, by decide⟩
  simp only [Unmapped]; decide

theorem witness_BusErrorChangesNothing :
    let s := running State.reset 0x12 [.access { addr := 0x100, size := 4, kind := .read }];
    s.turns = [.access { addr := 0x100, size := 4, kind := .read }] ∧
      ∃ t, step s = .next t ∧ t.replies = s.replies ++ [.busErr] :=
  ⟨rfl, next_with (by decide +kernel)⟩

theorem witness_OnlyAlignedWordAccesses : (0x101 % 4 ≠ 0 ∨ 4 ≠ 4) ∧ (0x100 % 4 ≠ 0 ∨ 8 ≠ 4) := by decide

theorem witness_AddressMapIsExact : target 0x7C0 = some (.pointTag 7) ∧ target 0x100 = some (.data 0 0) ∧
    (0x7FC < 0x800 ∧ 0x7FC % 4 = 0) := by decide

theorem witness_DataRegisterWords : State.reset.phase = .idle := rfl
theorem witness_PointRegisterWords : State.reset.phase = .idle := rfl
theorem witness_BigEndianLoad : State.reset.phase = .idle := rfl

/-- Just below, at both ends of, and just above a window at 0x1000. -/
theorem witness_HostTurnIsOneAccess :
    let s (addr : Nat) (k : AccessKind) : State := { State.reset with
      cfg := { Config.default with base := 0x1000 }, turns := [.access { addr := addr, size := 4, kind := k }] };
    (s 0xFFF .read).turns = [.access { addr := 0xFFF, size := 4, kind := .read }] ∧ 0xFFF < (s 0xFFF .read).cfg.base ∧
      (s 0x1800 .read).cfg.base + 0x800 ≤ 0x1800 ∧ 0x1000 = (s 0x1000 .read).cfg.base + 0 ∧
      0x17FF = (s 0x17FF (.write 1)).cfg.base + 0x7FF := by
  exact ⟨rfl, by decide, by decide, rfl, rfl⟩

theorem witness_CmdWriteAcceptsEveryWord : State.reset.phase = .idle ∧ (running State.reset 0x12 []).phase = .busy 0x12 ∧
    decode State.reset.cfg.nonceCmdEnabled 0xFFFFFFFF = .error .reservedBits ∧ EngineNext State.reset [] :=
  ⟨rfl, rfl, by decide, engineNext_empty rfl⟩

theorem witness_CtrlReadsAndWrites : (0x1 : Word).getLsbD 1 = false ∧ (0x3 : Word).getLsbD 1 = true := by decide

/-- The four events that change BUSY: each clause's hypotheses, and a changing step for each case of the last clause. -/
theorem witness_BusyChangesOnlyAsStated :
    (let s := { State.reset with turns := [.access { addr := 0x010, size := 4, kind := .write 0 }] };
      s.phase = .idle ∧ s.turns = .access { addr := s.cfg.base + 0x010, size := 4, kind := .write 0 } :: [] ∧
        ∃ t, step s = .next t ∧ t.busy ≠ s.busy) ∧
    (let s := running State.reset 0 [.engine];
      s.phase = .busy 0 ∧ EngineNext s [] ∧ ∃ t, step s = .next t ∧ t.busy ≠ s.busy) ∧
    (let s := running State.reset 0 [.powerOnReset];
      s.turns = .powerOnReset :: [] ∧ ∃ t, step s = .next t ∧ t.busy ≠ s.busy) ∧
    (let s := running State.reset 0 [.access { addr := 0x004, size := 4, kind := .write 2 }];
      (2 : Word).getLsbD 1 = true ∧
        s.turns = .access { addr := s.cfg.base + 0x004, size := 4, kind := .write 2 } :: [] ∧
        ∃ t, step s = .next t ∧ t.busy ≠ s.busy) :=
  ⟨⟨rfl, rfl, next_with (by decide +kernel)⟩, ⟨rfl, .inr rfl, next_with (by decide +kernel)⟩,
    ⟨rfl, next_with (by decide +kernel)⟩, by decide, rfl, next_with (by decide +kernel)⟩

theorem witness_DoneIsSetAndClearedAsStated : State.reset.phase = .idle ∧ (running State.reset 0 []).phase = .busy 0 ∧
    EngineNext (running State.reset 0 []) [] ∧ (∃ t, step (running State.reset 0 []) = .next t) ∧
    (0x2 : Word).getLsbD 1 = true ∧ (0xFFFFFFFD : Word).getLsbD 1 = false ∧
    (running State.reset 0 [.powerOnReset]).turns = .powerOnReset :: [] ∧
    (∃ t, step (running State.reset 0 [.powerOnReset]) = .next t) :=
  ⟨rfl, rfl, engineNext_empty rfl, next_exists (by decide +kernel), by decide, by decide, rfl,
    next_exists (by decide +kernel)⟩

/-- An accepting VERIFY, and a command that is none. -/
theorem witness_ValidIsWrittenOnlyByVerify :
    State.reset.phase = .idle ∧
    (∃ t, exec (.pgen 0) State.reset = .next t ∧ ¬ ((Instr.pgen 0).isVerify = true ∧ t.errcode = 0)) ∧
    (let s := running (start [(2, genX), (3, genX)] [(0, pointG)]) 0x00321023 [];
      s.Inv ∧ s.phase = .busy 0x00321023 ∧ EngineNext s [] ∧ ∃ t, step s = .next t ∧ t.valid = true) ∧
    (∃ t, exec (.verify 0 1 2 3) (start [(2, genX), (3, genX)] [(0, pointG)]) = .next t ∧ t.errcode = 0) :=
  ⟨rfl, next_with (by decide +kernel),
    ⟨running_inv _ _ _ (by decide +kernel), rfl, engineNext_empty rfl, next_with (by decide +kernel)⟩,
    next_with (by decide +kernel)⟩

theorem witness_IrqIsALevel : (running State.reset 0 []).phase = .busy 0 ∧ EngineNext (running State.reset 0 []) [] ∧
    (∃ t, step (running State.reset 0 []) = .next t) ∧ (0x2 : Word).getLsbD 1 = true ∧ State.reset.phase = .idle ∧
    (running State.reset 0 [.powerOnReset]).turns = .powerOnReset :: [] ∧
    (∃ t, step (running State.reset 0 [.powerOnReset]) = .next t) :=
  ⟨rfl, engineNext_empty rfl, next_exists (by decide +kernel), by decide, rfl, rfl,
    next_exists (by decide +kernel)⟩

theorem witness_ErrorsArePrecise :
    (∃ t, exec (.pgetx 0 0) State.reset = .next t ∧ t.errcode ≠ 0) ∧
    (let s := running State.reset 0 [];
      s.phase = .busy 0 ∧ EngineNext s [] ∧ s.Inv ∧ ∃ t, step s = .next t ∧ t.errcode ≠ 0) :=
  ⟨next_with (by decide +kernel), rfl, engineNext_empty rfl, running_inv _ _ _ (by decide),
    next_with (by decide +kernel)⟩

/-- A command with a data destination, one with a point destination and VERIFY; registers that are none of them. -/
theorem witness_CommandsWriteOnlyTheirDestinations :
    (∃ t, exec (.fadd 1 2 3 .prime) State.reset = .next t) ∧ (0 : VReg) ∉ (Instr.fadd 1 2 3 .prime).dataDests ∧
    (∃ t, exec (.pgen 7) State.reset = .next t) ∧ (0 : PReg) ∉ (Instr.pgen 7).pointDests ∧
    (Instr.pgen 7).isVerify = false := by
  exact ⟨next_exists (by decide +kernel), by decide, next_exists (by decide +kernel), by decide, by decide⟩

/-- Two different states that agree on the sources of a command that succeeds: X and Y of an infinite point and every
other register may differ. -/
theorem witness_ResultsDependOnSourcesOnly :
    let i : Instr := .pmul 1 0 2;
    let s := start [(2, 5), (3, 1)] [];
    let u := writePR (start [(2, 5)] []) 0 { inf := true, x := 7, y := 7 };
    s ≠ u ∧ (∀ r ∈ dataSources i, readV s r = readV u r) ∧
      (∀ p ∈ pointSources i, (readPR s p).value = (readPR u p).value) ∧ s.cfg.hmac = u.cfg.hmac ∧
      s.cfg.nonceMaxIter = u.cfg.nonceMaxIter ∧ ∃ t, exec i s = .next t ∧ t.errcode = 0 := by
  exact ⟨by decide +kernel, by decide +kernel, by decide +kernel, by decide +kernel, by decide +kernel,
    next_with (by decide +kernel)⟩

theorem witness_CommandsRaiseOnlyTheirCodes : ∃ t, exec (.sign 0 0 0 1) State.reset = .next t ∧ t.errcode = 0x01 :=
  next_with (by decide +kernel)

/-- The least modulus and the greatest operand below it; a modulus of 1 and of 0; an operand equal to the modulus. -/
theorem witness_FchkChecksTheRange :
    (let s := start [(1, 1), (2, 2)] [];
      2 ≤ modulusValue s (.reg 2) ∧ valV s 1 < modulusValue s (.reg 2)) ∧
    (let s := start [(2, 1)] [];
      modulusValue s (.reg 2) < 2 ∧ modulusValue s (.reg 3) < 2) ∧
    (let s := start [(1, curveP)] [];
      2 ≤ modulusValue s .prime ∧ modulusValue s .prime ≤ valV s 1) := by decide +kernel

/-- The same for two operands, of which the one or the other may be too large; a zero divisor below the modulus. -/
theorem two_operands :
    (let s := start [(1, 2 ^ 256 - 2), (2, 2 ^ 256 - 1)] [];
      2 ≤ modulusValue s (.reg 2) ∧ valV s 1 < modulusValue s (.reg 2) ∧ valV s 0 < modulusValue s (.reg 2) ∧
        valV s 1 ≠ 0 ∧ valV s 0 = 0) ∧
    (let s := start [(2, 1)] [];
      modulusValue s (.reg 2) < 2) ∧
    (let s := start [(1, orderN)] [];
      2 ≤ modulusValue s .order ∧ modulusValue s .order ≤ valV s 1 ∧ valV s 0 < modulusValue s .order) := by
  decide +kernel

theorem witness_FaddWritesTheSum :
    (let s := start [(1, 2 ^ 256 - 2), (2, 2 ^ 256 - 1)] [];
      2 ≤ modulusValue s (.reg 2) ∧ valV s 1 < modulusValue s (.reg 2)) ∧ modulusValue (start [(2, 1)] []) (.reg 2) < 2 ∧
    modulusValue (start [(1, orderN)] []) .order ≤ valV (start [(1, orderN)] []) 1 := by decide +kernel

theorem witness_FsubWritesTheDifference :
    (let s := start [(1, 2 ^ 256 - 2), (2, 2 ^ 256 - 1)] [];
      2 ≤ modulusValue s (.reg 2) ∧ valV s 0 < modulusValue s (.reg 2) ∧ valV s 1 < modulusValue s (.reg 2)) ∧
    modulusValue (start [(2, 1)] []) (.reg 2) < 2 ∧
    modulusValue (start [(1, orderN)] []) .order ≤ valV (start [(1, orderN)] []) 1 :=
  ⟨⟨two_operands.1.1, two_operands.1.2.2.1, two_operands.1.2.1⟩, two_operands.2.1, two_operands.2.2.2.1⟩

theorem witness_FmulWritesTheProduct :
    (let s := start [(1, 2 ^ 256 - 2), (2, 2 ^ 256 - 1)] [];
      2 ≤ modulusValue s (.reg 2) ∧ valV s 1 < modulusValue s (.reg 2)) ∧ modulusValue (start [(2, 1)] []) (.reg 2) < 2 ∧
    modulusValue (start [(1, orderN)] []) .order ≤ valV (start [(1, orderN)] []) 1 :=
  ⟨⟨two_operands.1.1, two_operands.1.2.1⟩, two_operands.2.1, two_operands.2.2.2.1⟩

theorem witness_FinvWritesTheFermatPower :
    (let s := start [(1, 2 ^ 256 - 2), (2, 2 ^ 256 - 1)] [];
      2 ≤ modulusValue s (.reg 2) ∧ valV s 1 < modulusValue s (.reg 2) ∧ valV s 1 ≠ 0 ∧ valV s 0 = 0) ∧
    modulusValue (start [(2, 1)] []) (.reg 2) < 2 ∧
    modulusValue (start [(1, orderN)] []) .order ≤ valV (start [(1, orderN)] []) 1 :=
  ⟨⟨two_operands.1.1, two_operands.1.2.1, two_operands.1.2.2.2.1, two_operands.1.2.2.2.2⟩, two_operands.2.1,
    two_operands.2.2.2.1⟩

theorem witness_FdivWritesTheQuotient :
    (let s := start [(1, 2 ^ 256 - 2), (2, 2 ^ 256 - 1)] [];
      2 ≤ modulusValue s (.reg 2) ∧ valV s 1 < modulusValue s (.reg 2) ∧ valV s 1 ≠ 0 ∧ valV s 0 = 0) ∧
    modulusValue (start [(2, 1)] []) (.reg 2) < 2 ∧
    modulusValue (start [(1, orderN)] []) .order ≤ valV (start [(1, orderN)] []) 1 :=
  witness_FinvWritesTheFermatPower

/-- The clauses on the exponent: 0, the greatest residue m - 1, and above it. -/
theorem witness_FpowWritesThePower :
    (let s := start [(1, 12), (2, 13), (3, 15)] [];
      2 ≤ modulusValue s (.reg 2) ∧ valV s 1 < modulusValue s (.reg 2) ∧ valV s 3 ≠ 0 ∧
        (0 < valV s 1 ∧ valV s 1 ≤ modulusValue s (.reg 2) - 1) ∧ ¬ valV s 0 ≠ 0) ∧
    modulusValue (start [(2, 1)] []) (.reg 2) < 2 ∧
    modulusValue (start [(1, orderN)] []) .order ≤ valV (start [(1, orderN)] []) 1 := by decide +kernel

/-- The least modulus 3 mod 4; moduli 2 and 1; an operand equal to P. -/
theorem witness_FsqrtWritesTheRootPower :
    (let s := start [(1, 2), (2, 3)] [];
      modulusValue s (.reg 2) % 4 = 3 ∧ valV s 1 < modulusValue s (.reg 2)) ∧
    (let s := start [(1, 1), (2, 2)] [];
      modulusValue s (.reg 1) < 2 ∧ modulusValue s (.reg 2) % 4 ≠ 3) ∧
    (let s := start [(1, curveP)] [];
      modulusValue s .prime % 4 = 3 ∧ modulusValue s .prime ≤ valV s 1) := by decide +kernel

theorem modulus_13 : modulusValue (start [(1, 12), (2, 13), (3, 1)] []) (.reg 2) = 13 := by decide +kernel

theorem witness_FieldLaws :
    let s := start [(1, 12), (2, 13), (3, 1)] [];
    (modulusValue s (.reg 2)).Prime ∧ 2 ≤ modulusValue s (.reg 2) ∧ valV s 1 < modulusValue s (.reg 2) ∧ 0 < valV s 1 ∧
      0 < valV s 3 ∧ valV s 3 < modulusValue s (.reg 2) ∧ (3 : VReg) ≠ 4 ∧ Modulus.reg 2 ≠ .reg 4 ∧
      valV s 1 = modulusValue s (.reg 2) - 1 := by
  refine ⟨?_, ?_⟩
  · rw [modulus_13]; norm_num
  · decide +kernel

/-- 2 is a square mod 7 and 3 is none. -/
theorem witness_FsqrtOfASquareIsARoot :
    let s := start [(1, 2), (2, 7), (3, 3)] [];
    (modulusValue s (.reg 2)).Prime ∧ modulusValue s (.reg 2) % 4 = 3 ∧ valV s 1 < modulusValue s (.reg 2) ∧
      (∃ x, x * x % modulusValue s (.reg 2) = valV s 1) ∧ valV s 3 < modulusValue s (.reg 2) ∧
      ¬ ∃ x, x * x % modulusValue s (.reg 2) = valV s 3 := by
  have hm : modulusValue (start [(1, 2), (2, 7), (3, 3)] []) (.reg 2) = 7 := by decide +kernel
  have h1 : valV (start [(1, 2), (2, 7), (3, 3)] []) 1 = 2 := by decide +kernel
  have h3 : valV (start [(1, 2), (2, 7), (3, 3)] []) 3 = 3 := by decide +kernel
  simp only [hm, h1, h3]
  refine ⟨by norm_num, by decide, by decide, ⟨3, by decide⟩, by decide, ?_⟩
  rintro ⟨x, hx⟩
  rw [Nat.mul_mod] at hx
  have hlt : x % 7 < 7 := Nat.mod_lt _ (by decide)
  revert hx
  generalize x % 7 = y at hlt
  revert hlt
  revert y
  decide

theorem witness_PsetBuildsAValidPoint :
    (let s := start [(1, genX), (2, genY)] [];
      valV s 1 < curveP ∧ valV s 2 < curveP ∧ CurveEq (valV s 1) (valV s 2)) ∧
    (let s := start [(1, curveP), (2, genY)] [];
      curveP ≤ valV s 1) ∧
    (let s := start [(1, curveP - 1), (2, 0)] [];
      valV s 1 < curveP ∧ valV s 2 < curveP ∧ ¬ CurveEq (valV s 1) (valV s 2)) := by
  simp only [CurveEq]; decide +kernel

/-- Valid operands; a wide and an off point as the first and as the second operand. -/
theorem witness_PaddWritesTheSum :
    (ValidPoint pointG ∧ valP (start [] [(0, pointG)]) 0 = pointG ∧ valP (start [] [(0, pointG)]) 1 = .inf ∧
      ValidPoint .inf) ∧
    (CoordinateTooLarge pointWide ∧ valP (start [] [(1, pointWide)]) 1 = pointWide) ∧
    (OffCurve pointOff ∧ valP (start [] [(1, pointOff)]) 1 = pointOff) :=
  ⟨⟨validG, by decide +kernel, by decide +kernel, .inl rfl⟩, ⟨wide_wide, by decide +kernel⟩, off_off, by decide +kernel⟩

theorem witness_PmulWritesTheMultiple :
    (ValidPoint pointG ∧ valP (start [] [(0, pointG)]) 0 = pointG) ∧
    (CoordinateTooLarge pointWide ∧ valP (start [] [(1, pointWide)]) 1 = pointWide) ∧
    (OffCurve pointOff ∧ valP (start [] [(1, pointOff)]) 1 = pointOff) :=
  ⟨⟨validG, by decide +kernel⟩, ⟨wide_wide, by decide +kernel⟩, off_off, by decide +kernel⟩

theorem witness_PgetReadsTheCoordinates :
    (valP (start [] [(0, pointG)]) 0 = .fin genX genY ∧ genX < curveP ∧ genY < curveP ∧ CurveEq genX genY) ∧
    valP State.reset 0 = .inf ∧
    (CoordinateTooLarge pointWide ∧ valP (start [] [(1, pointWide)]) 1 = pointWide) ∧
    (OffCurve pointOff ∧ valP (start [] [(1, pointOff)]) 1 = pointOff) := by
  refine ⟨?_, by decide +kernel, ⟨wide_wide, by decide +kernel⟩, off_off, by decide +kernel⟩
  simp only [CurveEq]; decide +kernel

theorem witness_GroupLawCases : (1 : Nat) ≠ 2 ∧ genY ≠ 0 := by decide

theorem witness_PointAdditionStaysOnTheCurve : ValidPoint pointG ∧ ValidPoint pointMinusG ∧ ValidPoint .inf ∧
    ∃ x y, ValidPoint (.fin x y) ∧ x ≠ genX := by
  refine ⟨validG, validMinusG, .inl rfl,
    0xC6047F9441ED7D6D3045406E95C07CD85C778E4B8CEF3CA7ABAC09B95C709EE5,
    0x1AE168FEA63DC339A3C58419466CEAEEF7F632653266D0E1236431A950CFE52A, ?_, by decide⟩
  exact .inr ⟨_, _, rfl, by decide, by decide, by unfold CurveEq; decide +kernel⟩

theorem witness_ScalarMultiplicationIsDoubleAndAdd : 2 ^ 256 - 1 < 2 ^ 256 ∧ ValidPoint pointG := ⟨by decide, validG⟩

theorem witness_ScalarMultiplicationLaws : ValidPoint pointG ∧ (2 ^ 255) + (2 ^ 255 - 1) < 2 ^ 256 ∧ orderN < 2 ^ 256 :=
  ⟨validG, by decide, by decide⟩

/-- The least and the greatest key; 0 and N. -/
theorem witness_KpubWritesThePublicKey :
    let s := start [(1, 1), (2, orderN - 1), (3, orderN)] [];
    (0 < valV s 1 ∧ valV s 1 < orderN) ∧ (0 < valV s 2 ∧ valV s 2 < orderN) ∧ valV s 0 = 0 ∧ orderN ≤ valV s 3 := by
  decide +kernel

/-- Units whose every answer is 1 and 0. -/
theorem witness_NonceWritesTheNonce :
    (let s := withUnit (start [(0, 1)] []) 1;
      0 < valV s 0 ∧ valV s 0 < orderN ∧ NonceIs s (valV s 0) (valV s 1) 1) ∧
    (let s := withUnit (start [(0, 1)] []) 0;
      0 < valV s 0 ∧ valV s 0 < orderN ∧ NonceFails s (valV s 0) (valV s 1)) ∧
    valV State.reset 0 = 0 ∧ orderN ≤ valV (start [(0, orderN)] []) 0 := by
  simp only [NonceIs, NonceFails]; decide +kernel

theorem rawS_one {k : Nat} (hk : k = 1) (d z r : Nat) : rawS k d z r = (z + r * d) % orderN := by
  have h1 : ∀ n, k ^ n % orderN = 1 := by
    intro n
    rw [hk, one_pow]
    decide
  rw [rawS, h1, one_mul]

theorem witness_SignWritesTheSignature :
    (let s := withUnit (start [(0, 1), (1, 2 ^ 252)] []) 1;
      (2 : VReg) ≠ 3 ∧ 0 < valV s 0 ∧ valV s 0 < orderN ∧ NonceIs s (valV s 0) (valV s 1) 1 ∧
        ptMul 1 (.fin genX genY) = .fin genX genY ∧ genX % orderN ≠ 0 ∧
        rawS 1 (valV s 0) (valV s 1) (genX % orderN) = 2 ^ 252 + genX) ∧
    (let s := withUnit (start [(0, 1), (1, orderN - genX)] []) 1;
      NonceIs s (valV s 0) (valV s 1) 1 ∧ valV s 1 + genX % orderN * valV s 0 = orderN) ∧
    (let s := withUnit (start [(0, 1)] []) 0;
      0 < valV s 0 ∧ valV s 0 < orderN ∧ NonceFails s (valV s 0) (valV s 1)) ∧
    orderN ≤ valV (start [(0, orderN)] []) 0 := by
  simp only [NonceIs, NonceFails, rawS_one rfl]
  decide +kernel

/-- SIGN with the nonce 1 completes without error. -/
theorem sign_succeeds : ∃ t, exec (.sign 2 0 1 3) (withUnit (start [(0, 1), (1, 2 ^ 252)] []) 1) = .next t ∧
    t.errcode = 0 := next_with (by decide +kernel)

theorem witness_SignaturesAreInRangeAndLowS : (2 : VReg) ≠ 3 ∧
    ∃ t, exec (.sign 2 0 1 3) (withUnit (start [(0, 1), (1, 2 ^ 252)] []) 1) = .next t ∧ t.errcode = 0 :=
  ⟨by decide, sign_succeeds⟩

/-- A key, a digest and a signature; the point at infinity as the key; an off and a wide point. -/
theorem witness_VerifyGivesTheVerdict :
    (ValidPoint pointG ∧ valP (start [(2, genX), (3, genX)] [(0, pointG)]) 0 = pointG) ∧
    (CoordinateTooLarge pointWide ∧ valP (start [] [(1, pointWide)]) 1 = pointWide) ∧
    (OffCurve pointOff ∧ valP (start [] [(1, pointOff)]) 1 = pointOff) :=
  ⟨⟨validG, by decide +kernel⟩, ⟨wide_wide, by decide +kernel⟩, off_off, by decide +kernel⟩

/-- r = N, s = 0, Q = Inf, and a sum that is infinite; a wide and an off point. -/
theorem witness_VerifyRejectsWithoutError :
    (let s := start [(2, orderN)] [(0, pointG)];
      ValidPoint pointG ∧ valP s 0 = pointG ∧ orderN ≤ valV s 2 ∧ valV s 3 = 0 ∧ valP s 1 = .inf) ∧
    ptAdd (ptMul 0 (.fin genX genY)) (ptMul 0 pointG) = .inf ∧
    (CoordinateTooLarge pointWide ∧ valP (start [] [(1, pointWide)]) 1 = pointWide) ∧
    (OffCurve pointOff ∧ valP (start [] [(1, pointOff)]) 1 = pointOff) :=
  ⟨⟨validG, by decide +kernel, by decide +kernel, by decide +kernel, by decide +kernel⟩, by decide +kernel,
    ⟨wide_wide, by decide +kernel⟩, off_off, by decide +kernel⟩

/-- The signature SIGN wrote, beside the digest, verified under G, the public key of 1. -/
theorem witness_SignedDigestVerifies :
    (2 : VReg) ≠ 3 ∧
    (∃ t, exec (.sign 2 0 1 3) (withUnit (start [(0, 1), (1, 2 ^ 252)] []) 1) = .next t ∧ (t.errcode = 0 ∧
      valP (writePR t 0 (PointReg.ofPoint pointG)) 0 =
        ptMul (valV (withUnit (start [(0, 1), (1, 2 ^ 252)] []) 1) 0) (.fin genX genY) ∧
      valV (writePR t 0 (PointReg.ofPoint pointG)) 1 = valV (withUnit (start [(0, 1), (1, 2 ^ 252)] []) 1) 1 ∧
      valV (writePR t 0 (PointReg.ofPoint pointG)) 2 = valV t 2 ∧
      valV (writePR t 0 (PointReg.ofPoint pointG)) 3 = valV t 3)) ∧
    (let s := start [(0, 1), (1, 5)] [];
      let u := start [(0, 1), (1, 5), (4, 9)] [];
      s ≠ u ∧ s.cfg = u.cfg ∧ valV s 0 = valV u 0 ∧ valV s 1 = valV u 1) :=
  ⟨by decide, next_with (by decide +kernel), by decide +kernel⟩

theorem witness_HighSVerifiesWhenLowSDoes :
    let s := start [(1, 0), (2, genX), (3, 1), (4, orderN - 1)] [(0, pointG)];
    1 < orderN ∧ valP s 0 = ptMul 1 (.fin genX genY) ∧ 0 < valV s 3 ∧ valV s 3 < orderN ∧
      valV s 4 = orderN - valV s 3 ∧ (∃ t, exec (.verify 0 1 2 3) s = .next t) ∧ ∃ u, exec (.verify 0 1 2 4) s = .next u :=
  ⟨by decide, by decide +kernel, by decide +kernel, by decide +kernel, by decide +kernel,
    next_exists (by decide +kernel), next_exists (by decide +kernel)⟩

end Sys2Proof.Tests
end

section
/-! The two statements of scope: nothing stops the CORE (spec/00_scope.md R19), and the results of a command depend on
its sources alone (R18). First what every step answers and every access is answered; then that the completion of a
command uses its sources only and writes all its destinations. -/

namespace Sys2Proof.Machine

open Sys2Proof.Expected

/-! ### Every step and every access is answered -/

theorem engineTurn_next (s : State) : ∃ t, engineTurn s = .next t := by
  cases h : s.phase with
  | idle => exact ⟨s, engineTurn_idle h⟩
  | busy c =>
    obtain ⟨r, hr⟩ := runCommand_completes s c
    exact ⟨_, (engineTurn_busy h).trans hr⟩

/-- No step faults or is refused (spec/00_scope.md R19). -/
theorem step_next (s : State) : ∃ t, step s = .next t := by
  cases h : s.turns with
  | nil => exact step_of_no_turn h ▸ engineTurn_next s
  | cons turn rest =>
    cases turn with
    | engine => exact step_of_engine h ▸ engineTurn_next _
    | access a => exact ⟨_, step_of_access h⟩
    | powerOnReset => exact ⟨_, step_of_powerOnReset h⟩

theorem busRead_ne_noResponse (s : State) (off size : Nat) : busRead s off size ≠ .noResponse := by
  unfold busRead
  repeat' split
  all_goals simp

theorem busWrite_ne_noResponse (s : State) (off size : Nat) (w : Word) :
    (busWrite s off size w).2 ≠ .noResponse := by
  unfold busWrite
  repeat' split
  all_goals simp

theorem windowOffset_eq_none {base addr : Nat} :
    windowOffset base addr = none ↔ ¬ (base ≤ addr ∧ addr < base + windowSize) := by
  simp [windowOffset]

/-- A host access is answered by one reply, in the window by a response (spec/20_memory.md R51, R52). -/
theorem hostAccess_replies (s : State) (a : BusAccess) :
    ∃ r, (hostAccess s a).replies = s.replies ++ [r] ∧
      (s.cfg.base ≤ a.addr ∧ a.addr < s.cfg.base + windowSize → r ≠ .noResponse) := by
  unfold hostAccess
  cases ho : windowOffset s.cfg.base a.addr with
  | none => exact ⟨.noResponse, rfl, fun hin => absurd hin (windowOffset_eq_none.1 ho)⟩
  | some off =>
    cases a.kind with
    | read => exact ⟨_, rfl, fun _ => busRead_ne_noResponse s off a.size⟩
    | write w =>
      obtain ⟨-, -, hreplies⟩ := busWrite_surroundings s off a.size w
      exact ⟨_, by rw [pushReply_replies, hreplies], fun _ => busWrite_ne_noResponse s off a.size w⟩

/-- Settles O6: the step's answer is read off its turn, and is the completion or the recorded reply. -/
theorem nothingStopsTheCore : Obligations.NothingStopsTheCore := by
  unfold Obligations.NothingStopsTheCore
  intro s
  obtain ⟨t, ht⟩ := step_next s
  refine ⟨t, ht, fun c rest hphase hnext => ?_, fun a rest hturns => ?_⟩
  · obtain ⟨r, hr⟩ := step_completes hphase hnext
    obtain rfl : t = _ := Host.Outcome.next.inj (ht.symm.trans hr)
    exact completeState_completed _ r
  · obtain rfl : t = _ := Host.Outcome.next.inj (ht.symm.trans (step_of_access hturns))
    exact hostAccess_replies { s with turns := rest } a

/-! ### Operands depend on their registers alone -/

theorem valV_congr {s u : State} {i : VReg} (h : readV s i = readV u i) : valV s i = valV u i :=
  congrArg BitVec.toNat h

theorem fieldOperand_congr {s u : State} {i : VReg} (h : readV s i = readV u i) (m : Nat) :
    fieldOperand s i m = fieldOperand u i m := by
  simp only [fieldOperand, valV_congr h]

theorem modulusValue_congr {s u : State} {m : Modulus} (h : ∀ r ∈ dataSources.modReg m, readV s r = readV u r) :
    modulusValue s m = modulusValue u m := by
  cases m with
  | reg d => exact valV_congr (h d (List.mem_singleton.2 rfl))
  | prime => rfl
  | order => rfl

theorem modulusOperand_congr {s u : State} {m : Modulus} (h : ∀ r ∈ dataSources.modReg m, readV s r = readV u r) :
    modulusOperand s m = modulusOperand u m := by
  simp only [modulusOperand, modulusValue_congr h]

theorem privateKey_congr {s u : State} {i : VReg} (h : readV s i = readV u i) : privateKey s i = privateKey u i := by
  simp only [privateKey, valV_congr h]

theorem pointOperand_congr {s u : State} {p : PReg} (h : (readPR s p).value = (readPR u p).value) :
    pointOperand s p = pointOperand u p :=
  congrArg checkPoint h

theorem nonceOperand_congr {s u : State} (hhmac : s.cfg.hmac = u.cfg.hmac)
    (hiter : s.cfg.nonceMaxIter = u.cfg.nonceMaxIter) (d z : Nat) : nonceOperand s d z = nonceOperand u d z := by
  simp only [nonceOperand, hhmac, hiter]

/-! ### A successful command writes every destination -/

/-- A result names exactly the destinations of a command. `Result.fits` asks only that it names no other. -/
def Result.Covers (i : Instr) : Result → Prop
  | .none => i.dataDests = [] ∧ i.pointDests = [] ∧ i.isVerify = false
  | .data d _ => i.dataDests = [d] ∧ i.pointDests = [] ∧ i.isVerify = false
  | .point d _ => i.dataDests = [] ∧ i.pointDests = [d] ∧ i.isVerify = false
  | .signature dr _ ds _ => i.dataDests = [dr, ds] ∧ i.pointDests = [] ∧ i.isVerify = false
  | .verdict _ => i.dataDests = [] ∧ i.pointDests = [] ∧ i.isVerify = true

/-- What a command computes is an error or a result that covers its destinations. -/
def CoversOnSuccess (i : Instr) (r : Except ErrCode Result) : Prop := ∀ x, r = .ok x → x.Covers i

theorem coversOnSuccess_pure {i : Instr} {x : Result} (h : x.Covers i) : CoversOnSuccess i (pure x) :=
  fun _ hx => Except.ok.inj hx ▸ h

theorem coversOnSuccess_bind {i : Instr} {α : Type} {x : Except ErrCode α} {f : α → Except ErrCode Result}
    (h : ∀ a, CoversOnSuccess i (f a)) : CoversOnSuccess i (x >>= f) := by
  intro y hy
  obtain ⟨a, -, ha⟩ := bind_eq_ok.1 hy
  exact h a y ha

/-- A result that covers a command's destinations leaves the same in them whatever the state it is written to. -/
theorem writeResult_dests_eq {i : Instr} {x : Result} (h : x.Covers i) (s u : State) :
    (∀ r ∈ i.dataDests, readV (writeResult s x) r = readV (writeResult u x) r) ∧
      (∀ p ∈ i.pointDests, readPR (writeResult s x) p = readPR (writeResult u x) p) ∧
      (i.isVerify = true → (writeResult s x).valid = (writeResult u x).valid) := by
  cases x with
  | none | data | point | verdict =>
    obtain ⟨hdata, hpoint, hverify⟩ := h
    simp [writeResult, hdata, hpoint, hverify]
  | signature dr r ds sv =>
    obtain ⟨hdata, hpoint, hverify⟩ := h
    by_cases hd : ds = dr <;> simp [writeResult, hdata, hpoint, hverify, hd]

/-! ### The completion of a command depends on its sources alone -/

/-- What a command reads is the same in both states (spec/00_scope.md R18). -/
structure SourcesAgree (i : Instr) (s u : State) : Prop where
  data : ∀ r ∈ dataSources i, readV s r = readV u r
  point : ∀ p ∈ pointSources i, (readPR s p).value = (readPR u p).value
  hmac : s.cfg.hmac = u.cfg.hmac
  iter : s.cfg.nonceMaxIter = u.cfg.nonceMaxIter

/-- Both states complete the command with the same error or result, and a result covers the destinations. -/
def CompletesAlike (i : Instr) (s u : State) : Prop :=
  ∃ r, exec i s = completion s r ∧ exec i u = completion u r ∧ CoversOnSuccess i r

theorem completesAlike_intro {i : Instr} {s u : State} {r : Except ErrCode Result} (hs : exec i s = completion s r)
    (sameResult : exec i u = completion u r) (covers : CoversOnSuccess i r) : CompletesAlike i s u :=
  ⟨r, hs, sameResult, covers⟩

/-- Each command's operands are the same in both states, so its chain of checks ends alike. -/
theorem exec_completesAlike {i : Instr} {s u : State} (h : SourcesAgree i s u) : CompletesAlike i s u := by
  obtain ⟨hdata, hpoint, hhmac, hiter⟩ := h
  cases i
  all_goals
    simp only [dataSources, pointSources, List.forall_mem_cons, List.not_mem_nil, false_implies,
      implies_true, and_true] at hdata hpoint
    apply completesAlike_intro rfl
  case fchk.sameResult a m | finv.sameResult _ a m | fsqrt.sameResult _ a m =>
    obtain ⟨ha, hm⟩ := hdata
    simp only [modulusOperand_congr hm, fieldOperand_congr ha]
    rfl
  case fadd.sameResult _ a b m | fsub.sameResult _ a b m | fmul.sameResult _ a b m | fdiv.sameResult _ a b m =>
    obtain ⟨ha, hb, hm⟩ := hdata
    simp only [modulusOperand_congr hm, fieldOperand_congr ha, fieldOperand_congr hb]
    rfl
  case fpow.sameResult _ _ a e m =>
    obtain ⟨ha, he, hm⟩ := hdata
    simp only [modulusOperand_congr hm, fieldOperand_congr ha, valV_congr he]
    rfl
  case pset.sameResult _ x y =>
    obtain ⟨hx, hy⟩ := hdata
    simp only [valV_congr hx, valV_congr hy]
    rfl
  case pinf.sameResult | pgen.sameResult => rfl
  case padd.sameResult _ p q =>
    obtain ⟨hp, hq⟩ := hpoint
    simp only [pointOperand_congr hp, pointOperand_congr hq]
    rfl
  case pmul.sameResult _ p k =>
    simp only [pointOperand_congr hpoint, valV_congr hdata]
    rfl
  case pgetx.sameResult _ p | pgety.sameResult _ p =>
    simp only [pointOperand_congr hpoint]
    rfl
  case kpub.sameResult _ k =>
    simp only [privateKey_congr hdata]
    rfl
  case nonce.sameResult _ d z | sign.sameResult _ d z _ =>
    obtain ⟨hd, hz⟩ := hdata
    simp only [privateKey_congr hd, valV_congr hz, nonceOperand_congr hhmac hiter]
    rfl
  case verify.sameResult q z r sReg =>
    obtain ⟨hz, hr, hsReg⟩ := hdata
    simp only [pointOperand_congr hpoint, valV_congr hz, valV_congr hr, valV_congr hsReg]
    rfl
  -- What is left is the `covers` goal of each command: past its checks it answers a result with its own destinations.
  all_goals
    repeat refine coversOnSuccess_bind fun _ => ?_
    exact coversOnSuccess_pure ⟨rfl, rfl, rfl⟩

/-- Settles O30: both states complete with one error or one result, and a result leaves the same in its destinations
whichever state it is written to. -/
theorem resultsDependOnSourcesOnly : Obligations.ResultsDependOnSourcesOnly := by
  unfold Obligations.ResultsDependOnSourcesOnly
  intro i s u hdata hpoint hhmac hiter
  obtain ⟨r, hs, hu, hcovers⟩ := exec_completesAlike ⟨hdata, hpoint, hhmac, hiter⟩
  refine ⟨completeState s r, completeState u r, hs, hu, ?_⟩
  cases r with
  | error e => exact ⟨rfl, fun hcode => absurd hcode (errNumber_ne_zero e)⟩
  | ok x => exact ⟨rfl, fun _ => writeResult_dests_eq (hcovers x rfl) s u⟩

end Sys2Proof.Machine
end

section
/-! The control and status registers and what moves their flags (spec/10_state.md R25 to R33, R42). First one rule for
an accepted read and an accepted write, and what each control register reads and how it is written; then the statements
on reset, STATUS, CTRL, BUSY, DONE and VALID. -/

namespace Sys2Proof.Machine

open Sys2Proof.Expected

/-! ### Accepted accesses (spec/20_memory.md R52, R55) -/

theorem readAccepted_of_control (s : State) {t : Target} (h : isOperandTarget t = false) : readAccepted s t = true := by
  simp [readAccepted, h]

theorem writeAccepted_of_control (s : State) {t : Target} (h : isOperandTarget t = false) (hcmd : t ≠ .cmd) :
    writeAccepted s t = true := by
  simp [writeAccepted, h, hcmd]

theorem writeAccepted_of_idle {s : State} (h : s.phase = .idle) (t : Target) : writeAccepted s t = true := by
  simp [writeAccepted, h, Phase.isBusy]

theorem idle_of_writeAccepted_cmd {s : State} (h : writeAccepted s .cmd = true) : s.phase = .idle := by
  cases hphase : s.phase with
  | idle => rfl
  | busy c => simp [writeAccepted, hphase, Phase.isBusy] at h

theorem busRead_of_accepted {s : State} {off : Nat} {t : Target} (htarget : target off = some t)
    (haccepted : readAccepted s t = true) : busRead s off 4 = .data (targetWord s t) := by
  simp [busRead, htarget, haccepted]

/-- A control register is read in either phase. -/
theorem busRead_of_control (s : State) {off : Nat} (t : Target) (htarget : target off = some t)
    (hcontrol : isOperandTarget t = false) : busRead s off 4 = .data (targetWord s t) :=
  busRead_of_accepted htarget (readAccepted_of_control s hcontrol)

theorem busWrite_of_accepted {s : State} {off : Nat} {t : Target} (htarget : target off = some t)
    (haccepted : writeAccepted s t = true) (w : Word) : busWrite s off 4 w = (storeTarget s t w, .ok) := by
  simp [busWrite, htarget, haccepted]

/-- A control register other than CMD is written in either phase. -/
theorem busWrite_of_control (s : State) {off : Nat} (t : Target) (htarget : target off = some t)
    (hcontrol : isOperandTarget t = false) (hcmd : t ≠ .cmd) (w : Word) :
    busWrite s off 4 w = (storeTarget s t w, .ok) :=
  busWrite_of_accepted htarget (writeAccepted_of_control s hcontrol hcmd) w

/-! ### Reads and writes of the control registers, in either phase (R53, R55) -/

theorem busRead_id (s : State) : busRead s 0x000 4 = .data idWord :=
  busRead_of_control s .id rfl rfl

theorem busRead_ctrl (s : State) : busRead s 0x004 4 = .data (ctrlWord s) :=
  busRead_of_control s .ctrl rfl rfl

theorem busRead_status (s : State) : busRead s 0x008 4 = .data (statusWord s) :=
  busRead_of_control s .status rfl rfl

theorem busRead_errcode (s : State) : busRead s 0x00C 4 = .data (errcodeWord s) :=
  busRead_of_control s .errcode rfl rfl

theorem busRead_cmd (s : State) : busRead s 0x010 4 = .data s.lastcmd :=
  busRead_of_control s .cmd rfl rfl

theorem busWrite_id (s : State) (w : Word) : busWrite s 0x000 4 w = (s, .ok) :=
  busWrite_of_control s .id rfl rfl (by decide) w

theorem busWrite_ctrl (s : State) (w : Word) : busWrite s 0x004 4 w = (writeCtrl s w, .ok) :=
  busWrite_of_control s .ctrl rfl rfl (by decide) w

theorem busWrite_status (s : State) (w : Word) : busWrite s 0x008 4 w = (writeStatus s w, .ok) :=
  busWrite_of_control s .status rfl rfl (by decide) w

theorem busWrite_errcode (s : State) (w : Word) : busWrite s 0x00C 4 w = (s, .ok) :=
  busWrite_of_control s .errcode rfl rfl (by decide) w

/-- A CMD write while idle is accepted, whatever the word (spec/30_encoding.md R80). -/
theorem busWrite_cmd_of_idle {s : State} (h : s.phase = .idle) (w : Word) : busWrite s 0x010 4 w = (accept s w, .ok) :=
  busWrite_of_accepted rfl (writeAccepted_of_idle h .cmd) w

theorem writeStatus_of_set {w : Word} (h : w.getLsbD 1 = true) (s : State) :
    writeStatus s w = { s with done := false } := if_pos h

theorem writeStatus_of_clear {w : Word} (h : w.getLsbD 1 = false) (s : State) : writeStatus s w = s := by
  rw [writeStatus, h]
  rfl

@[simp] theorem writeStatus_busy (s : State) (w : Word) : (writeStatus s w).busy = s.busy := by
  unfold writeStatus
  split <;> rfl

/-- A CTRL write with bit 1 set leaves nothing of its IE part (spec/70_reset_and_hazards.md R232). -/
theorem writeCtrl_of_set {w : Word} (h : w.getLsbD 1 = true) (s : State) : writeCtrl s w = resetCore s := if_pos h

theorem writeCtrl_of_clear {w : Word} (h : w.getLsbD 1 = false) (s : State) : writeCtrl s w = writeIe s w := by
  rw [writeCtrl, h]
  rfl

/-- A soft reset is accepted in either phase (R232). -/
theorem busWrite_ctrl_of_set {w : Word} (h : w.getLsbD 1 = true) (s : State) :
    busWrite s 0x004 4 w = (resetCore s, .ok) := by
  rw [busWrite_ctrl, writeCtrl_of_set h]

/-! ### The words of STATUS, ERRCODE and CTRL -/

theorem flagBit_zero (b : Bool) : flagBit b 0 = if b then 1 else 0 := by cases b <;> rfl

theorem errFlag_iff (s : State) : errFlag s = true ↔ s.errcode ≠ 0 := by simp [errFlag]

/-- The layout of STATUS (spec/10_state.md R27). -/
theorem getLsbD_statusWord (s : State) (n : Nat) : (statusWord s).getLsbD n =
    (s.busy && n == 0 || s.done && n == 1 || errFlag s && n == 2 || s.valid && n == 3) := by
  simp (disch := decide) only [statusWord, BitVec.getLsbD_or, getLsbD_flagBit]

theorem getLsbD_statusWord_of_ge {n : Nat} (h : 4 ≤ n) (s : State) : (statusWord s).getLsbD n = false := by
  simp [getLsbD_statusWord, show n ≠ 0 by omega, show n ≠ 1 by omega, show n ≠ 2 by omega, show n ≠ 3 by omega]

theorem toNat_errcodeWord (s : State) : (errcodeWord s).toNat = s.errcode.toNat :=
  BitVec.toNat_setWidth_of_le (by decide)

/-! ### Reset values (spec/10_state.md R42) -/

theorem resetValues_reset : ResetValues State.reset :=
  ⟨readV_reset, readPR_reset, rfl, rfl, rfl, rfl, rfl, rfl, rfl⟩

theorem resetValues_resetCore (s : State) : ResetValues (resetCore s) := resetValues_reset

theorem statusWord_resetCore (s : State) : statusWord (resetCore s) = 0 := by
  simp [statusWord, errFlag, flagBit, State.reset]

/-- Settles O11: all three resets are `resetCore`, which gives the reset state's registers and flags. -/
theorem resetGivesTheResetValues : Obligations.ResetGivesTheResetValues := by
  unfold Obligations.ResetGivesTheResetValues
  refine ⟨resetValues_reset, fun s rest hturns => ?_, fun s w hset => ?_⟩
  · exact ⟨_, step_of_powerOnReset hturns, resetValues_resetCore _, statusWord_resetCore _⟩
  · rw [busWrite_ctrl_of_set hset]
    exact resetValues_resetCore s

/-- Settles O22: each control register's read and write is its rule, and STATUS is read bit by bit. -/
theorem controlRegistersRead : Obligations.ControlRegistersRead := by
  unfold Obligations.ControlRegistersRead
  intro s w
  refine ⟨⟨statusWord s, busRead_status s, ?_, ?_, ?_, ?_, fun n hn => getLsbD_statusWord_of_ge hn s⟩, busRead_id s,
    busRead_cmd s, ⟨errcodeWord s, busRead_errcode s, toNat_errcodeWord s⟩, busWrite_id s w, busWrite_errcode s w⟩
  · rw [getLsbD_statusWord]
    simp
  · rw [getLsbD_statusWord]
    simp
  · rw [getLsbD_statusWord]
    simp [errFlag_iff]
  · rw [getLsbD_statusWord]
    simp

/-- Settles O23: bit 1 of the word decides between the IE write and the soft reset. -/
theorem ctrlReadsAndWrites : Obligations.CtrlReadsAndWrites := by
  unfold Obligations.CtrlReadsAndWrites
  intro s w
  refine ⟨?_, fun hclear => ?_, fun hset => ?_⟩
  · rw [busRead_ctrl, ctrlWord, flagBit_zero]
  · rw [busWrite_ctrl, writeCtrl_of_clear hclear, writeIe]
  · rw [busWrite_ctrl_of_set hset]
    exact ⟨rfl, resetValues_resetCore s⟩

/-! ### What a step does, by the agent that moves -/

/-- Every state's next turn is the engine's, a host access or a power-on reset. -/
theorem turns_cases (s : State) : (∃ rest, EngineNext s rest) ∨ (∃ a rest, s.turns = .access a :: rest) ∨
    ∃ rest, s.turns = .powerOnReset :: rest := by
  cases h : s.turns with
  | nil => exact .inl ⟨[], .inl ⟨h, rfl⟩⟩
  | cons turn rest =>
    cases turn with
    | access a => exact .inr (.inl ⟨a, rest, rfl⟩)
    | engine => exact .inl ⟨rest, .inr h⟩
    | powerOnReset => exact .inr (.inr ⟨rest, rfl⟩)

theorem step_of_engine_idle {s : State} {rest : List Turn} (hphase : s.phase = .idle) (hnext : EngineNext s rest) :
    step s = .next { s with turns := rest } :=
  (step_of_engine_next hnext).trans (engineTurn_idle hphase)

theorem step_of_engine_busy {s : State} {c : Word} {rest : List Turn} (hphase : s.phase = .busy c)
    (hnext : EngineNext s rest) : step s = runCommand { s with turns := rest } c :=
  (step_of_engine_next hnext).trans (engineTurn_busy hphase)

/-- A host write at an offset of the window is `busWrite` there, its reply recorded (spec/20_memory.md R51, R52). -/
theorem step_of_write {s : State} {off size : Nat} {w : Word} {rest : List Turn}
    (hturns : s.turns = .access { addr := s.cfg.base + off, size := size, kind := .write w } :: rest)
    (hoff : off < windowSize) : step s = .next
      (pushReply (busWrite { s with turns := rest } off size w).1 (busWrite { s with turns := rest } off size w).2) := by
  rw [step_of_access hturns]
  exact congrArg Host.Outcome.next (hostAccess_write { s with turns := rest } hoff size w)

/-- The engine's step of a running command is its completion (spec/10_state.md R35). -/
theorem completed_of_step {s t : State} {c : Word} {rest : List Turn} (hphase : s.phase = .busy c)
    (hnext : EngineNext s rest) (hstep : step s = .next t) : Completed t := by
  obtain ⟨r, hr⟩ := step_completes hphase hnext
  obtain rfl : t = _ := Host.Outcome.next.inj (hstep.symm.trans hr)
  exact completeState_completed _ r

/-! ### BUSY (spec/10_state.md R28) -/

/-- Of the accepted writes only CMD and a soft reset can change BUSY. -/
theorem storeTarget_busy_cases (s : State) (t : Target) (w : Word) :
    (storeTarget s t w).busy = s.busy ∨ t = .cmd ∨ t = .ctrl ∧ w.getLsbD 1 = true := by
  cases t with
  | cmd => exact .inr (.inl rfl)
  | ctrl =>
    cases hbit : w.getLsbD 1 with
    | true => exact .inr (.inr ⟨rfl, rfl⟩)
    | false =>
      left
      change (writeCtrl s w).busy = s.busy
      rw [writeCtrl_of_clear hbit, writeIe_busy]
  | status => exact .inl (writeStatus_busy s w)
  | id | errcode | data | pointX | pointY | pointTag => exact .inl rfl

/-- A host access that changes BUSY is an accepted CMD write or a soft reset. -/
theorem hostAccess_busy_cases {s : State} {a : BusAccess} (hne : (hostAccess s a).busy ≠ s.busy) :
    ∃ w, a = { addr := s.cfg.base + 0x010, size := 4, kind := .write w } ∧ s.phase = .idle ∨
      a = { addr := s.cfg.base + 0x004, size := 4, kind := .write w } ∧ w.getLsbD 1 = true := by
  obtain ⟨r, hr⟩ | ⟨off, t, w, htarget, ha, haccepted, hstore⟩ := hostAccess_cases s a
  · exact absurd (congrArg State.busy hr) hne
  · rw [hstore, pushReply_busy] at hne
    obtain hsame | rfl | ⟨rfl, hset⟩ := storeTarget_busy_cases s t w
    · exact absurd hsame hne
    · obtain rfl := target_eq_cmd htarget
      exact ⟨w, .inl ⟨ha, idle_of_writeAccepted_cmd haccepted⟩⟩
    · obtain rfl := target_eq_ctrl htarget
      exact ⟨w, .inr ⟨ha, hset⟩⟩

/-- An idle engine's step keeps BUSY (spec/60_exceptions.md R225), so an engine step that changes it completes a word. -/
theorem running_of_engine_changes_busy {s t : State} {rest : List Turn} (hnext : EngineNext s rest)
    (hstep : step s = .next t) (hne : t.busy ≠ s.busy) : ∃ c, s.phase = .busy c := by
  cases hphase : s.phase with
  | idle =>
    obtain rfl : t = _ := Host.Outcome.next.inj (hstep.symm.trans (step_of_engine_idle hphase hnext))
    exact absurd rfl hne
  | busy c => exact ⟨c, rfl⟩

/-- Settles O24: each event's step gives BUSY its value, and whichever agent moves, a change of BUSY is one of them. -/
theorem busyChangesOnlyAsStated : Obligations.BusyChangesOnlyAsStated := by
  unfold Obligations.BusyChangesOnlyAsStated
  refine ⟨fun s w rest hphase hturns => ?_, fun s c rest hphase hnext => ?_, fun s rest hturns => ?_,
    fun s w rest hset hturns => ?_, fun s t hstep hne => ?_⟩
  · refine ⟨_, step_of_write hturns (by decide), ?_⟩
    rw [pushReply_busy, busWrite_cmd_of_idle (s := { s with turns := rest }) hphase, accept_busy]
  · obtain ⟨t, ht⟩ := step_next s
    obtain ⟨-, hbusy, -⟩ := completed_of_step hphase hnext ht
    exact ⟨t, ht, hbusy⟩
  · exact ⟨_, step_of_powerOnReset hturns, rfl⟩
  · refine ⟨_, step_of_write hturns (by decide), ?_⟩
    rw [busWrite_ctrl_of_set hset]
    rfl
  · obtain ⟨rest, hnext⟩ | ⟨a, rest, hturns⟩ | hreset := turns_cases s
    · obtain ⟨c, hphase⟩ := running_of_engine_changes_busy hnext hstep hne
      exact .inr (.inl ⟨c, rest, hphase, hnext⟩)
    · obtain rfl : t = _ := Host.Outcome.next.inj (hstep.symm.trans (step_of_access hturns))
      obtain ⟨w, ⟨rfl, hphase⟩ | ⟨rfl, hset⟩⟩ := hostAccess_busy_cases (s := { s with turns := rest }) hne
      · exact .inl ⟨w, rest, hphase, hturns⟩
      · exact .inr (.inr (.inr ⟨w, rest, hset, hturns⟩))
    · exact .inr (.inr (.inl hreset))

/-! ### DONE (spec/10_state.md R29) -/

/-- Settles O25: each event is one rule of the layer above, read at DONE. -/
theorem doneIsSetAndClearedAsStated : Obligations.DoneIsSetAndClearedAsStated := by
  unfold Obligations.DoneIsSetAndClearedAsStated
  refine ⟨fun s w hphase => ?_, fun s t c rest hphase hnext hstep => ?_, fun s w hset => ?_, fun s w hclear => ?_,
    fun s w hset => ?_, fun s t rest hturns hstep => ?_⟩
  · rw [busWrite_cmd_of_idle hphase, accept_done]
  · obtain ⟨hdone, -, -⟩ := completed_of_step hphase hnext hstep
    exact hdone
  · rw [busWrite_status, writeStatus_of_set hset]
  · rw [busWrite_status, writeStatus_of_clear hclear]
  · rw [busWrite_ctrl_of_set hset]
    rfl
  · obtain rfl : t = _ := Host.Outcome.next.inj (hstep.symm.trans (step_of_powerOnReset hturns))
    rfl

/-! ### VALID (spec/10_state.md R31) -/

theorem runCommand_of_decode_ok {s : State} {c : Word} {i : Instr} (h : decode s.cfg.nonceCmdEnabled c = .ok i) :
    runCommand s c = exec i s := by simp [runCommand, h]

theorem runCommand_of_decode_error {s : State} {c : Word} {e : DecodeError}
    (h : decode s.cfg.nonceCmdEnabled c = .error e) : runCommand s c = .next (raiseError s .illegalCommand) := by
  simp [runCommand, h]

/-- A completion that changes VALID has a verdict for its result. -/
theorem verdict_of_completeState_changes_valid {s : State} {r : Except ErrCode Result}
    (hne : (completeState s r).valid ≠ s.valid) : ∃ b, r = .ok (.verdict b) := by
  cases r with
  | error e => exact absurd rfl hne
  | ok x =>
    cases x with
    | verdict b => exact ⟨b, rfl⟩
    | none | data | point | signature => exact absurd rfl hne

/-- A command that changes VALID is a VERIFY, and completes without error. -/
theorem verify_of_exec_changes_valid {i : Instr} {s t : State} (hexec : exec i s = .next t)
    (hne : t.valid ≠ s.valid) : i.isVerify = true ∧ t.errcode = 0 := by
  obtain ⟨r, hr, hfits⟩ := exec_completes i s
  obtain rfl : t = _ := Host.Outcome.next.inj (hexec.symm.trans hr)
  obtain ⟨b, rfl⟩ := verdict_of_completeState_changes_valid hne
  exact ⟨hfits _ rfl, rfl⟩

/-- The same of the word the engine runs: one that is no command leaves VALID (spec/60_exceptions.md R204). -/
theorem verify_of_runCommand_changes_valid {s t : State} {c : Word} (hrun : runCommand s c = .next t)
    (hne : t.valid ≠ s.valid) :
    t.errcode = 0 ∧ ∃ i, decode s.cfg.nonceCmdEnabled c = .ok i ∧ i.isVerify = true := by
  cases hdecode : decode s.cfg.nonceCmdEnabled c with
  | error e =>
    obtain rfl : t = _ := Host.Outcome.next.inj (hrun.symm.trans (runCommand_of_decode_error hdecode))
    exact absurd rfl hne
  | ok i =>
    obtain ⟨hverify, hcode⟩ := verify_of_exec_changes_valid ((runCommand_of_decode_ok hdecode).symm.trans hrun) hne
    exact ⟨hcode, i, rfl, hverify⟩

/-- A valid point operand is the register's value (spec/41_curve.md R142). -/
theorem pointOperand_eq_ok {s : State} {p : PReg} {q : Point} :
    pointOperand s p = .ok q ↔ (valP s p).valid = true ∧ q = valP s p := checkPoint_eq_ok

/-- A VERIFY without error writes its verdict (spec/42_ecdsa.md R180). -/
theorem exec_verify_valid {q : PReg} {z r sReg : VReg} {s t : State} (hexec : exec (.verify q z r sReg) s = .next t)
    (hcode : t.errcode = 0) : t.valid = verifyVerdict (valP s q) (valV s z) (valV s r) (valV s sReg) := by
  simp only [exec, execVerify] at hexec
  cases hkey : pointOperand s q with
  | error e =>
    rw [hkey] at hexec
    obtain rfl : raiseError s e = t := Host.Outcome.next.inj hexec
    exact absurd hcode (errNumber_ne_zero e)
  | ok key =>
    rw [hkey] at hexec
    obtain rfl : succeed s (.verdict _) = t := Host.Outcome.next.inj hexec
    obtain ⟨-, rfl⟩ := pointOperand_eq_ok.1 hkey
    rfl

/-- Settles O26: only a VERIFY without error changes VALID, and VALID is 0 while a command runs. -/
theorem validIsWrittenOnlyByVerify : Obligations.ValidIsWrittenOnlyByVerify := by
  unfold Obligations.ValidIsWrittenOnlyByVerify
  refine ⟨fun s w hphase => ?_, fun i s t hexec hnot => ?_, fun s t c rest hinv hphase hnext hstep hvalid => ?_,
    fun q z r sReg s t hexec hcode => exec_verify_valid hexec hcode⟩
  · rw [busWrite_cmd_of_idle hphase, accept_valid]
  · by_contra hne
    exact hnot (verify_of_exec_changes_valid hexec hne)
  · obtain ⟨-, -, hclear, -⟩ := hinv.running c hphase
    have hrun := (step_of_engine_busy hphase hnext).symm.trans hstep
    exact verify_of_runCommand_changes_valid (s := { s with turns := rest }) hrun (by simp [hvalid, hclear])

end Sys2Proof.Machine
end


section
/-! The access rules of the register window (spec/20_memory.md R53, R55 to R57): the map at each word's offset and at
the gaps, what a refused access and a word of V or PR answer in each phase, and what an accepted write leaves. -/

namespace Sys2Proof.Machine

open Sys2Proof.Expected

/-! ### The address map (R53) -/

theorem target_of_misaligned {off : Nat} (h : off % 4 ≠ 0) : target off = none := if_pos h

theorem target_of_data_range {off : Nat} (haligned : off % 4 = 0) (hlo : 0x100 ≤ off) (hhi : off < 0x300) :
    target off = some (.data (Fin.ofNat 16 ((off - 0x100) / 0x20)) (Fin.ofNat 8 ((off - 0x100) % 0x20 / 4))) := by
  simp [target, haligned, Nat.not_lt.2 hlo, hhi]

theorem target_of_point_range {off : Nat} (haligned : off % 4 = 0) (hlo : 0x400 ≤ off) (hhi : off < 0x800) :
    target off = pointTarget (off - 0x400) := by
  simp [target, haligned, windowSize, hhi, show ¬ off < 0x100 by omega, show ¬ off < 0x300 by omega,
    Nat.not_lt.2 hlo]

theorem target_data (i : VReg) (j : Fin 8) : target (0x100 + 0x20 * i.val + 4 * j.val) = some (.data i j) := by
  rw [target_of_data_range (by omega) (by omega) (by omega),
    show (0x100 + 0x20 * i.val + 4 * j.val - 0x100) / 0x20 = i.val by omega,
    show (0x100 + 0x20 * i.val + 4 * j.val - 0x100) % 0x20 / 4 = j.val by omega, Fin.ofNat_val_eq_self,
    Fin.ofNat_val_eq_self]

theorem target_point (i : PReg) {r : Nat} (haligned : r % 4 = 0) (hr : r < 0x80) :
    target (0x400 + 0x80 * i.val + r) = pointTarget (0x80 * i.val + r) := by
  rw [target_of_point_range (by omega) (by omega) (by omega),
    show 0x400 + 0x80 * i.val + r - 0x400 = 0x80 * i.val + r by omega]

/-- An offset from 0x400 splits into the point register's index and the offset in it. -/
theorem pointTarget_add (i : PReg) {r : Nat} (hr : r < 0x80) : pointTarget (0x80 * i.val + r) =
    if r < 0x20 then some (.pointX i (Fin.ofNat 8 (r / 4)))
    else if r < 0x40 then some (.pointY i (Fin.ofNat 8 ((r - 0x20) / 4)))
    else if r = 0x40 then some (.pointTag i)
    else none := by
  simp only [pointTarget, show (0x80 * i.val + r) / 0x80 = i.val by omega,
    show (0x80 * i.val + r) % 0x80 = r by omega, Fin.ofNat_val_eq_self]

theorem target_pointX (i : PReg) (j : Fin 8) : target (0x400 + 0x80 * i.val + 4 * j.val) = some (.pointX i j) := by
  rw [target_point i (by omega) (by omega), pointTarget_add i (by omega), if_pos (by omega),
    show 4 * j.val / 4 = j.val by omega, Fin.ofNat_val_eq_self]

theorem target_pointY (i : PReg) (j : Fin 8) : target (0x420 + 0x80 * i.val + 4 * j.val) = some (.pointY i j) := by
  rw [show 0x420 + 0x80 * i.val + 4 * j.val = 0x400 + 0x80 * i.val + (0x20 + 4 * j.val) by omega,
    target_point i (by omega) (by omega), pointTarget_add i (by omega), if_neg (by omega), if_pos (by omega),
    show (0x20 + 4 * j.val - 0x20) / 4 = j.val by omega, Fin.ofNat_val_eq_self]

theorem target_pointTag (i : PReg) : target (0x440 + 0x80 * i.val) = some (.pointTag i) := by
  rw [show 0x440 + 0x80 * i.val = 0x400 + 0x80 * i.val + 0x40 by omega, target_point i (by decide) (by decide),
    pointTarget_add i (by decide)]
  rfl

/-- The 17 words of a point register are operand words: eight of X, eight of Y, TAG. -/
theorem target_point_word (i : PReg) (j : Fin 17) :
    ∃ t, target (0x400 + 0x80 * i.val + 4 * j.val) = some t ∧ isOperandTarget t = true := by
  obtain hx | hy | htag : j.val < 8 ∨ (8 ≤ j.val ∧ j.val < 16) ∨ j.val = 16 := by omega
  · exact ⟨_, target_pointX i ⟨j.val, hx⟩, rfl⟩
  · have hoff : 0x400 + 0x80 * i.val + 4 * j.val = 0x420 + 0x80 * i.val + 4 * (j.val - 8) := by omega
    exact ⟨_, hoff ▸ target_pointY i ⟨j.val - 8, by omega⟩, rfl⟩
  · have hoff : 0x400 + 0x80 * i.val + 4 * j.val = 0x440 + 0x80 * i.val := by omega
    exact ⟨_, hoff ▸ target_pointTag i, rfl⟩

theorem controlTarget_of_ge {off : Nat} (h : 0x014 ≤ off) : controlTarget off = none := by
  simp [controlTarget, show off ≠ 0x000 by omega, show off ≠ 0x004 by omega, show off ≠ 0x008 by omega,
    show off ≠ 0x00C by omega, show off ≠ 0x010 by omega]

theorem pointTarget_of_ge {rel : Nat} (h : 0x44 ≤ rel % 0x80) : pointTarget rel = none := by
  simp [pointTarget, show ¬ rel % 0x80 < 0x20 by omega, show ¬ rel % 0x80 < 0x40 by omega,
    show rel % 0x80 ≠ 0x40 by omega]

/-- The gaps of the map are the table's. -/
theorem target_of_unmapped {off : Nat} (h : Unmapped off) : target off = none := by
  obtain ⟨hlo, hhi⟩ | ⟨hlo, hhi⟩ | ⟨hlo, hgap⟩ := h
  · simp [target, hhi, controlTarget_of_ge hlo]
  · simp [target, show ¬ off < 0x100 by omega, Nat.not_lt.2 hlo, hhi]
  · simp [target, show ¬ off < 0x100 by omega, show ¬ off < 0x300 by omega, Nat.not_lt.2 hlo, pointTarget_of_ge hgap]

/-! ### Refused accesses (R55, R57) -/

theorem busRead_of_size {size : Nat} (h : size ≠ 4) (s : State) (off : Nat) : busRead s off size = .busErr := if_pos h

theorem busWrite_of_size {size : Nat} (h : size ≠ 4) (s : State) (off : Nat) (w : Word) :
    busWrite s off size w = (s, .busErr) := if_pos h

theorem busRead_of_target_none {off : Nat} (h : target off = none) (s : State) (size : Nat) :
    busRead s off size = .busErr := by
  simp [busRead, h]

theorem busWrite_of_target_none {off : Nat} (h : target off = none) (s : State) (size : Nat) (w : Word) :
    busWrite s off size w = (s, .busErr) := by
  simp [busWrite, h]

theorem busRead_of_refused {s : State} {off : Nat} {t : Target} (htarget : target off = some t)
    (hrefused : readAccepted s t = false) : busRead s off 4 = .busErr := by
  simp [busRead, htarget, hrefused]

theorem busWrite_of_refused {s : State} {off : Nat} {t : Target} (htarget : target off = some t)
    (hrefused : writeAccepted s t = false) (w : Word) : busWrite s off 4 w = (s, .busErr) := by
  simp [busWrite, htarget, hrefused]

/-- Settles O15: the size is checked before the map, and the map names no misaligned offset. -/
theorem onlyAlignedWordAccesses : Obligations.OnlyAlignedWordAccesses := by
  unfold Obligations.OnlyAlignedWordAccesses
  rintro s off size (hmisaligned | hsize)
  · have htarget := target_of_misaligned hmisaligned
    exact ⟨busRead_of_target_none htarget s size, busWrite_of_target_none htarget s size⟩
  · exact ⟨busRead_of_size hsize s off, busWrite_of_size hsize s off⟩

/-! ### Operand words and CMD in each phase (R55) -/

theorem readAccepted_of_idle {s : State} (h : s.phase = .idle) (t : Target) : readAccepted s t = true := by
  simp [readAccepted, h, Phase.isBusy]

theorem readAccepted_of_busy {s : State} {c : Word} (h : s.phase = .busy c) (t : Target) :
    readAccepted s t = !isOperandTarget t := by
  simp [readAccepted, h, Phase.isBusy]

theorem writeAccepted_of_busy {s : State} {c : Word} (h : s.phase = .busy c) (t : Target) :
    writeAccepted s t = !(isOperandTarget t || t == .cmd) := by
  simp [writeAccepted, h, Phase.isBusy]

theorem control_of_writeAccepted_busy {s : State} {c : Word} (h : s.phase = .busy c) {t : Target}
    (haccepted : writeAccepted s t = true) : isOperandTarget t = false := by
  rw [writeAccepted_of_busy h] at haccepted
  cases hoperand : isOperandTarget t with
  | false => rfl
  | true => simp [hoperand] at haccepted

theorem busWrite_cmd_of_busy {s : State} {c : Word} (h : s.phase = .busy c) (w : Word) :
    busWrite s 0x010 4 w = (s, .busErr) :=
  busWrite_of_refused (t := .cmd) rfl (writeAccepted_of_busy h .cmd) w

theorem operand_access_of_idle {s : State} {off : Nat} {t : Target} (htarget : target off = some t)
    (hphase : s.phase = .idle) : (∃ w, busRead s off 4 = .data w) ∧ ∀ w, (busWrite s off 4 w).2 = .ok :=
  ⟨⟨_, busRead_of_accepted htarget (readAccepted_of_idle hphase t)⟩,
    fun w => by rw [busWrite_of_accepted htarget (writeAccepted_of_idle hphase t)]⟩

theorem operand_access_of_busy {s : State} {c : Word} {off : Nat} {t : Target} (htarget : target off = some t)
    (hoperand : isOperandTarget t = true) (hphase : s.phase = .busy c) :
    busRead s off 4 = .busErr ∧ ∀ w, busWrite s off 4 w = (s, .busErr) :=
  ⟨busRead_of_refused htarget (by rw [readAccepted_of_busy hphase, hoperand]; rfl),
    busWrite_of_refused htarget (by rw [writeAccepted_of_busy hphase, hoperand]; rfl)⟩

/-! ### What a write leaves -/

/-- A write is refused and changes nothing, or it is the accepted word write of one target. -/
theorem busWrite_cases (s : State) (off size : Nat) (w : Word) : busWrite s off size w = (s, .busErr) ∨
    ∃ t, target off = some t ∧ writeAccepted s t = true ∧ busWrite s off size w = (storeTarget s t w, .ok) := by
  obtain rfl | hsize := eq_or_ne size 4
  · cases htarget : target off with
    | none => exact .inl (busWrite_of_target_none htarget s 4 w)
    | some t =>
      cases haccepted : writeAccepted s t with
      | false => exact .inl (busWrite_of_refused htarget haccepted w)
      | true => exact .inr ⟨t, rfl, haccepted, busWrite_of_accepted htarget haccepted w⟩
  · exact .inl (busWrite_of_size hsize s off w)

@[simp] theorem writeStatus_v (s : State) (w : Word) : (writeStatus s w).v = s.v := by
  unfold writeStatus
  split <;> rfl

@[simp] theorem writeStatus_pr (s : State) (w : Word) : (writeStatus s w).pr = s.pr := by
  unfold writeStatus
  split <;> rfl

/-- A write to a control register keeps V and PR, a soft reset apart (spec/70_reset_and_hazards.md R232). -/
theorem storeTarget_control_registers {t : Target} (hcontrol : isOperandTarget t = false) {w : Word}
    (hreset : ¬ (t = .ctrl ∧ w.getLsbD 1 = true)) (s : State) :
    (storeTarget s t w).v = s.v ∧ (storeTarget s t w).pr = s.pr := by
  cases t with
  | id | errcode | cmd => exact ⟨rfl, rfl⟩
  | ctrl =>
    have hclear : w.getLsbD 1 = false := by simpa using hreset
    rw [show storeTarget s .ctrl w = writeIe s w from writeCtrl_of_clear hclear s]
    exact ⟨writeIe_v s w, writeIe_pr s w⟩
  | status => exact ⟨writeStatus_v s w, writeStatus_pr s w⟩
  | data | pointX | pointY | pointTag => cases hcontrol

/-- While busy no write but a soft reset changes V or PR: the writes still accepted are to control registers. -/
theorem busWrite_registers_of_busy {s : State} {c : Word} (hphase : s.phase = .busy c) (off size : Nat) {w : Word}
    (hreset : ¬ (off = 0x004 ∧ w.getLsbD 1 = true)) :
    (busWrite s off size w).1.v = s.v ∧ (busWrite s off size w).1.pr = s.pr := by
  obtain hrefused | ⟨t, htarget, haccepted, hwrite⟩ := busWrite_cases s off size w
  · rw [hrefused]
    exact ⟨rfl, rfl⟩
  · rw [hwrite]
    refine storeTarget_control_registers (control_of_writeAccepted_busy hphase haccepted) ?_ s
    rintro ⟨rfl, hset⟩
    exact hreset ⟨target_eq_ctrl htarget, hset⟩

/-- Settles O13: each row of R55 is the rule of its target in that phase. -/
theorem accessRulesByPhase : Obligations.AccessRulesByPhase := by
  unfold Obligations.AccessRulesByPhase
  intro s
  refine ⟨?_, fun w => ⟨busWrite_id s w, busWrite_errcode s w⟩, fun w => ?_, fun w hphase => ?_,
    fun c w hphase => busWrite_cmd_of_busy hphase w, ?_, ?_, fun off size hunmapped => ?_,
    fun c off size w hphase hreset => busWrite_registers_of_busy hphase off size hreset⟩
  · simp only [List.forall_mem_cons, List.not_mem_nil, false_imp_iff, implies_true, and_true]
    exact ⟨⟨_, busRead_id s⟩, ⟨_, busRead_ctrl s⟩, ⟨_, busRead_status s⟩, ⟨_, busRead_errcode s⟩,
      ⟨_, busRead_cmd s⟩⟩
  · rw [busWrite_ctrl, busWrite_status]
    exact ⟨rfl, rfl⟩
  · rw [busWrite_cmd_of_idle hphase]
    exact ⟨rfl, accept_phase s w⟩
  · rintro i j _ rfl
    exact ⟨operand_access_of_idle (target_data i j), fun _ => operand_access_of_busy (target_data i j) rfl⟩
  · rintro i j _ rfl
    obtain ⟨t, htarget, hoperand⟩ := target_point_word i j
    exact ⟨operand_access_of_idle htarget, fun _ => operand_access_of_busy htarget hoperand⟩
  · have htarget := target_of_unmapped hunmapped
    exact ⟨busRead_of_target_none htarget s size, busWrite_of_target_none htarget s size⟩

/-- Settles O14: an access that changes more than the replies was an accepted write, and that is answered OK. -/
theorem busErrorChangesNothing : Obligations.BusErrorChangesNothing := by
  unfold Obligations.BusErrorChangesNothing
  intro s t a rest hturns hstep hreply
  obtain rfl : t = _ := Host.Outcome.next.inj (hstep.symm.trans (step_of_access hturns))
  obtain ⟨r, hr⟩ | ⟨_, _, _, -, -, -, hstore⟩ := hostAccess_cases { s with turns := rest } a
  · rw [hr]
    exact ⟨⟨rfl, rfl, rfl, rfl, rfl, rfl, rfl, rfl, rfl⟩, rfl, rfl⟩
  · rw [hstore, pushReply_replies] at hreply
    have hlast := (List.append_inj' hreply rfl).2
    exact absurd hlast (by decide)

end Sys2Proof.Machine
end

section
/-! The decoder and the conditions of spec/30_encoding.md R84. First when each of the decoder's checks lets a word pass,
then the operands of the field commands and of the curve and ECDSA commands, and from them that a word decodes exactly
when it is not malformed; last the statements on R84, R91 and R80. -/

namespace Sys2Proof.Machine

open Sys2Proof.Expected

/-! ### When a check passes -/

@[simp] theorem isOk_ok {ε α : Type} (a : α) : (.ok a : Except ε α).isOk = true := rfl

@[simp] theorem isOk_pure {ε α : Type} (a : α) : (pure a : Except ε α).isOk = true := rfl

@[simp] theorem isOk_error {ε α : Type} (e : ε) : (.error e : Except ε α).isOk = false := rfl

theorem isOk_iff_exists {ε α : Type} {x : Except ε α} : x.isOk = true ↔ ∃ a, x = .ok a := by
  cases x <;> simp

@[simp] theorem isOk_require_bind {c : Bool} {e : DecodeError} {α : Type} {g : Unit → Except DecodeError α} :
    (require c e >>= g).isOk = true ↔ c = true ∧ (g ()).isOk = true := by
  cases c <;> simp [bind, Except.bind]

@[simp] theorem isOk_zeroField_bind {x : BitVec 4} {α : Type} {g : Unit → Except DecodeError α} :
    (zeroField x >>= g).isOk = true ↔ x.toNat = 0 ∧ (g ()).isOk = true := by
  simp [zeroField, BitVec.toNat_eq]

@[simp] theorem isOk_pointField_bind {x : BitVec 4} {α : Type} {g : PReg → Except DecodeError α} :
    (pointField x >>= g).isOk = true ↔ ∃ h : x.toNat < 8, (g ⟨x.toNat, h⟩).isOk = true := by
  unfold pointField
  split <;> simp [bind, Except.bind, *]

/-- Conditions 3 and 6 of R84 on MSEL and FD, where what follows passes or fails (`c`) whatever the modulus. -/
theorem isOk_decodeModulus_bind {msel : BitVec 2} {fd : BitVec 4} {α : Type} {g : Modulus → Except DecodeError α}
    {c : Prop} (hg : ∀ m, (g m).isOk = true ↔ c) : (decodeModulus msel fd >>= g).isOk = true ↔
      msel.toNat ≠ 3 ∧ (msel.toNat ≠ 0 → fd.toNat = 0) ∧ c := by
  unfold decodeModulus
  split
  case h_1 => simp [bind, Except.bind, *]
  case h_4 =>
    simp only [imp_false] at *
    have hmsel : msel.toNat = 3 := by omega
    simp [bind, Except.bind, hmsel]
  all_goals simp [*]

/-! ### The operands of a command (R85, R86) -/

theorem isFieldOpcode_iff {opc : BitVec 6} : isFieldOpcode opc = true ↔ 0x01 ≤ opc.toNat ∧ opc.toNat ≤ 0x08 := by
  simp [isFieldOpcode]

/-- The opcodes of the curve and ECDSA commands (R85). -/
def pointOpcodes : List Nat := [0x10, 0x11, 0x12, 0x13, 0x14, 0x15, 0x16, 0x20, 0x21, 0x22, 0x23]

theorem mem_opcodes_iff {n : Nat} : n ∈ opcodes ↔ (0x01 ≤ n ∧ n ≤ 0x08) ∨ n ∈ pointOpcodes := by
  simp only [opcodes, pointOpcodes, List.mem_cons, List.not_mem_nil, or_false]
  omega

theorem isOk_decodeFieldCommand {f : Fields} (hfield : 0x01 ≤ f.opc.toNat ∧ f.opc.toNat ≤ 0x08) (m : Modulus) :
    (decodeFieldCommand f m).isOk = true ↔
      (f.opc.toNat = 0x01 → f.fa.toNat = 0) ∧ (f.opc.toNat ∈ [0x01, 0x06, 0x08] → f.fc.toNat = 0) := by
  unfold decodeFieldCommand
  split
  case h_9 =>
    simp only [imp_false] at *
    omega
  all_goals simp [*]

/-- The operand fields of a curve or ECDSA command keep their roles: none of conditions 6 to 8 of R84 holds. -/
def PointRolesKept (f : Fields) : Prop :=
  (f.opc.toNat ∈ [0x11, 0x12] → f.fb.toNat = 0) ∧
  (f.opc.toNat ∈ [0x11, 0x12, 0x15, 0x16, 0x20] → f.fc.toNat = 0) ∧
  (f.opc.toNat ∈ [0x10, 0x11, 0x12, 0x13, 0x14, 0x15, 0x16, 0x20, 0x21] → f.fd.toNat = 0) ∧
  (f.opc.toNat ∈ [0x10, 0x11, 0x12, 0x13, 0x14, 0x20, 0x23] → f.fa.toNat < 8) ∧
  (f.opc.toNat ∈ [0x13, 0x14, 0x15, 0x16] → f.fb.toNat < 8) ∧
  (f.opc.toNat = 0x13 → f.fc.toNat < 8) ∧
  (f.opc.toNat = 0x22 → f.fa.toNat ≠ f.fd.toNat)

theorem isOk_decodePointCommand {en : Bool} {f : Fields} : (decodePointCommand en f).isOk = true ↔
    (f.opc.toNat ∈ pointOpcodes ∧ (f.opc.toNat = 0x21 → en = true)) ∧ PointRolesKept f := by
  unfold decodePointCommand PointRolesKept
  split
  case h_12 =>
    simp only [imp_false] at *
    have hopc : f.opc.toNat ∉ pointOpcodes := by simp [pointOpcodes, *]
    simp [hopc]
  all_goals simp [*, pointOpcodes, BitVec.toNat_eq, and_comm, and_left_comm]

/-! ### A word decodes exactly when it is not malformed (R84) -/

theorem isOk_decodeFields_of_field {f : Fields} (hfield : 0x01 ≤ f.opc.toNat ∧ f.opc.toNat ≤ 0x08) (en : Bool) :
    (decodeFields en f).isOk = true ↔ f.reserved.toNat = 0 ∧ f.msel.toNat ≠ 3 ∧
      (f.neg.toNat = 1 → f.opc.toNat = 0x07) ∧ (f.opc.toNat = 0x01 → f.fa.toNat = 0) ∧
      (f.opc.toNat ∈ [0x01, 0x06, 0x08] → f.fc.toNat = 0) ∧ (f.msel.toNat ≠ 0 → f.fd.toNat = 0) := by
  have hneg : f.neg.toNat = 0 ∨ f.opc.toNat = 0x07 ↔ (f.neg.toNat = 1 → f.opc.toNat = 0x07) := by omega
  rw [decodeFields, if_pos (isFieldOpcode_iff.2 hfield)]
  simp [isOk_decodeModulus_bind (isOk_decodeFieldCommand hfield), BitVec.toNat_eq, hneg, and_comm, and_left_comm]

theorem isOk_decodeFields_of_not_field {f : Fields} (hfield : ¬ (0x01 ≤ f.opc.toNat ∧ f.opc.toNat ≤ 0x08))
    (en : Bool) : (decodeFields en f).isOk = true ↔ f.reserved.toNat = 0 ∧
      (f.opc.toNat ∈ pointOpcodes ∧ (f.opc.toNat = 0x21 → en = true)) ∧ f.msel.toNat ≠ 3 ∧ f.msel.toNat = 0 ∧
      f.neg.toNat ≠ 1 ∧ PointRolesKept f := by
  have hneg : f.neg.toNat = 0 ∨ f.opc.toNat = 0x07 ↔ f.neg.toNat ≠ 1 := by omega
  rw [decodeFields, if_neg (mt isFieldOpcode_iff.1 hfield)]
  simp [isOk_decodePointCommand, BitVec.toNat_eq, hneg, and_assoc, and_comm, and_left_comm]

theorem bits_eq_toNat (w : Word) (lo n : Nat) : bits w lo n = (w.extractLsb' lo n).toNat := by
  simp [bits, Nat.shiftRight_eq_div_pow]

theorem bits_eq_fields (w : Word) :
    bits w 0 6 = (Fields.ofWord w).opc.toNat ∧ bits w 6 2 = (Fields.ofWord w).msel.toNat ∧
    bits w 8 4 = (Fields.ofWord w).fa.toNat ∧ bits w 12 4 = (Fields.ofWord w).fb.toNat ∧
    bits w 16 4 = (Fields.ofWord w).fc.toNat ∧ bits w 20 4 = (Fields.ofWord w).fd.toNat ∧
    bits w 24 1 = (Fields.ofWord w).neg.toNat ∧ bits w 25 7 = (Fields.ofWord w).reserved.toNat := by
  simp only [bits_eq_toNat, Fields.ofWord, and_self]

/-- On a field opcode the conditions on curve and ECDSA opcodes cannot hold, and on any other those on field opcodes;
the decoder checks what is left. -/
theorem isOk_decode_iff {en : Bool} {w : Word} : (decode en w).isOk = true ↔ ¬ Malformed en w := by
  obtain ⟨hopc, hmsel, hfa, hfb, hfc, hfd, hneg, hreserved⟩ := bits_eq_fields w
  simp only [Malformed, decode, hopc, hmsel, hfa, hfb, hfc, hfd, hneg, hreserved, mem_opcodes_iff]
  generalize Fields.ofWord w = f
  by_cases hfield : 0x01 ≤ f.opc.toNat ∧ f.opc.toNat ≤ 0x08
  · have hne : ∀ n, 0x08 < n → f.opc.toNat ≠ n := by omega
    rw [isOk_decodeFields_of_field hfield]
    simp [hfield, hne]
  · have hne : ∀ n, 0x01 ≤ n → n ≤ 0x08 → f.opc.toNat ≠ n := by omega
    rw [isOk_decodeFields_of_not_field hfield]
    simp [hfield, hne, PointRolesKept, and_assoc]

theorem exists_decode_eq_ok_iff {en : Bool} {w : Word} : (∃ i, decode en w = .ok i) ↔ ¬ Malformed en w :=
  isOk_iff_exists.symm.trans isOk_decode_iff

/-! ### The engine's step on a word that is a command, and on one that is none -/

theorem step_of_decode_ok {s : State} {w : Word} {i : Instr} {rest : List Turn} (hphase : s.phase = .busy w)
    (hnext : EngineNext s rest) (hdecode : decode s.cfg.nonceCmdEnabled w = .ok i) :
    step s = exec i { s with turns := rest } :=
  (step_of_engine_busy hphase hnext).trans (runCommand_of_decode_ok (s := { s with turns := rest }) hdecode)

theorem step_of_decode_error {s : State} {w : Word} {e : DecodeError} {rest : List Turn} (hphase : s.phase = .busy w)
    (hnext : EngineNext s rest) (hdecode : decode s.cfg.nonceCmdEnabled w = .error e) :
    step s = .next (finished { s with turns := rest } 0x10) :=
  (step_of_engine_busy hphase hnext).trans (runCommand_of_decode_error (s := { s with turns := rest }) hdecode)

/-- Settles O4: a word decodes exactly when none of the eight conditions holds, and the engine runs what it decodes. -/
theorem malformedWordsAreIllegalCommands : Obligations.MalformedWordsAreIllegalCommands := by
  unfold Obligations.MalformedWordsAreIllegalCommands
  intro s w rest hphase hnext
  refine ⟨fun hmalformed => ?_, fun hwell => ?_⟩
  · cases hdecode : decode s.cfg.nonceCmdEnabled w with
    | ok i => exact absurd hmalformed (exists_decode_eq_ok_iff.1 ⟨i, hdecode⟩)
    | error e => exact step_of_decode_error hphase hnext hdecode
  · obtain ⟨i, hdecode⟩ := exists_decode_eq_ok_iff.2 hwell
    exact ⟨i, hdecode, fun j hj => Except.ok.inj (hj.symm.trans hdecode), step_of_decode_ok hphase hnext hdecode⟩

/-- Settles O3: the decoder, the encoder and the assembler spelling are evaluated on the six rows of R91. -/
theorem workedEncodings : Obligations.WorkedEncodings := by
  unfold Obligations.WorkedEncodings
  decide

/-- Settles O21: the CMD write follows the phase, and the engine's next step is that of a word that is no command. -/
theorem cmdWriteAcceptsEveryWord : Obligations.CmdWriteAcceptsEveryWord := by
  unfold Obligations.CmdWriteAcceptsEveryWord
  intro s w
  refine ⟨fun hphase => busWrite_cmd_of_idle hphase w, fun c hphase => busWrite_cmd_of_busy hphase w,
    fun e rest hphase hdecode hnext => ?_⟩
  rw [busWrite_cmd_of_idle hphase]
  exact ⟨_, step_of_decode_error (accept_phase s w) hnext hdecode, rfl, rfl⟩

end Sys2Proof.Machine
end

section
/-! The field commands (spec/40_field.md). First the checks every field command begins with, in the order of R112, and
what each command computes after them; then one statement for each command; last the laws of R126 and the root of R122
modulo a prime, from those statements and arithmetic. -/

namespace Sys2Proof.Machine

open Sys2Proof.Expected

/-! ### The checks of a field command (R110 to R112) -/

/-- A field command with one operand: its modulus `n` and its operand `x` are checked, then it computes `f n x`. -/
def withOperand (s : State) (a : VReg) (m : Modulus) (f : Nat → Nat → Except ErrCode Result) :
    Except ErrCode Result := do
  let n ← modulusOperand s m
  let x ← fieldOperand s a n
  f n x

/-- A field command with two operands `x` and `y`, the second checked after the first. -/
def withOperands (s : State) (a b : VReg) (m : Modulus) (f : Nat → Nat → Nat → Except ErrCode Result) :
    Except ErrCode Result :=
  withOperand s a m fun n x => do
    let y ← fieldOperand s b n
    f n x y

section Checks

variable {s : State} {a b : VReg} {m : Modulus}

theorem withOperand_ok (hm : 2 ≤ modulusValue s m) (ha : valV s a < modulusValue s m)
    (f : Nat → Nat → Except ErrCode Result) : withOperand s a m f = f (modulusValue s m) (valV s a) := by
  simp [withOperand, modulusOperand_ok hm, fieldOperand_ok ha]

theorem withOperand_invalidModulus (hm : modulusValue s m < 2) (f : Nat → Nat → Except ErrCode Result) :
    withOperand s a m f = .error .invalidModulus := by
  simp [withOperand, modulusOperand_error hm]

theorem withOperand_outOfRange (hm : 2 ≤ modulusValue s m) (ha : modulusValue s m ≤ valV s a)
    (f : Nat → Nat → Except ErrCode Result) : withOperand s a m f = .error .outOfRange := by
  simp [withOperand, modulusOperand_ok hm, fieldOperand_error ha]

theorem withOperands_ok (hm : 2 ≤ modulusValue s m) (ha : valV s a < modulusValue s m)
    (hb : valV s b < modulusValue s m) (f : Nat → Nat → Nat → Except ErrCode Result) :
    withOperands s a b m f = f (modulusValue s m) (valV s a) (valV s b) := by
  simp [withOperands, withOperand_ok hm ha, fieldOperand_ok hb]

theorem withOperands_invalidModulus (hm : modulusValue s m < 2) (f : Nat → Nat → Nat → Except ErrCode Result) :
    withOperands s a b m f = .error .invalidModulus :=
  withOperand_invalidModulus hm _

theorem withOperands_outOfRange (hm : 2 ≤ modulusValue s m)
    (h : modulusValue s m ≤ valV s a ∨ modulusValue s m ≤ valV s b) (f : Nat → Nat → Nat → Except ErrCode Result) :
    withOperands s a b m f = .error .outOfRange := by
  rcases Nat.lt_or_ge (valV s a) (modulusValue s m) with ha | ha
  · have hb : modulusValue s m ≤ valV s b := h.resolve_left (Nat.not_le.2 ha)
    simp [withOperands, withOperand_ok hm ha, fieldOperand_error hb]
  · exact withOperand_outOfRange hm ha _

end Checks

/-! ### The check of a divisor (R117, R118) -/

theorem check_nonzero {x : Nat} (h : x ≠ 0) (e : ErrCode) : check (x != 0) e = .ok () := by
  rw [bne_iff_ne.2 h, check_true]

theorem check_zero {x : Nat} (h : x = 0) (e : ErrCode) : check (x != 0) e = .error e := by
  rw [h, bne_self_eq_false, check_false]

/-! ### What a completion leaves, in the words of the statements -/

theorem completion_error (s : State) (e : ErrCode) : completion s (.error e) = .next (finished s (errNumber e)) := rfl

theorem completion_none (s : State) : completion s (.ok .none) = .next (finished s 0) := rfl

theorem completion_data (s : State) (d : VReg) (x : Nat) :
    completion s (.ok (.data d x)) = .next (finished (withV s d x) 0) := rfl

/-! ### What each command computes after its checks (R113 to R122) -/

theorem exec_fchk (s : State) (a : VReg) (m : Modulus) :
    exec (.fchk a m) s = completion s (withOperand s a m fun _ _ => .ok .none) := rfl

theorem exec_fadd (s : State) (d a b : VReg) (m : Modulus) :
    exec (.fadd d a b m) s = completion s (withOperands s a b m fun n x y => .ok (.data d ((x + y) % n))) := rfl

theorem exec_fsub (s : State) (d a b : VReg) (m : Modulus) :
    exec (.fsub d a b m) s = completion s (withOperands s a b m fun n x y => .ok (.data d (subMod x y n))) := rfl

theorem exec_fmul (s : State) (d a b : VReg) (m : Modulus) :
    exec (.fmul d a b m) s = completion s (withOperands s a b m fun n x y => .ok (.data d (x * y % n))) := rfl

theorem exec_fdiv (s : State) (d a b : VReg) (m : Modulus) :
    exec (.fdiv d a b m) s = completion s (withOperands s a b m fun n x y => do
      check (y != 0) .divisionByZero
      pure (.data d (divMod x y n))) := rfl

theorem exec_finv (s : State) (d a : VReg) (m : Modulus) :
    exec (.finv d a m) s = completion s (withOperand s a m fun n x => do
      check (x != 0) .divisionByZero
      pure (.data d (powmod x (n - 2) n))) := rfl

theorem exec_fpow (s : State) (neg : Bool) (d a e : VReg) (m : Modulus) :
    exec (.fpow neg d a e m) s = completion s (withOperand s a m fun n x =>
      .ok (.data d (powmod x (powExponent neg (valV s e) n) n))) := rfl

/-- The modulus check that FSQRT adds passes for a modulus 3 mod 4 (R122). -/
theorem exec_fsqrt {s : State} {m : Modulus} (hmod : modulusValue s m % 4 = 3) (d a : VReg) :
    exec (.fsqrt d a m) s = completion s (withOperand s a m fun n x => .ok (.data d (powmod x ((n + 1) / 4) n))) := by
  have hm : 2 ≤ modulusValue s m := by omega
  simp [exec, execFsqrt, withOperand, modulusOperand_ok hm, hmod]

theorem exec_fsqrt_invalidModulus {s : State} {m : Modulus} (h : modulusValue s m < 2 ∨ modulusValue s m % 4 ≠ 3)
    (d a : VReg) : exec (.fsqrt d a m) s = completion s (.error .invalidModulus) := by
  rcases Nat.lt_or_ge (modulusValue s m) 2 with hm | hm
  · simp [exec, execFsqrt, modulusOperand_error hm]
  · have hmod : modulusValue s m % 4 ≠ 3 := h.resolve_left (Nat.not_lt.2 hm)
    have hcheck : (modulusValue s m % 4 == 3) = false := beq_false_of_ne hmod
    simp [exec, execFsqrt, modulusOperand_ok hm, hcheck]

/-! ### The statements on the single commands -/

/-- Settles O32: the three outcomes are those of the checks. -/
theorem fchkChecksTheRange : Obligations.FchkChecksTheRange := by
  unfold Obligations.FchkChecksTheRange
  intro s a m
  rw [exec_fchk]
  refine ⟨fun hm ha => ?_, fun hm => ?_, fun hm ha => ?_⟩
  · rw [withOperand_ok hm ha, completion_none]
  · rw [withOperand_invalidModulus hm, completion_error, errNumber]
  · rw [withOperand_outOfRange hm ha, completion_error, errNumber]

/-- The three outcomes of a command with two operands that has no check of its own (FADD, FSUB, FMUL). -/
theorem completion_withOperands_data (s : State) (d a b : VReg) (m : Modulus) (f : Nat → Nat → Nat → Nat) :
    (2 ≤ modulusValue s m → valV s a < modulusValue s m → valV s b < modulusValue s m →
      completion s (withOperands s a b m fun n x y => .ok (.data d (f n x y))) =
        .next (finished (withV s d (f (modulusValue s m) (valV s a) (valV s b))) 0)) ∧
    (modulusValue s m < 2 →
      completion s (withOperands s a b m fun n x y => .ok (.data d (f n x y))) = .next (finished s 0x11)) ∧
    (2 ≤ modulusValue s m → modulusValue s m ≤ valV s a ∨ modulusValue s m ≤ valV s b →
      completion s (withOperands s a b m fun n x y => .ok (.data d (f n x y))) = .next (finished s 0x01)) := by
  refine ⟨fun hm ha hb => ?_, fun hm => ?_, fun hm h => ?_⟩
  · rw [withOperands_ok hm ha hb, completion_data]
  · rw [withOperands_invalidModulus hm, completion_error, errNumber]
  · rw [withOperands_outOfRange hm h, completion_error, errNumber]

/-- Settles O33: FADD computes the sum modulo `m` after the shared checks. -/
theorem faddWritesTheSum : Obligations.FaddWritesTheSum := by
  unfold Obligations.FaddWritesTheSum
  intro s d a b m
  rw [exec_fadd]
  exact completion_withOperands_data s d a b m fun n x y => (x + y) % n

theorem subMod_eq_toNat_emod {m : Nat} (a b : Nat) (hm : 0 < m) : subMod a b m = (((a : ℤ) - b) % m).toNat := by
  rw [← subMod_eq_emod a b hm, Int.toNat_natCast]

/-- Settles O34: the model's subtraction is the Euclidean remainder. -/
theorem fsubWritesTheDifference : Obligations.FsubWritesTheDifference := by
  unfold Obligations.FsubWritesTheDifference
  intro s d a b m
  obtain ⟨hok, herrors⟩ := completion_withOperands_data s d a b m fun n x y => subMod x y n
  rw [exec_fsub]
  refine ⟨fun hm ha hb => ?_, herrors⟩
  rw [hok hm ha hb, subMod_eq_toNat_emod _ _ (Nat.zero_lt_of_lt hm)]

/-- Settles O35: FMUL computes the product modulo `m` after the shared checks. -/
theorem fmulWritesTheProduct : Obligations.FmulWritesTheProduct := by
  unfold Obligations.FmulWritesTheProduct
  intro s d a b m
  rw [exec_fmul]
  exact completion_withOperands_data s d a b m fun n x y => x * y % n

/-- Settles O36: the zero check stands after the range check, and 0 is in the range of every modulus. -/
theorem finvWritesTheFermatPower : Obligations.FinvWritesTheFermatPower := by
  unfold Obligations.FinvWritesTheFermatPower
  intro s d a m
  rw [exec_finv]
  refine ⟨fun hm ha hne => ?_, fun hm => ?_, fun hm ha => ?_, fun hm hzero => ?_⟩
  · rw [withOperand_ok hm ha, check_nonzero hne, ok_bind, pure_eq_ok, completion_data, powmod_eq]
  · rw [withOperand_invalidModulus hm, completion_error, errNumber]
  · rw [withOperand_outOfRange hm ha, completion_error, errNumber]
  · have ha : valV s a < modulusValue s m := by omega
    rw [withOperand_ok hm ha, check_zero hzero, error_bind, completion_error, errNumber]

/-- Settles O37: the zero check of the divisor stands after both range checks. -/
theorem fdivWritesTheQuotient : Obligations.FdivWritesTheQuotient := by
  unfold Obligations.FdivWritesTheQuotient
  intro s d a b m
  rw [exec_fdiv]
  refine ⟨fun hm ha hb hne => ?_, fun hm => ?_, fun hm h => ?_, fun hm ha hzero => ?_⟩
  · rw [withOperands_ok hm ha hb, check_nonzero hne, ok_bind, pure_eq_ok, completion_data, divMod, powmod_eq]
  · rw [withOperands_invalidModulus hm, completion_error, errNumber]
  · rw [withOperands_outOfRange hm h, completion_error, errNumber]
  · have hb : valV s b < modulusValue s m := by omega
    rw [withOperands_ok hm ha hb, check_zero hzero, error_bind, completion_error, errNumber]

/-! ### The exponent of FPOW (R120) -/

theorem powExponent_of_not_neg {neg : Bool} {e : Nat} (h : ¬ (neg = true ∧ e ≠ 0)) (m : Nat) :
    powExponent neg e m = e := if_neg h

theorem powExponent_of_neg {neg : Bool} {e : Nat} (h : neg = true ∧ e ≠ 0) (m : Nat) :
    powExponent neg e m = subMod 0 e (m - 1) := if_pos h

theorem powExponent_neg_eq_emod {neg : Bool} {e m : Nat} (h : neg = true ∧ e ≠ 0) (hm : 2 ≤ m) :
    (powExponent neg e m : ℤ) = -(e : ℤ) % (m - 1) := by
  have hpos : 0 < m - 1 := by omega
  have hcast : ((m - 1 : ℕ) : ℤ) = (m : ℤ) - 1 := by omega
  rw [powExponent_of_neg h, subMod_eq_emod 0 e hpos, hcast, Nat.cast_zero, zero_sub]

/-- For a magnitude up to `m - 1` the reduction is one subtraction; `e = m - 1` gives the exponent 0. -/
theorem powExponent_neg_eq_sub {neg : Bool} {e m : Nat} (h : neg = true ∧ 0 < e ∧ e ≤ m - 1) :
    powExponent neg e m = m - 1 - e := by
  obtain ⟨hneg, hpos, hle⟩ := h
  rw [powExponent_of_neg ⟨hneg, hpos.ne'⟩]
  rcases hle.lt_or_eq with hlt | heq
  · rw [subMod_of_lt hpos hlt, zero_add]
  · simp [subMod, ← heq]

/-- Settles O38: the exponent is `powExponent`, which is R120's in each of its three cases. -/
theorem fpowWritesThePower : Obligations.FpowWritesThePower := by
  unfold Obligations.FpowWritesThePower
  intro s neg d a e m
  rw [exec_fpow]
  refine ⟨fun hm ha => ?_, fun hm => ?_, fun hm ha => ?_⟩
  · refine ⟨powExponent neg (valV s e) (modulusValue s m), fun h => powExponent_neg_eq_emod h hm,
      powExponent_neg_eq_sub, fun h => powExponent_of_not_neg h _, ?_⟩
    rw [withOperand_ok hm ha, completion_data, powmod_eq]
  · rw [withOperand_invalidModulus hm, completion_error, errNumber]
  · rw [withOperand_outOfRange hm ha, completion_error, errNumber]

/-- Settles O39: a modulus 3 mod 4 passes both modulus checks, and any other is refused before the operand is read. -/
theorem fsqrtWritesTheRootPower : Obligations.FsqrtWritesTheRootPower := by
  unfold Obligations.FsqrtWritesTheRootPower
  intro s d a m
  refine ⟨fun hmod ha => ?_, fun h => ?_, fun hmod ha => ?_⟩
  · rw [exec_fsqrt hmod, withOperand_ok (by omega) ha, completion_data, powmod_eq]
  · rw [exec_fsqrt_invalidModulus h, completion_error, errNumber]
  · rw [exec_fsqrt hmod, withOperand_outOfRange (by omega) ha, completion_error, errNumber]

/-! ### Reading back what a command wrote -/

theorem valV_lt (s : State) (i : VReg) : valV s i < 2 ^ 256 := (readV s i).isLt

theorem modulusValue_lt (s : State) (m : Modulus) : modulusValue s m < 2 ^ 256 := by
  cases m with
  | reg d => exact valV_lt s d
  | prime => exact curveP_lt
  | order => exact orderN_lt

theorem readV_finished_withV (s : State) (d i : VReg) (x : Nat) (c : Byte) :
    readV (finished (withV s d x) c) i = if d = i then BitVec.ofNat 256 x else readV s i :=
  readV_writeV s d i (BitVec.ofNat 256 x)

theorem valV_written (s : State) (d : VReg) {x : Nat} (hx : x < 2 ^ 256) (c : Byte) :
    valV (finished (withV s d x) c) d = x := by
  rw [valV, readV_finished_withV, if_pos rfl, BitVec.toNat_ofNat, Nat.mod_eq_of_lt hx]

theorem mod_modulusValue_lt {s : State} {m : Modulus} (hm : 0 < modulusValue s m) (x : Nat) :
    x % modulusValue s m < 2 ^ 256 := (Nat.mod_lt x hm).trans (modulusValue_lt s m)

theorem modulusValue_kept (s : State) {d : VReg} {m : Modulus} (hmd : m ≠ .reg d) (x : Nat) (c : Byte) :
    modulusValue (finished (withV s d x) c) m = modulusValue s m := by
  cases m with
  | reg e =>
    have hde : d ≠ e := fun h => hmd (h ▸ rfl)
    exact valV_congr ((readV_finished_withV s d e x c).trans (if_neg hde))
  | prime => rfl
  | order => rfl

/-- What a second command finds after a residue was written to `V[d]`: the residue there, its other operand `b` and the
modulus as they were. -/
theorem next_of_residue_written {i : Instr} {s : State} {d b : VReg} {m : Modulus} {x : Nat}
    (hexec : exec i s = .next (finished (withV s d (x % modulusValue s m)) 0)) (hm : 0 < modulusValue s m)
    (hbd : b ≠ d) (hmd : m ≠ .reg d) :
    ∃ t, exec i s = .next t ∧ valV t d = x % modulusValue s m ∧ valV t b = valV s b ∧
      modulusValue t m = modulusValue s m :=
  ⟨_, hexec, valV_written s d (mod_modulusValue_lt hm x) 0,
    valV_congr ((readV_finished_withV s d b _ 0).trans (if_neg hbd.symm)), modulusValue_kept s hmd _ 0⟩

/-! ### The laws of R126 -/

theorem toNat_add_mod_sub_emod {x n : Nat} (hx : x < n) (y : Nat) : (((((x + y) % n : ℕ) : ℤ) - y) % n).toNat = x := by
  have hcancel : ((((x + y) % n : ℕ) : ℤ) - y) % n = (x : ℤ) % n := by
    push_cast
    rw [Int.emod_sub_emod, add_sub_cancel_right]
  rw [hcancel, ← Int.natCast_mod, Int.toNat_natCast, Nat.mod_eq_of_lt hx]

/-- Fermat's little theorem for the residues of a prime modulus. -/
theorem pow_sub_one_modEq_one {p x : Nat} (hp : p.Prime) (h0 : 0 < x) (hx : x < p) : x ^ (p - 1) ≡ 1 [MOD p] := by
  rw [← Nat.totient_prime hp]
  exact Nat.ModEq.pow_totient (Nat.coprime_of_lt_prime h0.ne' hx hp).symm

/-- Multiplying by `y` and then by its Fermat inverse gives `x` back. -/
theorem mul_mod_mul_pow_sub_two_mod {p x y : Nat} (hp : p.Prime) (hx : x < p) (h0 : 0 < y) (hy : y < p) :
    x * y % p * (y ^ (p - 2) % p) % p = x := by
  have hexponent : p - 2 + 1 = p - 1 := by have := hp.two_le; omega
  have hback : x * y % p * (y ^ (p - 2) % p) ≡ x [MOD p] :=
    calc x * y % p * (y ^ (p - 2) % p)
      _ ≡ x * y * y ^ (p - 2) [MOD p] := (Nat.mod_modEq _ _).mul (Nat.mod_modEq _ _)
      _ = x * y ^ (p - 1) := by rw [mul_assoc, ← pow_succ', hexponent]
      _ ≡ x * 1 [MOD p] := (pow_sub_one_modEq_one hp h0 hy).mul_left x
      _ = x := mul_one x
  rw [hback, Nat.mod_eq_of_lt hx]

theorem fsub_undoes_fadd {s : State} {d a b : VReg} {m : Modulus} (hm : 2 ≤ modulusValue s m)
    (ha : valV s a < modulusValue s m) (hb : valV s b < modulusValue s m) (hbd : b ≠ d) (hmd : m ≠ .reg d) (e : VReg) :
    ∃ t u, exec (.fadd d a b m) s = .next t ∧ exec (.fsub e d b m) t = .next u ∧ u.errcode = 0 ∧
      valV u e = valV s a := by
  have hpos : 0 < modulusValue s m := Nat.zero_lt_of_lt hm
  obtain ⟨hadd, -⟩ := faddWritesTheSum s d a b m
  obtain ⟨t, ht, htd, htb, htm⟩ := next_of_residue_written (hadd hm ha hb) hpos hbd hmd
  obtain ⟨hsub, -⟩ := fsubWritesTheDifference t e d b m
  rw [htd, htb, htm, toNat_add_mod_sub_emod ha] at hsub
  exact ⟨t, _, ht, hsub hm (Nat.mod_lt _ hpos) hb, rfl, valV_written t e (valV_lt s a) 0⟩

theorem fdiv_undoes_fmul {s : State} {d a b : VReg} {m : Modulus} (hp : (modulusValue s m).Prime)
    (ha : valV s a < modulusValue s m) (h0 : 0 < valV s b) (hb : valV s b < modulusValue s m) (hbd : b ≠ d)
    (hmd : m ≠ .reg d) (e : VReg) :
    ∃ t u, exec (.fmul d a b m) s = .next t ∧ exec (.fdiv e d b m) t = .next u ∧ u.errcode = 0 ∧
      valV u e = valV s a := by
  obtain ⟨hmul, -⟩ := fmulWritesTheProduct s d a b m
  obtain ⟨t, ht, htd, htb, htm⟩ := next_of_residue_written (hmul hp.two_le ha hb) hp.pos hbd hmd
  obtain ⟨hdiv, -⟩ := fdivWritesTheQuotient t e d b m
  rw [htd, htb, htm, mul_mod_mul_pow_sub_two_mod hp ha h0 hb] at hdiv
  exact ⟨t, _, ht, hdiv hp.two_le (Nat.mod_lt _ hp.pos) hb h0.ne', rfl, valV_written t e (valV_lt s a) 0⟩

theorem fpow_pred_modulus_eq_one {s : State} {a e : VReg} {m : Modulus} (hp : (modulusValue s m).Prime)
    (h0 : 0 < valV s a) (ha : valV s a < modulusValue s m) (he : valV s e = modulusValue s m - 1) (d : VReg) :
    ∃ t, exec (.fpow false d a e m) s = .next t ∧ t.errcode = 0 ∧ valV t d = 1 := by
  have hone : valV s a ^ (modulusValue s m - 1) % modulusValue s m = 1 := by
    rw [pow_sub_one_modEq_one hp h0 ha, Nat.mod_eq_of_lt hp.one_lt]
  obtain ⟨hpow, -⟩ := fpowWritesThePower s false d a e m
  obtain ⟨n, -, -, hn, hexec⟩ := hpow hp.two_le ha
  rw [hn (by simp), he, hone] at hexec
  exact ⟨_, hexec, rfl, valV_written s d (by decide) 0⟩

/-- Settles O40: each law is the statement on its commands and Fermat's theorem or the cancelling of a sum. -/
theorem fieldLaws : Obligations.FieldLaws := by
  unfold Obligations.FieldLaws
  exact ⟨fun s d e a b m hm ha hb hbd hmd => fsub_undoes_fadd hm ha hb hbd hmd e,
    fun s d e a b m hp ha h0 hb hbd hmd => fdiv_undoes_fmul hp ha h0 hb hbd hmd e,
    fun s d a e m hp h0 ha he => fpow_pred_modulus_eq_one hp h0 ha he d⟩

/-! ### The root of R122 modulo a prime -/

/-- The square of FSQRT's value, with the power of Euler's criterion. -/
theorem rootPower_mul_self {p : Nat} (hmod : p % 4 = 3) (a : Nat) :
    a ^ ((p + 1) / 4) % p * (a ^ ((p + 1) / 4) % p) % p = a ^ (p / 2) * a % p := by
  have hexponent : (p + 1) / 4 + (p + 1) / 4 = p / 2 + 1 := by omega
  rw [← Nat.mul_mod, ← pow_add, hexponent, pow_succ]

section Residues

variable {p a : Nat}

theorem mod_eq_of_cast_eq {n : Nat} (ha : a < p) (h : (n : ZMod p) = a) : n % p = a := by
  rw [(ZMod.natCast_eq_natCast_iff' n a p).1 h, Nat.mod_eq_of_lt ha]

theorem isSquare_cast_iff [NeZero p] (ha : a < p) : IsSquare (a : ZMod p) ↔ ∃ x, x * x % p = a := by
  constructor
  · rintro ⟨y, hy⟩
    exact ⟨y.val, by rw [← ZMod.val_mul, ← hy, ZMod.val_natCast_of_lt ha]⟩
  · rintro ⟨x, rfl⟩
    exact ⟨x, by simp⟩

variable [Fact p.Prime]

theorem cast_ne_zero_of_lt (h0 : a ≠ 0) (ha : a < p) : (a : ZMod p) ≠ 0 := by
  rw [Ne, ZMod.natCast_eq_zero_iff]
  exact Nat.not_dvd_of_pos_of_lt (Nat.pos_of_ne_zero h0) ha

/-- By Euler's criterion the power `a^((p-1)/2)` of a non-zero square is 1. -/
theorem pow_half_mul_of_square (ha : a < p) (hsquare : ∃ x, x * x % p = a) : a ^ (p / 2) * a % p = a := by
  rcases eq_or_ne a 0 with rfl | h0
  · simp
  · have heuler : (a : ZMod p) ^ (p / 2) = 1 :=
      (ZMod.euler_criterion p (cast_ne_zero_of_lt h0 ha)).1 ((isSquare_cast_iff ha).2 hsquare)
    exact mod_eq_of_cast_eq ha (by rw [Nat.cast_mul, Nat.cast_pow, heuler, one_mul])

/-- By Euler's criterion the power `a^((p-1)/2)` of a non-residue is -1. -/
theorem pow_half_mul_of_nonsquare (ha : a < p) (hnonsquare : ¬ ∃ x, x * x % p = a) : a ^ (p / 2) * a % p = p - a := by
  have h0 : a ≠ 0 := fun h => hnonsquare ⟨0, by simp [h]⟩
  have hne : (a : ZMod p) ≠ 0 := cast_ne_zero_of_lt h0 ha
  have heuler : (a : ZMod p) ^ (p / 2) = -1 :=
    (ZMod.pow_div_two_eq_neg_one_or_one p hne).resolve_left fun h =>
      hnonsquare ((isSquare_cast_iff ha).1 ((ZMod.euler_criterion p hne).2 h))
  refine mod_eq_of_cast_eq (by omega) ?_
  rw [Nat.cast_mul, Nat.cast_pow, heuler, Nat.cast_sub ha.le, ZMod.natCast_self, neg_one_mul, zero_sub]

end Residues

/-- Settles O41: the square of the value is `a^((m-1)/2) * a`, and Euler's criterion gives the power. -/
theorem fsqrtOfASquareIsARoot : Obligations.FsqrtOfASquareIsARoot := by
  unfold Obligations.FsqrtOfASquareIsARoot
  intro s d a m hp hmod ha
  have : Fact (modulusValue s m).Prime := ⟨hp⟩
  obtain ⟨hroot, -⟩ := fsqrtWritesTheRootPower s d a m
  refine ⟨_, hroot hmod ha, rfl, ?_⟩
  rw [valV_written s d (mod_modulusValue_lt hp.pos _) 0, rootPower_mul_self hmod]
  exact ⟨pow_half_mul_of_square ha, pow_half_mul_of_nonsquare ha⟩

end Sys2Proof.Machine
end

section
/-! The curve commands and the group law (spec/41_curve.md). First the points of the statements are the model's valid
points, and what `checkPoint` answers on each kind of point; then one statement for each command; then the group law as
formulas and as a law of the valid points; last scalar multiplication, read off the group of the curve. -/

namespace Sys2Proof.Machine

open Sys2Proof.Expected

/-! ### Points (R140 to R142) -/

theorem curveEq_iff_cast {x y : Nat} : CurveEq x y ↔ (y : ZMod curveP) ^ 2 = (x : ZMod curveP) ^ 3 + 7 := by
  rw [CurveEq, ← ZMod.natCast_eq_natCast_iff']
  push_cast
  rw [← pow_two, ← pow_three']

theorem curveEq_iff_onCurve {x y : Nat} : CurveEq x y ↔ onCurve x y = true :=
  curveEq_iff_cast.trans (onCurve_iff x y).symm

theorem validPoint_fin {x y : Nat} : ValidPoint (.fin x y) ↔ x < curveP ∧ y < curveP ∧ CurveEq x y := by
  simp [ValidPoint]

theorem validPoint_iff_valid {p : Point} : ValidPoint p ↔ p.valid = true := by
  cases p with
  | inf => exact ⟨fun _ => rfl, fun _ => .inl rfl⟩
  | fin x y => simp [validPoint_fin, Point.valid, curveEq_iff_onCurve, and_assoc]

theorem checkPoint_of_validPoint {p : Point} (h : ValidPoint p) : checkPoint p = .ok p :=
  checkPoint_ok (validPoint_iff_valid.1 h)

theorem checkPoint_of_coordinateTooLarge {p : Point} (h : CoordinateTooLarge p) :
    checkPoint p = .error .outOfRange := by
  obtain ⟨x, y, hp, hlarge⟩ := h
  exact checkPoint_error.2 ⟨x, y, hp, .inl ⟨hlarge, rfl⟩⟩

theorem checkPoint_of_offCurve {p : Point} (h : OffCurve p) : checkPoint p = .error .invalidCurvePoint := by
  obtain ⟨x, y, hp, hx, hy, hoff⟩ := h
  rw [curveEq_iff_onCurve, Bool.not_eq_true] at hoff
  exact checkPoint_error.2 ⟨x, y, hp, .inr ⟨hx, hy, hoff, rfl⟩⟩

/-! ### How a command that begins with `checkPoint` completes -/

section Checks

variable {s : State} {p : Point} (f : Point → Except ErrCode Result)

theorem completion_checkPoint_of_validPoint (h : ValidPoint p) :
    completion s (checkPoint p >>= f) = completion s (f p) := by
  rw [checkPoint_of_validPoint h, ok_bind]

theorem completion_checkPoint_of_coordinateTooLarge (h : CoordinateTooLarge p) :
    completion s (checkPoint p >>= f) = .next (finished s 0x01) := by
  rw [checkPoint_of_coordinateTooLarge h, error_bind, completion_error, errNumber]

theorem completion_checkPoint_of_offCurve (h : OffCurve p) :
    completion s (checkPoint p >>= f) = .next (finished s 0x04) := by
  rw [checkPoint_of_offCurve h, error_bind, completion_error, errNumber]

end Checks

/-- A point destination takes the fields of spec/10_state.md R23. -/
theorem withPR_eq_writePR (s : State) (d : PReg) (p : Point) : withPR s d p = writePR s d (PointReg.ofPoint p) := by
  cases p <;> rfl

theorem completion_point (s : State) (d : PReg) (p : Point) :
    completion s (.ok (.point d p)) = .next (finished (withPR s d p) 0) := by
  rw [withPR_eq_writePR]
  rfl

/-- A valid point is read back as it was written. -/
theorem valP_written (s : State) (d : PReg) {p : Point} (hp : ValidPoint p) (c : Byte) :
    valP (finished (withPR s d p) c) d = p := by
  have hread : readPR (finished (withPR s d p) c) d = PointReg.ofPoint p := by
    rw [withPR_eq_writePR]
    exact (readPR_writePR s d d _).trans (if_pos rfl)
  rw [valP, hread]
  cases p with
  | inf => exact value_ofPoint_inf
  | fin x y =>
    obtain ⟨hx, hy, -⟩ := validPoint_fin.1 hp
    exact value_ofPoint_fin (hx.trans curveP_lt) (hy.trans curveP_lt)

/-! ### What each command computes after its checks (R150 to R156) -/

theorem exec_pset (s : State) (d : PReg) (x y : VReg) :
    exec (.pset d x y) s = completion s (checkPoint (.fin (valV s x) (valV s y)) >>= fun a => .ok (.point d a)) := rfl

theorem exec_pinf (s : State) (d : PReg) : exec (.pinf d) s = completion s (.ok (.point d .inf)) := rfl

theorem exec_pgen (s : State) (d : PReg) : exec (.pgen d) s = completion s (.ok (.point d generator)) := rfl

theorem exec_padd (s : State) (d p q : PReg) :
    exec (.padd d p q) s = completion s (checkPoint (valP s p) >>= fun a =>
      checkPoint (valP s q) >>= fun b => .ok (.point d (ptAdd a b))) := rfl

theorem exec_pmul (s : State) (d p : PReg) (k : VReg) :
    exec (.pmul d p k) s = completion s (checkPoint (valP s p) >>= fun a => .ok (.point d (ptMul (valV s k) a))) := rfl

/-- What PGETX and PGETY share: the coordinate that `c` selects of a finite point goes to `V[d]`. -/
def writeCoordinate (d : VReg) (c : Nat × Nat → Nat) (a : Point) : Except ErrCode Result := do
  let xy ← coordinates a
  pure (.data d (c xy))

theorem exec_pgetx (s : State) (d : VReg) (p : PReg) :
    exec (.pgetx d p) s = completion s (checkPoint (valP s p) >>= writeCoordinate d Prod.fst) := rfl

theorem exec_pgety (s : State) (d : VReg) (p : PReg) :
    exec (.pgety d p) s = completion s (checkPoint (valP s p) >>= writeCoordinate d Prod.snd) := rfl

/-! ### The statements on the single commands -/

/-- Settles O42: the three outcomes are those of `checkPoint` on the point of the two coordinates. -/
theorem psetBuildsAValidPoint : Obligations.PsetBuildsAValidPoint := by
  unfold Obligations.PsetBuildsAValidPoint
  intro s d x y
  rw [exec_pset]
  refine ⟨fun hx hy hcurve => ?_, fun hlarge => ?_, fun hx hy hoff => ?_⟩
  · rw [completion_checkPoint_of_validPoint _ (validPoint_fin.2 ⟨hx, hy, hcurve⟩), completion_point]
  · exact completion_checkPoint_of_coordinateTooLarge _ ⟨_, _, rfl, hlarge⟩
  · exact completion_checkPoint_of_offCurve _ ⟨_, _, rfl, hx, hy, hoff⟩

/-- Settles O44: the checks of the two operands in turn. -/
theorem paddWritesTheSum : Obligations.PaddWritesTheSum := by
  unfold Obligations.PaddWritesTheSum
  intro s d p q
  rw [exec_padd]
  refine ⟨fun hp hq => ?_, ?_, ?_⟩
  · rw [completion_checkPoint_of_validPoint _ hp, completion_checkPoint_of_validPoint _ hq, completion_point]
  · rintro (hp | ⟨hp, hq⟩)
    · exact completion_checkPoint_of_coordinateTooLarge _ hp
    · rw [completion_checkPoint_of_validPoint _ hp, completion_checkPoint_of_coordinateTooLarge _ hq]
  · rintro (hp | ⟨hp, hq⟩)
    · exact completion_checkPoint_of_offCurve _ hp
    · rw [completion_checkPoint_of_validPoint _ hp, completion_checkPoint_of_offCurve _ hq]

/-- Settles O45: the check of the point comes first, whatever the scalar. -/
theorem pmulWritesTheMultiple : Obligations.PmulWritesTheMultiple := by
  unfold Obligations.PmulWritesTheMultiple
  intro s d p k
  rw [exec_pmul]
  refine ⟨fun hp => ?_, completion_checkPoint_of_coordinateTooLarge _, completion_checkPoint_of_offCurve _⟩
  rw [completion_checkPoint_of_validPoint _ hp, completion_point]

/-- Settles O46: both commands end as the check of the point does, and on a valid point as `coordinates` does. -/
theorem pgetReadsTheCoordinates : Obligations.PgetReadsTheCoordinates := by
  unfold Obligations.PgetReadsTheCoordinates
  intro s d p
  rw [exec_pgetx, exec_pgety]
  refine ⟨fun x y hp hx hy hcurve => ?_, fun hp => ?_, fun hp => ?_, fun hp => ?_⟩
  · have hvalid : ValidPoint (.fin x y) := validPoint_fin.2 ⟨hx, hy, hcurve⟩
    rw [hp, completion_checkPoint_of_validPoint _ hvalid, completion_checkPoint_of_validPoint _ hvalid]
    exact ⟨completion_data s d x, completion_data s d y⟩
  · have hvalid : ValidPoint .inf := .inl rfl
    rw [hp, completion_checkPoint_of_validPoint _ hvalid, completion_checkPoint_of_validPoint _ hvalid]
    exact ⟨completion_error s .pointAtInfinity, completion_error s .pointAtInfinity⟩
  · exact ⟨completion_checkPoint_of_coordinateTooLarge _ hp, completion_checkPoint_of_coordinateTooLarge _ hp⟩
  · exact ⟨completion_checkPoint_of_offCurve _ hp, completion_checkPoint_of_offCurve _ hp⟩

theorem validPoint_generator : ValidPoint (.fin genX genY) := validPoint_iff_valid.2 generator_valid

/-- Settles O43: the constants are written as any point is, and O46 says what PGETX and PGETY read of them. -/
theorem pinfAndPgenWriteConstants : Obligations.PinfAndPgenWriteConstants := by
  unfold Obligations.PinfAndPgenWriteConstants
  intro s d r
  obtain ⟨hx, hy, hcurve⟩ := validPoint_fin.1 validPoint_generator
  obtain ⟨-, hget, -⟩ := pgetReadsTheCoordinates (finished (withPR s d .inf) 0) r d
  obtain ⟨hinf, -⟩ := hget (valP_written s d (.inl rfl) 0)
  obtain ⟨hget, -⟩ := pgetReadsTheCoordinates (finished (withPR s d (.fin genX genY)) 0) r d
  obtain ⟨hgetx, hgety⟩ := hget genX genY (valP_written s d validPoint_generator 0) hx hy hcurve
  refine ⟨?_, ?_, hinf, ⟨_, hgetx, rfl, ?_⟩, ⟨_, hgety, rfl, ?_⟩⟩
  · rw [exec_pinf, completion_point]
  · rw [exec_pgen, completion_point, generator]
  · exact valV_written _ r (hx.trans curveP_lt) 0
  · exact valV_written _ r (hy.trans curveP_lt) 0

/-! ### The cases of the group law (R145) -/

theorem ptAdd_inf_left (q : Point) : ptAdd .inf q = q := by
  cases q <;> rfl

theorem ptAdd_inf_right (p : Point) : ptAdd p .inf = p := by
  cases p <;> rfl

/-- Case 2: the tangent at a point with `y = 0` is vertical. -/
theorem ptAdd_self_of_y_zero (x : Nat) : ptAdd (.fin x 0) (.fin x 0) = .inf := by
  simp [ptAdd]

/-- Case 3: two points with the same `x` and different `y`. -/
theorem ptAdd_of_y_ne (x : Nat) {y1 y2 : Nat} (h : y1 ≠ y2) : ptAdd (.fin x y1) (.fin x y2) = .inf := by
  simp [ptAdd, h]

/-- Case 4: doubling. -/
theorem ptAdd_self (x : Nat) {y : Nat} (h : y ≠ 0) :
    ptAdd (.fin x y) (.fin x y) = thirdPoint (divMod (3 * (x * x)) (2 * y) curveP) x x y := by
  simp [ptAdd, h]

/-- Case 5: two points with different `x`. -/
theorem ptAdd_of_x_ne {x1 x2 : Nat} (h : x1 ≠ x2) (y1 y2 : Nat) : ptAdd (.fin x1 y1) (.fin x2 y2) =
    thirdPoint (divMod (subMod y2 y1 curveP) (subMod x2 x1 curveP) curveP) x1 x2 y1 := by
  simp [ptAdd, h]

/-- The third point of a line in the field of P, its coordinates reduced. -/
theorem thirdPoint_cast (sl x1 x2 y1 : Nat) : ∃ x3 y3, thirdPoint sl x1 x2 y1 = .fin x3 y3 ∧
    x3 < curveP ∧ y3 < curveP ∧ (x3 : ZMod curveP) = (sl : ZMod curveP) ^ 2 - (x1 + x2) ∧
      (y3 : ZMod curveP) = sl * (x1 - x3) - y1 := by
  refine ⟨_, _, rfl, subMod_lt _ _ curveP_pos, subMod_lt _ _ curveP_pos, ?_, ?_⟩
  · rw [subMod_cast _ _ curveP_pos, Nat.cast_mul, Nat.cast_add, pow_two]
  · rw [subMod_cast _ _ curveP_pos, Nat.cast_mul, subMod_cast x1 _ curveP_pos]

/-- Settles O47: the cases of `ptAdd`, the slopes of cases 4 and 5 read in the field of P. -/
theorem groupLawCases : Obligations.GroupLawCases := by
  unfold Obligations.GroupLawCases
  refine ⟨ptAdd_inf_left, ptAdd_inf_right, ptAdd_self_of_y_zero, fun x _ _ h => ptAdd_of_y_ne x h,
    fun x y hy => ?_, fun x1 y1 x2 y2 hx => ?_⟩
  · obtain ⟨x3, y3, hthird, hx3, hy3, hcastx, hcasty⟩ :=
      thirdPoint_cast (divMod (3 * (x * x)) (2 * y) curveP) x x y
    refine ⟨x3, y3, (ptAdd_self x hy).trans hthird, hx3, hy3, _, ?_, ?_, hcasty⟩
    · rw [divMod_cast]
      push_cast
      rw [pow_two]
    · rw [hcastx, ← two_mul (x : ZMod curveP)]
  · obtain ⟨x3, y3, hthird, hx3, hy3, hcastx, hcasty⟩ :=
      thirdPoint_cast (divMod (subMod y2 y1 curveP) (subMod x2 x1 curveP) curveP) x1 x2 y1
    refine ⟨x3, y3, (ptAdd_of_x_ne hx y1 y2).trans hthird, hx3, hy3, _, ?_, ?_, hcasty⟩
    · rw [divMod_cast, subMod_cast _ _ curveP_pos, subMod_cast _ _ curveP_pos]
    · rw [hcastx, sub_add_eq_sub_sub]

/-! ### The group law on valid points (R146) -/

section Field

variable [Fact curveP.Prime]

theorem exists_represents {p : Point} (hp : ValidPoint p) : ∃ A, Represents p A :=
  (valid_iff_represents p).1 (validPoint_iff_valid.1 hp)

theorem validPoint_ptAdd {p q : Point} (hp : ValidPoint p) (hq : ValidPoint q) : ValidPoint (ptAdd p q) := by
  obtain ⟨A, hA⟩ := exists_represents hp
  obtain ⟨B, hB⟩ := exists_represents hq
  exact validPoint_iff_valid.2 (hA.add hB).valid

/-- `-7` is no cube mod P: the cube of a unit has the `(P - 1) / 3`-th power 1, and that of `-7` is not 1. -/
theorem cube_add_seven_ne_zero (x : ZMod curveP) : x ^ 3 + 7 ≠ 0 := by
  intro h
  have hcube : x ^ 3 = ((curveP - 7 : ℕ) : ZMod curveP) := by
    rw [Nat.cast_sub (by decide), ZMod.natCast_self, zero_sub]
    exact eq_neg_of_add_eq_zero_left h
  have hx : x ≠ 0 := by
    rintro rfl
    exact natCast_ne_zero_of_lt (n := curveP - 7) (by decide) (by decide) (hcube.symm.trans (zero_pow three_ne_zero))
  have hone : (powmod (curveP - 7) ((curveP - 1) / 3) curveP : ZMod curveP) = (1 : ℕ) := by
    rw [powmod_cast, ← hcube, ← pow_mul, show 3 * ((curveP - 1) / 3) = curveP - 1 by decide,
      ZMod.pow_card_sub_one_eq_one hx, Nat.cast_one]
  have hpow : powmod (curveP - 7) ((curveP - 1) / 3) curveP ≠ 1 := by decide +kernel
  exact hpow (natCast_inj_of_lt (powmod_lt _ _ curveP_pos) (by decide) hone)

theorem y_ne_zero_of_validPoint {x y : Nat} (h : ValidPoint (.fin x y)) : y ≠ 0 := by
  rintro rfl
  obtain ⟨-, -, hcurve⟩ := validPoint_fin.1 h
  have heq : (0 : ZMod curveP) = (x : ZMod curveP) ^ 3 + 7 := by
    simpa using curveEq_iff_cast.1 hcurve
  exact cube_add_seven_ne_zero _ heq.symm

end Field

theorem two_mul_mod_ne_zero {y : Nat} (h0 : y ≠ 0) (hy : y < curveP) : 2 * y % curveP ≠ 0 := fun h =>
  have hdvd : curveP ∣ y := (by decide : Nat.Coprime curveP 2).dvd_of_dvd_mul_left (Nat.dvd_of_mod_eq_zero h)
  absurd (Nat.le_of_dvd (Nat.pos_of_ne_zero h0) hdvd) (Nat.not_le.2 hy)

theorem subMod_ne_zero {a b m : Nat} (hab : a ≠ b) (ha : a < m) (hb : b < m) : subMod a b m ≠ 0 := by
  rcases Nat.lt_or_gt_of_ne hab with h | h
  · rw [subMod_of_lt h hb]
    omega
  · rw [subMod_of_le h.le ha]
    omega

/-- The curve equation does not see the sign of `y`. -/
theorem curveEq_sub {x y : Nat} (hy : y ≤ curveP) (h : CurveEq x y) : CurveEq x (curveP - y) := by
  rw [curveEq_iff_cast, Nat.cast_sub hy, ZMod.natCast_self, zero_sub, neg_sq]
  exact curveEq_iff_cast.1 h

/-- Settles O48: closure is the group's, `y = 0` would make `-7` a cube, and the negation has the other square root. -/
theorem pointAdditionStaysOnTheCurve : Obligations.PointAdditionStaysOnTheCurve := by
  unfold Obligations.PointAdditionStaysOnTheCurve
  have : Fact curveP.Prime := ⟨prime_curveP⟩
  refine ⟨fun p q => validPoint_ptAdd, fun x y h => ?_, fun x1 y1 x2 y2 h1 h2 hx => ?_, fun x y h => ?_⟩
  · obtain ⟨-, hy, -⟩ := validPoint_fin.1 h
    have h0 : y ≠ 0 := y_ne_zero_of_validPoint h
    exact ⟨h0, two_mul_mod_ne_zero h0 hy⟩
  · obtain ⟨hx1, -⟩ := validPoint_fin.1 h1
    obtain ⟨hx2, -⟩ := validPoint_fin.1 h2
    exact subMod_ne_zero hx.symm hx2 hx1
  · obtain ⟨hx, hy, hcurve⟩ := validPoint_fin.1 h
    have h0 : y ≠ 0 := y_ne_zero_of_validPoint h
    have hodd : curveP % 2 = 1 := by decide
    rw [Nat.mod_eq_of_lt (show curveP - y < curveP by omega)]
    exact ⟨validPoint_fin.2 ⟨hx, by omega, curveEq_sub hy.le hcurve⟩, ptAdd_of_y_ne x (by omega)⟩

/-! ### Scalar multiplication (R147) -/

/-- One iteration of the loop of R147, on the pair of `result` and `current`. -/
def doubleAndAddStep (k : Nat) (rc : Point × Point) (i : Nat) : Point × Point :=
  (if k.testBit i then ptAdd rc.1 rc.2 else rc.1, ptAdd rc.2 rc.2)

theorem doubleAndAdd_eq_foldl (k : Nat) (p : Point) :
    doubleAndAdd k p = ((List.range 256).foldl (doubleAndAddStep k) (.inf, p)).1 := rfl

theorem doubleAndAddStep_zero (k : Nat) (rc : Point × Point) :
    doubleAndAddStep k rc 0 = (if k % 2 = 1 then ptAdd rc.1 rc.2 else rc.1, ptAdd rc.2 rc.2) := by
  simp only [doubleAndAddStep, Nat.testBit_zero, decide_eq_true_eq]

theorem doubleAndAddStep_succ (k : Nat) (rc : Point × Point) (i : Nat) :
    doubleAndAddStep k rc (i + 1) = doubleAndAddStep (k / 2) rc i := by
  simp only [doubleAndAddStep, Nat.testBit_succ]

/-- After the highest set bit `result` does not change: the model may stop there. -/
theorem foldl_doubleAndAddStep_zero (is : List Nat) (rc : Point × Point) :
    (is.foldl (doubleAndAddStep 0) rc).1 = rc.1 := by
  induction is generalizing rc with
  | nil => rfl
  | cons i is ih => simp [ih, doubleAndAddStep]

theorem ptMulBits_eq_foldl (n k : Nat) (r c : Point) :
    ptMulBits n k r c = ((List.range n).foldl (doubleAndAddStep k) (r, c)).1 := by
  induction n generalizing k r c with
  | zero => rfl
  | succ n ih =>
    by_cases h0 : k = 0
    · rw [ptMulBits, if_pos h0, h0, foldl_doubleAndAddStep_zero]
    · rw [ptMulBits, if_neg h0, ih, List.range_succ_eq_map, List.foldl_cons, List.foldl_map, doubleAndAddStep_zero]
      simp only [Nat.succ_eq_add_one, doubleAndAddStep_succ]

theorem ptMulBits_inf (n k : Nat) : ptMulBits n k .inf .inf = .inf := by
  induction n generalizing k with
  | zero => rfl
  | succ n ih => simp [ptMulBits, ptAdd_inf_left, ih]

section Field

variable [Fact curveP.Prime]

theorem Represents.foldSum {p : Point} {A : secpCurve.Point} (hp : Represents p A) (k : Nat) :
    Represents (foldSum p k) (k • A) := by
  induction k with
  | zero =>
    rw [zero_nsmul]
    exact represents_inf
  | succ k ih =>
    rw [succ_nsmul]
    exact ih.add hp

end Field

/-- Settles O49: the loop by induction on the bits, the k-fold sum by the multiple that both stand for in the group. -/
theorem scalarMultiplicationIsDoubleAndAdd : Obligations.ScalarMultiplicationIsDoubleAndAdd := by
  unfold Obligations.ScalarMultiplicationIsDoubleAndAdd
  have : Fact curveP.Prime := ⟨prime_curveP⟩
  refine ⟨fun k p _ => ptMulBits_eq_foldl 256 k .inf p, fun p => rfl, ptMulBits_inf 256, fun k p hk hp => ?_⟩
  obtain ⟨A, hA⟩ := exists_represents hp
  exact (hA.mul hk).unique (hA.foldSum k)

/-! ### The laws of scalar multiplication (R148) -/

theorem Represents.nsmul_eq_zero_iff [Fact curveP.Prime] {k : Nat} {p : Point} {A : secpCurve.Point}
    (hp : Represents p A) (hk : k < 2 ^ 256) : k • A = 0 ↔ ptMul k p = .inf :=
  (hp.mul hk).eq_zero_iff

/-- `N * G = Inf`, by running the loop on the two constants. -/
theorem ptMul_orderN_generator : ptMul orderN generator = .inf := by decide +kernel

theorem orderN_nsmul_generator [Fact curveP.Prime] {A : secpCurve.Point} (hA : Represents generator A) :
    orderN • A = 0 :=
  (hA.nsmul_eq_zero_iff orderN_lt).2 ptMul_orderN_generator

/-- Settles O50: each law is one of multiples in the group. -/
theorem scalarMultiplicationLaws : Obligations.ScalarMultiplicationLaws := by
  unfold Obligations.ScalarMultiplicationLaws
  have : Fact curveP.Prime := ⟨prime_curveP⟩
  refine ⟨fun p hp => ?_, fun k1 k2 p hp hk => ?_, ptMul_orderN_generator, fun k hk => ?_⟩
  · obtain ⟨A, hA⟩ := exists_represents hp
    have hmul := hA.mul (k := 1) (by decide)
    rw [one_nsmul] at hmul
    exact hmul.unique hA
  · obtain ⟨A, hA⟩ := exists_represents hp
    have hsum := (hA.mul (k := k1) (by omega)).add (hA.mul (k := k2) (by omega))
    rw [← add_nsmul] at hsum
    exact (hA.mul hk).unique hsum
  · obtain ⟨A, hA⟩ := exists_represents validPoint_generator
    have hmod := hA.mul (k := k % orderN) ((Nat.mod_lt _ orderN_pos).trans orderN_lt)
    rw [← nsmul_eq_mod_nsmul k (orderN_nsmul_generator hA)] at hmod
    exact (hA.mul hk).unique hmod

end Sys2Proof.Machine
end

section
/-! The ECDSA commands (spec/42_ecdsa.md). First the nonce loop as a search among the candidates of R173; then NONCE and
SIGN, as the checks they share and what each computes after them; then the multiples of G, a group of order N, so that
the points of KPUB and SIGN are finite; then VERIFY, whose point is one multiple of G; last the two laws of verification,
by arithmetic modulo N. -/

namespace Sys2Proof.Machine

open Sys2Proof.Expected

/-! ### The nonce loop (R173) -/

/-- Candidate number `i` of the loop of R173 entered with `K`, `V` = `kv`. -/
def candidateFrom (u : HmacUnit) (kv : Bytes32 × Bytes32) (i : Nat) : Nat :=
  let kvi := (nonceRetry u)^[i] kv
  os2ip (hmacAnswer u kvi.1.toList kvi.2.toList).toList

theorem candidateFrom_succ (u : HmacUnit) (kv : Bytes32 × Bytes32) (i : Nat) :
    candidateFrom u kv (i + 1) = candidateFrom u (nonceRetry u kv) i := rfl

theorem nonceLoop_succ (u : HmacUnit) (n : Nat) (kv : Bytes32 × Bytes32) :
    nonceLoop u (n + 1) kv.1 kv.2 =
      if 1 ≤ candidateFrom u kv 0 ∧ candidateFrom u kv 0 < orderN then some (candidateFrom u kv 0)
      else nonceLoop u n (nonceRetry u kv).1 (nonceRetry u kv).2 := rfl

theorem detK_eq_nonceLoop (u : HmacUnit) (maxIter d z : Nat) :
    detK u maxIter d z = nonceLoop u maxIter (nonceStart u d z).1 (nonceStart u d z).2 := by
  simp [detK, nonceStart]

/-- A candidate is a nonce: it lies in `[1, N)` (R173). -/
def isNonce (k : Nat) : Bool := decide (1 ≤ k ∧ k < orderN)

theorem isNonce_iff {k : Nat} : isNonce k = true ↔ 1 ≤ k ∧ k < orderN := decide_eq_true_iff

theorem not_isNonce_iff {k : Nat} : (!isNonce k) = true ↔ ¬ (1 ≤ k ∧ k < orderN) := by
  rw [Bool.not_eq_true', ← Bool.not_eq_true, isNonce_iff]

/-- The loop answers the candidate at the first index whose candidate is a nonce. -/
theorem nonceLoop_eq_find? (u : HmacUnit) (n : Nat) (kv : Bytes32 × Bytes32) :
    nonceLoop u n kv.1 kv.2 =
      ((List.range n).find? fun i => isNonce (candidateFrom u kv i)).map (candidateFrom u kv) := by
  induction n generalizing kv with
  | zero => rfl
  | succ n ih =>
    rw [nonceLoop_succ, List.range_succ_eq_map, List.find?_cons]
    by_cases h : isNonce (candidateFrom u kv 0) = true
    · rw [if_pos (isNonce_iff.1 h), h, Option.map_some]
    · rw [if_neg (mt isNonce_iff.2 h), Bool.eq_false_of_not_eq_true h, List.find?_map, Option.map_map, ih]
      simp only [Function.comp_def, Nat.succ_eq_add_one, candidateFrom_succ]

theorem detK_eq_find? (u : HmacUnit) (maxIter d z : Nat) :
    detK u maxIter d z =
      ((List.range maxIter).find? fun i => isNonce (nonceCandidate u d z i)).map (nonceCandidate u d z) :=
  (detK_eq_nonceLoop u maxIter d z).trans (nonceLoop_eq_find? u maxIter (nonceStart u d z))

/-- Settles O52: `detK` searches the candidates in their order. -/
theorem nonceIsTheFirstCandidateInRange : Obligations.NonceIsTheFirstCandidateInRange := by
  unfold Obligations.NonceIsTheFirstCandidateInRange
  intro u maxIter d z
  simp only [detK_eq_find?, Option.map_eq_some_iff, Option.map_eq_none_iff, List.find?_range_eq_some,
    List.find?_range_eq_none, List.mem_range, isNonce_iff, not_isNonce_iff]
  refine ⟨fun k => ⟨?_, ?_⟩, trivial⟩
  · rintro ⟨i, ⟨⟨hpos, hlt⟩, hi, hfirst⟩, rfl⟩
    exact ⟨i, hi, rfl, hpos, hlt, hfirst⟩
  · rintro ⟨i, hi, rfl, hpos, hlt, hfirst⟩
    exact ⟨i, ⟨⟨hpos, hlt⟩, hi, hfirst⟩, rfl⟩

theorem detK_range {u : HmacUnit} {maxIter d z k : Nat} (h : detK u maxIter d z = some k) : 1 ≤ k ∧ k < orderN := by
  obtain ⟨hsome, -⟩ := nonceIsTheFirstCandidateInRange u maxIter d z
  obtain ⟨_, -, -, hpos, hlt, -⟩ := (hsome k).1 h
  exact ⟨hpos, hlt⟩

/-- The digest enters the derivation reduced modulo N (R171, R173). -/
theorem detK_add_orderN (u : HmacUnit) (maxIter d z : Nat) : detK u maxIter d (z + orderN) = detK u maxIter d z := by
  simp only [detK, Nat.add_mod_right]

/-! ### The key and its nonce, which NONCE and SIGN check alike (R170, R175) -/

/-- What NONCE and SIGN share: the key is checked and its nonce `n` derived, then the command computes `f key n`. -/
def withNonce (s : State) (d z : VReg) (f : Nat → Nat → Except ErrCode Result) : Except ErrCode Result := do
  let key ← privateKey s d
  let n ← nonceOperand s key (valV s z)
  f key n

theorem nonceOperand_ok {s : State} {d z n : Nat} (h : NonceIs s d z n) : nonceOperand s d z = .ok n := by
  unfold NonceIs at h
  rw [nonceOperand, h]

theorem nonceOperand_error {s : State} {d z : Nat} (h : NonceFails s d z) :
    nonceOperand s d z = .error .nonceExhausted := by
  unfold NonceFails at h
  rw [nonceOperand, h]

theorem nonceIs_or_nonceFails (s : State) (d z : Nat) : (∃ n, NonceIs s d z n) ∨ NonceFails s d z := by
  cases h : detK s.cfg.hmac s.cfg.nonceMaxIter d z with
  | some n => exact .inl ⟨n, h⟩
  | none => exact .inr h

section Checks

variable {s : State} {d z : VReg} (f : Nat → Nat → Except ErrCode Result)

theorem completion_withNonce_of_nonceIs {n : Nat} (h0 : 0 < valV s d) (hN : valV s d < orderN)
    (hn : NonceIs s (valV s d) (valV s z) n) :
    completion s (withNonce s d z f) = completion s (f (valV s d) n) := by
  rw [withNonce, privateKey_ok h0 hN, ok_bind, nonceOperand_ok hn, ok_bind]

theorem completion_withNonce_of_nonceFails (h0 : 0 < valV s d) (hN : valV s d < orderN)
    (hn : NonceFails s (valV s d) (valV s z)) :
    completion s (withNonce s d z f) = .next (finished s 0x13) := by
  rw [withNonce, privateKey_ok h0 hN, ok_bind, nonceOperand_error hn, error_bind, completion_error, errNumber]

theorem completion_withNonce_of_badKey (h : valV s d = 0 ∨ orderN ≤ valV s d) :
    completion s (withNonce s d z f) = .next (finished s 0x01) := by
  rw [withNonce, privateKey_error h, error_bind, completion_error, errNumber]

end Checks

theorem exec_nonce (s : State) (k d z : VReg) :
    exec (.nonce k d z) s = completion s (withNonce s d z fun _ n => .ok (.data k n)) := rfl

/-- Settles O53: the checks shared with SIGN, then O52 for the range of the nonce. -/
theorem nonceWritesTheNonce : Obligations.NonceWritesTheNonce := by
  unfold Obligations.NonceWritesTheNonce
  intro s k d z
  rw [exec_nonce]
  refine ⟨fun n h0 hN hn => ?_, completion_withNonce_of_nonceFails _, completion_withNonce_of_badKey _,
    detK_add_orderN _ _ _⟩
  rw [completion_withNonce_of_nonceIs _ h0 hN hn, completion_data]
  exact ⟨rfl, detK_range hn⟩

/-! ### SIGN (R176 to R178) -/

/-- What SIGN computes from a key `key` and its nonce `n` (R176). -/
def signWith (s : State) (r z sReg : VReg) (key n : Nat) : Except ErrCode Result := do
  let raw := rawSignature n key (valV s z)
  check (raw.1 != 0 && raw.2 != 0) .signatureDegenerate
  pure (.signature r raw.1 sReg (lowS raw.2))

theorem exec_sign (s : State) (r d z sReg : VReg) :
    exec (.sign r d z sReg) s = completion s (withNonce s d z (signWith s r z sReg)) := rfl

theorem rawSignature_of_fin {n x y : Nat} (h : ptMul n generator = .fin x y) (d z : Nat) :
    rawSignature n d z = (x % orderN, rawS n d z (x % orderN)) := by
  rw [rawSignature, h, powmod_eq, rawS, Point.xCoord]

theorem completion_signature (s : State) (dr : VReg) (r : Nat) (ds : VReg) (sv : Nat) :
    completion s (.ok (.signature dr r ds sv)) = .next (finished (withV (withV s dr r) ds sv) 0) := rfl

section Signature

variable {s : State} {n x y key : Nat} {z : VReg} (hR : ptMul n generator = .fin x y) (r sReg : VReg)

include hR

theorem completion_signWith_of_ne_zero (hr : x % orderN ≠ 0) (hs : rawS n key (valV s z) (x % orderN) ≠ 0) :
    completion s (signWith s r z sReg key n) = .next (finished (withV (withV s r (x % orderN)) sReg
      (lowS (rawS n key (valV s z) (x % orderN)))) 0) := by
  simp only [signWith, rawSignature_of_fin hR, bne_iff_ne.2 hr, bne_iff_ne.2 hs, Bool.and_self, check_true, ok_bind,
    pure_eq_ok, completion_signature]

theorem completion_signWith_of_zero (h : x % orderN = 0 ∨ rawS n key (valV s z) (x % orderN) = 0) :
    completion s (signWith s r z sReg key n) = .next (finished s 0x14) := by
  have hcheck : (x % orderN != 0 && rawS n key (valV s z) (x % orderN) != 0) = false := by
    rcases h with h | h <;> simp [h]
  simp only [signWith, rawSignature_of_fin hR, hcheck, check_false, error_bind, completion_error, errNumber]

end Signature

/-- Settles O54: the checks shared with NONCE, then the two values and their zero check. -/
theorem signWritesTheSignature : Obligations.SignWritesTheSignature := by
  unfold Obligations.SignWritesTheSignature
  intro s r d z sReg _
  rw [exec_sign]
  refine ⟨fun n x y h0 hN hn hR hr hs => ?_, fun n x y h0 hN hn hR hzero => ?_,
    completion_withNonce_of_nonceFails _, completion_withNonce_of_badKey _⟩
  · rw [completion_withNonce_of_nonceIs _ h0 hN hn, completion_signWith_of_ne_zero hR r sReg hr hs, lowS, halfN]
  · rw [completion_withNonce_of_nonceIs _ h0 hN hn, completion_signWith_of_zero hR r sReg hzero]

/-! ### The multiples of G: the cyclic group of order N -/

section Field

variable [Fact curveP.Prime]

theorem exists_represents_generator : ∃ A, Represents generator A := exists_represents validPoint_generator

variable [Fact orderN.Prime] {A : secpCurve.Point}

theorem addOrderOf_generator (hA : Represents generator A) : addOrderOf A = orderN :=
  addOrderOf_eq_prime (orderN_nsmul_generator hA) fun h0 => Point.noConfusion (hA.eq_zero_iff.1 h0)

theorem nsmul_generator_eq_zero_iff (hA : Represents generator A) {k : Nat} : k • A = 0 ↔ orderN ∣ k := by
  rw [← addOrderOf_generator hA, addOrderOf_dvd_iff_nsmul_eq_zero]

end Field

theorem mod_orderN_lt (k : Nat) : k % orderN < 2 ^ 256 := (Nat.mod_lt k orderN_pos).trans orderN_lt

/-- No multiple of G by a scalar in `[1, N)` is Inf (R172, R176). -/
theorem ptMul_generator_ne_inf {k : Nat} (h0 : 0 < k) (hN : k < orderN) : ptMul k generator ≠ .inf := by
  have : Fact curveP.Prime := ⟨prime_curveP⟩
  have : Fact orderN.Prime := ⟨prime_orderN⟩
  obtain ⟨A, hA⟩ := exists_represents_generator
  rw [Ne, ← hA.nsmul_eq_zero_iff (hN.trans orderN_lt), nsmul_generator_eq_zero_iff hA]
  exact Nat.not_dvd_of_pos_of_lt h0 hN

theorem validPoint_ptMul_generator {k : Nat} (hk : k < 2 ^ 256) : ValidPoint (ptMul k generator) := by
  have : Fact curveP.Prime := ⟨prime_curveP⟩
  obtain ⟨A, hA⟩ := exists_represents_generator
  exact validPoint_iff_valid.2 (hA.mul hk).valid

theorem exec_kpub (s : State) (d : PReg) (k : VReg) :
    exec (.kpub d k) s = completion s (privateKey s k >>= fun key => .ok (.point d (ptMul key generator))) := rfl

/-- Settles O51: the key check, and the order of G for the finiteness. -/
theorem kpubWritesThePublicKey : Obligations.KpubWritesThePublicKey := by
  unfold Obligations.KpubWritesThePublicKey
  intro s d k
  rw [exec_kpub]
  refine ⟨fun h0 hN => ⟨?_, ptMul_generator_ne_inf h0 hN⟩, fun h => ?_⟩
  · rw [privateKey_ok h0 hN, ok_bind, completion_point, generator]
  · rw [privateKey_error h, error_bind, completion_error, errNumber]

/-- The sum `u * G + t * (d * G)` is one multiple of G. -/
theorem ptAdd_ptMul_generator {u t d : Nat} (hu : u < 2 ^ 256) (ht : t < 2 ^ 256) (hd : d < 2 ^ 256) :
    ptAdd (ptMul u generator) (ptMul t (ptMul d generator)) = ptMul ((u + t * d) % orderN) generator := by
  have : Fact curveP.Prime := ⟨prime_curveP⟩
  obtain ⟨A, hA⟩ := exists_represents_generator
  have hsum := (hA.mul hu).add ((hA.mul hd).mul ht)
  rw [smul_smul, ← add_smul, nsmul_eq_mod_nsmul _ (orderN_nsmul_generator hA)] at hsum
  exact hsum.unique (hA.mul (mod_orderN_lt _))

/-! ### What a successful SIGN leaves -/

/-- What an error-free SIGN from `s` to `t` was: the nonce `n`, its point `Fin(x, y)`, and the two values written. -/
structure SignedWith (s t : State) (r d z sReg : VReg) (n x y : Nat) : Prop where
  key_pos : 0 < valV s d
  key_lt : valV s d < orderN
  nonce : NonceIs s (valV s d) (valV s z) n
  point : ptMul n generator = .fin x y
  r_ne_zero : x % orderN ≠ 0
  s_ne_zero : rawS n (valV s d) (valV s z) (x % orderN) ≠ 0
  valV_r : valV t r = x % orderN
  valV_s : valV t sReg = lowS (rawS n (valV s d) (valV s z) (x % orderN))

theorem lowS_pos {sv : Nat} (h0 : sv ≠ 0) (hN : sv < orderN) : 0 < lowS sv := by
  unfold lowS
  split <;> omega

theorem lowS_le {sv : Nat} (hN : sv < orderN) : lowS sv ≤ orderN / 2 := by
  have hodd : orderN % 2 = 1 := by decide
  unfold lowS halfN
  split <;> omega

theorem rawS_lt (n d z r : Nat) : rawS n d z r < orderN := Nat.mod_lt _ orderN_pos

/-- The signature registers after SIGN: both values are read back where the registers differ. -/
theorem valV_signature (s : State) {r sReg : VReg} (hne : r ≠ sReg) {rv sv : Nat} (hr : rv < 2 ^ 256)
    (hs : sv < 2 ^ 256) :
    valV (finished (withV (withV s r rv) sReg sv) 0) r = rv ∧
      valV (finished (withV (withV s r rv) sReg sv) 0) sReg = sv := by
  refine ⟨?_, valV_written _ sReg hs 0⟩
  rw [valV, readV_finished_withV, if_neg hne.symm]
  exact valV_written s r hr 0

/-- SIGN completes with code 0 only past all its checks (R176, R178). -/
theorem signedWith_of_exec_sign {s t : State} {r d z sReg : VReg} (hne : r ≠ sReg)
    (hexec : exec (.sign r d z sReg) s = .next t) (hcode : t.errcode = 0) :
    ∃ n x y, SignedWith s t r d z sReg n x y := by
  obtain ⟨hok, hdegenerate, hfails, hbad⟩ := signWritesTheSignature s r d z sReg hne
  have hnot : ∀ {c : Byte}, c ≠ 0 → exec (.sign r d z sReg) s ≠ .next (finished s c) := by
    intro c hc h
    obtain rfl : t = _ := Host.Outcome.next.inj (hexec.symm.trans h)
    exact hc hcode
  have hkey : ¬ (valV s d = 0 ∨ orderN ≤ valV s d) := fun h => hnot (by decide) (hbad h)
  have h0 : 0 < valV s d := by omega
  have hN : valV s d < orderN := by omega
  obtain ⟨n, hn⟩ := (nonceIs_or_nonceFails s (valV s d) (valV s z)).resolve_right
    fun h => hnot (by decide) (hfails h0 hN h)
  obtain ⟨hpos, hlt⟩ := detK_range hn
  cases hR : ptMul n generator with
  | inf => exact absurd hR (ptMul_generator_ne_inf hpos hlt)
  | fin x y =>
    have hzero : ¬ (x % orderN = 0 ∨ rawS n (valV s d) (valV s z) (x % orderN) = 0) :=
      fun h => hnot (by decide) (hdegenerate n x y h0 hN hn hR h)
    obtain ⟨hr, hs⟩ := not_or.1 hzero
    obtain rfl : t = _ := Host.Outcome.next.inj (hexec.symm.trans (hok n x y h0 hN hn hR hr hs))
    obtain ⟨hvr, hvs⟩ := valV_signature s hne (mod_orderN_lt x)
      (sv := lowS (rawS n (valV s d) (valV s z) (x % orderN)))
      ((lowS_le (rawS_lt _ _ _ _)).trans_lt (by decide))
    exact ⟨n, x, y, h0, hN, hn, hR, hr, hs, hvr, hvs⟩

/-- Settles O55: both values were checked to be non-zero, and the low-s rule halves the range of s. -/
theorem signaturesAreInRangeAndLowS : Obligations.SignaturesAreInRangeAndLowS := by
  unfold Obligations.SignaturesAreInRangeAndLowS
  intro s t r d z sReg hne hexec hcode
  obtain ⟨n, x, y, hsigned⟩ := signedWith_of_exec_sign hne hexec hcode
  rw [hsigned.valV_r, hsigned.valV_s]
  exact ⟨Nat.pos_of_ne_zero hsigned.r_ne_zero, Nat.mod_lt _ orderN_pos, lowS_pos hsigned.s_ne_zero (rawS_lt _ _ _ _),
    lowS_le (rawS_lt _ _ _ _)⟩

/-! ### VERIFY (R180, R181) -/

/-- The point `X = u * G + v * Q` whose x coordinate VERIFY compares (R180). -/
def verifyPoint (q : Point) (z r sv : Nat) : Point :=
  ptAdd (ptMul (z * (sv ^ (orderN - 2) % orderN) % orderN) generator)
    (ptMul (r * (sv ^ (orderN - 2) % orderN) % orderN) q)

/-- The point is finite and its x coordinate modulo N is `r` (R180). -/
def xMatches (r : Nat) : Point → Bool
  | .inf => false
  | .fin x _ => x % orderN == r

theorem verifyVerdict_of_precheck {q : Point} {z r sv : Nat} (h : orderN ≤ r ∨ orderN ≤ sv ∨ sv = 0 ∨ q = .inf) :
    verifyVerdict q z r sv = false := by
  rw [verifyVerdict, if_neg]
  rintro ⟨hq, hr, hs, h0⟩
  simp [hq, h0, Nat.not_le.2 hr, Nat.not_le.2 hs] at h

theorem verifyVerdict_eq_xMatches {q : Point} {r sv : Nat} (hq : q ≠ .inf) (hr : r < orderN) (hs : sv < orderN)
    (h0 : sv ≠ 0) (z : Nat) : verifyVerdict q z r sv = xMatches r (verifyPoint q z r sv) := by
  rw [verifyVerdict, if_pos ⟨hq, hr, hs, h0⟩, powmod_eq, verifyPoint]
  dsimp only
  generalize ptAdd _ _ = X
  cases X <;> rfl

theorem exec_verify (s : State) (q : PReg) (z r sReg : VReg) :
    exec (.verify q z r sReg) s = completion s (checkPoint (valP s q) >>= fun key =>
      .ok (.verdict (verifyVerdict key (valV s z) (valV s r) (valV s sReg)))) := rfl

theorem exec_verify_of_validPoint {s : State} {q : PReg} (hq : ValidPoint (valP s q)) (z r sReg : VReg) :
    exec (.verify q z r sReg) s = .next (finished
      { s with valid := verifyVerdict (valP s q) (valV s z) (valV s r) (valV s sReg) } 0) :=
  (exec_verify s q z r sReg).trans (completion_checkPoint_of_validPoint _ hq)

/-- On a valid public key VERIFY completes without error (spec/60_exceptions.md R202). -/
theorem errcode_of_exec_verify {s t : State} {q : PReg} {z r sReg : VReg} (hq : ValidPoint (valP s q))
    (hexec : exec (.verify q z r sReg) s = .next t) : t.errcode = 0 := by
  obtain rfl : t = _ := Host.Outcome.next.inj (hexec.symm.trans (exec_verify_of_validPoint hq z r sReg))
  rfl

/-- Settles O57: a pre-check that fails, or an infinite sum after all of them, gives the verdict false. -/
theorem verifyRejectsWithoutError : Obligations.VerifyRejectsWithoutError := by
  unfold Obligations.VerifyRejectsWithoutError
  intro s q z r sReg
  refine ⟨fun hq hreject => ?_, ?_, ?_⟩
  · rw [exec_verify_of_validPoint hq]
    have hverdict : verifyVerdict (valP s q) (valV s z) (valV s r) (valV s sReg) = false := by
      by_cases hpre : orderN ≤ valV s r ∨ orderN ≤ valV s sReg ∨ valV s sReg = 0 ∨ valP s q = .inf
      · exact verifyVerdict_of_precheck hpre
      · have hsum : verifyPoint (valP s q) (valV s z) (valV s r) (valV s sReg) = .inf := by tauto
        simp only [not_or, Nat.not_le] at hpre
        obtain ⟨hr, hs, h0, hne⟩ := hpre
        rw [verifyVerdict_eq_xMatches hne hr hs h0, hsum, xMatches]
    rw [hverdict]
  · exact completion_checkPoint_of_coordinateTooLarge _
  · exact completion_checkPoint_of_offCurve _

/-! ### The scalar of the point VERIFY computes, modulo N -/

/-- For the public key `d * G`, VERIFY's point is this multiple of G. -/
def verifyScalar (d z r sv : Nat) : Nat :=
  (z * (sv ^ (orderN - 2) % orderN) % orderN + r * (sv ^ (orderN - 2) % orderN) % orderN * d) % orderN

theorem verifyScalar_lt (d z r sv : Nat) : verifyScalar d z r sv < 2 ^ 256 :=
  mod_orderN_lt _

theorem verifyPoint_of_key {d : Nat} (hd : d < 2 ^ 256) (z r sv : Nat) :
    verifyPoint (ptMul d generator) z r sv = ptMul (verifyScalar d z r sv) generator :=
  ptAdd_ptMul_generator (mod_orderN_lt _) (mod_orderN_lt _) hd

section Residues

variable [Fact orderN.Prime]

/-- The power `N - 2` is the inverse, of zero too (R176, R180). -/
theorem pow_orderN_sub_two_eq_inv (b : ZMod orderN) : b ^ (orderN - 2) = b⁻¹ := by
  rcases eq_or_ne b 0 with rfl | hb
  · rw [zero_pow (by decide), inv_zero]
  · have h1 : b ^ (orderN - 2) * b = 1 := by
      rw [← pow_succ, show orderN - 2 + 1 = orderN - 1 by decide]
      exact ZMod.pow_card_sub_one_eq_one hb
    exact eq_inv_of_mul_eq_one_left h1

theorem verifyScalar_cast (d z r sv : Nat) :
    (verifyScalar d z r sv : ZMod orderN) = ((z : ZMod orderN) + r * d) * (sv : ZMod orderN)⁻¹ := by
  simp only [verifyScalar, ZMod.natCast_mod, Nat.cast_add, Nat.cast_mul, Nat.cast_pow, pow_orderN_sub_two_eq_inv]
  ring

theorem rawS_cast (n d z r : Nat) :
    (rawS n d z r : ZMod orderN) = (n : ZMod orderN)⁻¹ * ((z : ZMod orderN) + r * d) := by
  simp only [rawS, ZMod.natCast_mod, Nat.cast_add, Nat.cast_mul, Nat.cast_pow, pow_orderN_sub_two_eq_inv]

end Residues

theorem orderN_sub_cast {sv : Nat} (h : sv ≤ orderN) : ((orderN - sv : ℕ) : ZMod orderN) = -(sv : ZMod orderN) := by
  rw [Nat.cast_sub h, ZMod.natCast_self, zero_sub]

theorem lowS_cast {sv : Nat} (h : sv < orderN) :
    (lowS sv : ZMod orderN) = sv ∨ (lowS sv : ZMod orderN) = -(sv : ZMod orderN) := by
  unfold lowS
  split
  · exact .inr (orderN_sub_cast h.le)
  · exact .inl rfl

/-! ### Scalars that agree up to sign give the same x coordinate -/

theorem ptMul_generator_congr {a b : Nat} (ha : a < 2 ^ 256) (hb : b < 2 ^ 256) (h : (a : ZMod orderN) = b) :
    ptMul a generator = ptMul b generator := by
  obtain ⟨-, -, -, hmod⟩ := scalarMultiplicationLaws
  calc ptMul a generator
    _ = ptMul (a % orderN) generator := hmod a ha
    _ = ptMul (b % orderN) generator := by rw [(ZMod.natCast_eq_natCast_iff' a b orderN).1 h]
    _ = ptMul b generator := (hmod b hb).symm

/-- A point and its negative have one x coordinate. -/
theorem Represents.xMatches_neg [Fact curveP.Prime] {p q : Point} {A : secpCurve.Point} (hp : Represents p A)
    (hq : Represents q (-A)) (r : Nat) : xMatches r p = xMatches r q := by
  match p, A, q with
  | .inf, .zero, .inf => rfl
  | .fin x y, .some a b h, .fin x' y' =>
    obtain ⟨hx, -, hxa, -⟩ := hp
    obtain ⟨hx', -, hxa', -⟩ := hq
    rw [xMatches, xMatches, natCast_inj_of_lt hx hx' (hxa.trans hxa'.symm)]
  | .inf, .zero, .fin _ _ => exact hq.elim
  | .fin _ _, .some _ _ _, .inf => exact hq.elim
  | .inf, .some _ _ _, _ => exact hp.elim
  | .fin _ _, .zero, _ => exact hp.elim

theorem xMatches_ptMul_of_cast_eq_neg {a b : Nat} (ha : a < 2 ^ 256) (hb : b < 2 ^ 256)
    (h : (a : ZMod orderN) = -(b : ZMod orderN)) (r : Nat) :
    xMatches r (ptMul a generator) = xMatches r (ptMul b generator) := by
  have : Fact curveP.Prime := ⟨prime_curveP⟩
  have : Fact orderN.Prime := ⟨prime_orderN⟩
  obtain ⟨A, hA⟩ := exists_represents_generator
  have hdvd : orderN ∣ b + a := by
    rw [← ZMod.natCast_eq_zero_iff, Nat.cast_add, h, add_neg_cancel]
  have hneg : b • A = -(a • A) := by
    rw [← nsmul_generator_eq_zero_iff hA, add_nsmul] at hdvd
    exact eq_neg_of_add_eq_zero_left hdvd
  exact (hA.mul ha).xMatches_neg (hneg ▸ hA.mul hb) r

/-- Settles O59: with `N - s` for `s` VERIFY's scalar changes its sign, and the checks on `s` pass for both. -/
theorem highSVerifiesWhenLowSDoes : Obligations.HighSVerifiesWhenLowSDoes := by
  unfold Obligations.HighSVerifiesWhenLowSDoes
  intro s t u q z r sReg sHigh d hd hkey h0 hN hhigh ht hu
  change valP s q = ptMul d generator at hkey
  have : Fact orderN.Prime := ⟨prime_orderN⟩
  have hdlt : d < 2 ^ 256 := hd.trans orderN_lt
  have hvalid : ValidPoint (valP s q) := hkey ▸ validPoint_ptMul_generator hdlt
  have htcode : t.errcode = 0 := errcode_of_exec_verify hvalid ht
  have hucode : u.errcode = 0 := errcode_of_exec_verify hvalid hu
  refine ⟨htcode, hucode, ?_⟩
  rw [exec_verify_valid ht htcode, exec_verify_valid hu hucode]
  by_cases hpre : valP s q ≠ .inf ∧ valV s r < orderN
  · obtain ⟨hq, hr⟩ := hpre
    rw [verifyVerdict_eq_xMatches hq hr hN h0.ne', verifyVerdict_eq_xMatches hq hr (by omega) (by omega), hkey,
      verifyPoint_of_key hdlt, verifyPoint_of_key hdlt]
    refine xMatches_ptMul_of_cast_eq_neg (verifyScalar_lt _ _ _ _) (verifyScalar_lt _ _ _ _) ?_ _
    rw [verifyScalar_cast, verifyScalar_cast, hhigh, orderN_sub_cast hN.le, inv_neg, mul_neg, neg_neg]
  · rw [not_and_or, not_not, Nat.not_lt] at hpre
    have hreject (sv : Nat) : verifyVerdict (valP s q) (valV s z) (valV s r) sv = false :=
      verifyVerdict_of_precheck (hpre.elim (fun hinf => .inr (.inr (.inr hinf))) .inl)
    rw [hreject, hreject]

/-! ### The round trip (R182) -/

/-- `s = n⁻¹ (z + r d)` up to sign, so VERIFY's scalar `s⁻¹ (z + r d)` is the nonce up to sign. -/
theorem verifyScalar_lowS_rawS {n d z r : Nat} (hs : rawS n d z r ≠ 0) :
    (verifyScalar d z r (lowS (rawS n d z r)) : ZMod orderN) = n ∨
      (verifyScalar d z r (lowS (rawS n d z r)) : ZMod orderN) = -(n : ZMod orderN) := by
  have : Fact orderN.Prime := ⟨prime_orderN⟩
  have hne := cast_ne_zero_of_lt hs (rawS_lt n d z r)
  rw [rawS_cast] at hne
  have hz : (z : ZMod orderN) + r * d ≠ 0 := right_ne_zero_of_mul hne
  have hcancel : ((z : ZMod orderN) + r * d) * ((n : ZMod orderN)⁻¹ * (z + r * d))⁻¹ = n := by
    rw [mul_inv, inv_inv, mul_left_comm, mul_inv_cancel₀ hz, mul_one]
  rw [verifyScalar_cast]
  rcases lowS_cast (rawS_lt n d z r) with h | h
  · exact .inl (by rw [h, rawS_cast, hcancel])
  · exact .inr (by rw [h, rawS_cast, inv_neg, mul_neg, hcancel])

/-- The values SIGN writes pass VERIFY under the public key `d * G`. -/
theorem verifyVerdict_of_signedWith {s t : State} {r d z sReg : VReg} {n x y : Nat}
    (h : SignedWith s t r d z sReg n x y) :
    verifyVerdict (ptMul (valV s d) generator) (valV s z) (valV t r) (valV t sReg) = true := by
  obtain ⟨hpos, hlt, hnonce, hpoint, hr, hs, hvr, hvs⟩ := h
  obtain ⟨-, hn⟩ := detK_range hnonce
  have hlowPos := lowS_pos hs (rawS_lt _ _ _ _)
  have hlowLe := lowS_le (rawS_lt n (valV s d) (valV s z) (x % orderN))
  have hscalar := verifyScalar_lt (valV s d) (valV s z) (x % orderN) (valV t sReg)
  have hsame : xMatches (x % orderN) (ptMul n generator) = true := by simp [hpoint, xMatches]
  rw [hvr, verifyVerdict_eq_xMatches (ptMul_generator_ne_inf hpos hlt) (Nat.mod_lt _ orderN_pos) (by omega)
    (by omega), verifyPoint_of_key (valV_lt s d), ← hsame]
  rcases verifyScalar_lowS_rawS hs with heq | hneg
  · rw [ptMul_generator_congr hscalar (hn.trans orderN_lt) (hvs ▸ heq)]
  · exact xMatches_ptMul_of_cast_eq_neg hscalar (hn.trans orderN_lt) (hvs ▸ hneg) _

/-- Determinism (R182): a command that reads a key and a digest completes alike in two states that agree on both. -/
theorem exec_alike_of_key_digest {i : Instr} {s u : State} {d z : VReg} (hdata : dataSources i = [d, z])
    (hpoint : pointSources i = []) (hcfg : s.cfg = u.cfg) (hd : valV s d = valV u d) (hz : valV s z = valV u z) :
    ∃ t w, exec i s = .next t ∧ exec i u = .next w ∧ t.errcode = w.errcode ∧
      (t.errcode = 0 → ∀ x ∈ i.dataDests, valV t x = valV w x) := by
  have hsources : ∀ x ∈ dataSources i, readV s x = readV u x := by
    simp only [hdata, List.forall_mem_cons, List.not_mem_nil, false_implies, implies_true, and_true]
    exact ⟨BitVec.eq_of_toNat_eq hd, BitVec.eq_of_toNat_eq hz⟩
  obtain ⟨t, w, ht, hw, hcode, hsame⟩ :=
    resultsDependOnSourcesOnly i s u hsources (by simp [hpoint]) (by rw [hcfg]) (by rw [hcfg])
  exact ⟨t, w, ht, hw, hcode, fun h0 x hx => valV_congr ((hsame h0).1 x hx)⟩

/-- Settles O58: the verdict by the group, the determinism from O30, and r from what SIGN was. -/
theorem signedDigestVerifies : Obligations.SignedDigestVerifies := by
  unfold Obligations.SignedDigestVerifies
  refine ⟨?_, ?_, ?_⟩
  · intro s t u r d z sReg q z' r' s' hne hexec hcode hkey hz hr hs
    obtain ⟨n, x, y, hsigned⟩ := signedWith_of_exec_sign hne hexec hcode
    have hvalid : ValidPoint (valP u q) := hkey ▸ validPoint_ptMul_generator (valV_lt s d)
    have hverify := exec_verify_of_validPoint hvalid z' r' s'
    refine ⟨_, hverify, rfl, ?_⟩
    rw [exec_verify_valid hverify rfl, hkey, hz, hr, hs]
    exact verifyVerdict_of_signedWith hsigned
  · intro s u r d z sReg k hcfg hd hz
    obtain ⟨t, w, ht, hw, hcode, hsame⟩ := exec_alike_of_key_digest (i := .sign r d z sReg) rfl rfl hcfg hd hz
    obtain ⟨t', w', ht', hw', hcode', hsame'⟩ := exec_alike_of_key_digest (i := .nonce k d z) rfl rfl hcfg hd hz
    refine ⟨t, w, t', w', ht, hw, hcode, fun h0 => ⟨hsame h0 r ?_, hsame h0 sReg ?_⟩, ht', hw', hcode',
      fun h0 => hsame' h0 k ?_⟩
    all_goals simp [Instr.dataDests]
  · intro s t r d z sReg hne hexec hcode
    obtain ⟨n, x, y, hsigned⟩ := signedWith_of_exec_sign hne hexec hcode
    exact ⟨n, x, y, hsigned.nonce, hsigned.point, hsigned.valV_r⟩

end Sys2Proof.Machine
end

section
/-! Completion with an error, the interrupt output and the verdict of VERIFY (spec/60_exceptions.md R202, R204, R210).
First what an error completion leaves, for a command and for any running word; then the interrupt output after a
completion, a reset and each host write that moves it; last when the verdict is true. -/

namespace Sys2Proof.Machine

open Sys2Proof.Expected

/-! ### Errors are precise (R204) -/

/-- STATUS.ERR reads 1 after a completion with an error code (spec/10_state.md R30). -/
theorem statusWord_err_of_errcode {t : State} (h : t.errcode ≠ 0) : (statusWord t).getLsbD 2 = true := by
  simp [getLsbD_statusWord, (errFlag_iff t).2 h]

/-- An error completion leaves VALID as acceptance cleared it (spec/30_encoding.md R80, spec/10_state.md R31). -/
theorem valid_completeState_of_running {s : State} {c : Word} (hphase : s.phase = .busy c) (hinv : s.Inv)
    (rest : List Turn) {r : Except ErrCode Result} (hcode : (completeState { s with turns := rest } r).errcode ≠ 0) :
    (completeState { s with turns := rest } r).valid = false := by
  obtain ⟨-, -, hclear, -⟩ := hinv.running c hphase
  rw [completeState_of_errcode hcode, finish_valid]
  exact hclear

/-- Settles O28: a command and a running word both end in `completeState`, which on an error is `finish` alone. -/
theorem errorsArePrecise : Obligations.ErrorsArePrecise := by
  unfold Obligations.ErrorsArePrecise
  refine ⟨fun i s => ?_, fun s c rest hphase hnext => ?_⟩
  · obtain ⟨r, hr, -⟩ := exec_completes i s
    exact ⟨_, hr, completeState_completed s r, completeState_of_errcode⟩
  · obtain ⟨r, hr⟩ := step_completes hphase hnext
    exact ⟨_, hr, completeState_completed _ r, fun hcode => ⟨completeState_of_errcode hcode,
      statusWord_err_of_errcode hcode, fun hinv => valid_completeState_of_running hphase hinv rest hcode⟩⟩

/-! ### The interrupt output (R210) -/

theorem irq_of_done_clear {s : State} (h : s.done = false) : irq s = false := by simp [irq, h]

/-- Every completion sets DONE and keeps IE, whatever its code. -/
theorem irq_completeState (s : State) (r : Except ErrCode Result) : irq (completeState s r) = s.ie := by
  obtain ⟨hdone, -, -⟩ := completeState_completed s r
  obtain ⟨hie, -⟩ := completeState_surroundings s r
  rw [irq, hdone, hie, Bool.and_true]

theorem irq_resetCore (s : State) : irq (resetCore s) = false := irq_of_done_clear rfl

/-- A CTRL write sets IE and keeps DONE, unless bit 1 makes it a soft reset (spec/10_state.md R25). -/
theorem irq_writeCtrl (s : State) (w : Word) :
    irq (writeCtrl s w) = (w.getLsbD 0 && s.done && !w.getLsbD 1) := by
  cases hbit : w.getLsbD 1 with
  | true => simp [writeCtrl_of_set hbit, irq_resetCore]
  | false => simp [writeCtrl_of_clear hbit, irq]

/-- Settles O27: each event is one rule of the control registers or of a step, read at `irq`. -/
theorem irqIsALevel : Obligations.IrqIsALevel := by
  unfold Obligations.IrqIsALevel
  refine ⟨fun s => rfl, fun s t c rest hphase hnext hstep => ?_, fun s w hset => ?_, fun s w hphase => ?_,
    fun s w => ?_, fun s t rest hturns hstep => ?_⟩
  · obtain ⟨r, hr⟩ := step_completes hphase hnext
    obtain rfl : t = _ := Host.Outcome.next.inj (hstep.symm.trans hr)
    exact irq_completeState _ r
  · rw [busWrite_status, writeStatus_of_set hset]
    exact irq_of_done_clear rfl
  · rw [busWrite_cmd_of_idle hphase]
    exact irq_of_done_clear (accept_done s w)
  · rw [busWrite_ctrl, irq_writeCtrl]
  · obtain rfl : t = _ := Host.Outcome.next.inj (hstep.symm.trans (step_of_powerOnReset hturns))
    exact irq_resetCore _

/-! ### The verdict of VERIFY (R202; spec/42_ecdsa.md R180) -/

theorem xMatches_iff {r : Nat} {p : Point} : xMatches r p = true ↔ ∃ x y, p = .fin x y ∧ x % orderN = r := by
  cases p <;> simp [xMatches]

/-- The verdict is true exactly when every pre-check passes and VERIFY's point matches `r`. -/
theorem verifyVerdict_iff {q : Point} {z r sv : Nat} : verifyVerdict q z r sv = true ↔
    q ≠ .inf ∧ r < orderN ∧ sv < orderN ∧ sv ≠ 0 ∧
      ∃ x y, verifyPoint q z r sv = .fin x y ∧ x % orderN = r := by
  by_cases hpre : q ≠ .inf ∧ r < orderN ∧ sv < orderN ∧ sv ≠ 0
  · obtain ⟨hq, hr, hs, h0⟩ := hpre
    rw [verifyVerdict_eq_xMatches hq hr hs h0, xMatches_iff]
    simp [hq, hr, hs, h0]
  · rw [verifyVerdict, if_neg hpre]
    exact iff_of_false Bool.false_ne_true fun ⟨hq, hr, hs, h0, _⟩ => hpre ⟨hq, hr, hs, h0⟩

/-- Settles O56: on a valid key VERIFY writes its verdict, spelled out by `verifyVerdict_iff`; an invalid key fails
its point check. -/
theorem verifyGivesTheVerdict : Obligations.VerifyGivesTheVerdict := by
  unfold Obligations.VerifyGivesTheVerdict
  intro s q z r sReg
  exact ⟨fun hq => ⟨_, exec_verify_of_validPoint hq z r sReg, verifyVerdict_iff⟩,
    completion_checkPoint_of_coordinateTooLarge _, completion_checkPoint_of_offCurve _⟩

end Sys2Proof.Machine
end

section
/-! Decoding and encoding are inverse to each other (spec/30_encoding.md R81, R84 to R86): the fields a command encodes
to decode to it, and the fields that decode to a command are the ones it encodes to. -/

namespace Sys2Proof

/-! ### From a command to its fields and back -/

theorem decodeFields_encodeFields {en : Bool} {i : Instr} (h : i.wf en = true) :
    decodeFields en (encodeFields i) = .ok i := by
  cases i with
  | fchk a m => exact Laws.FieldsRoundTrip.fchk a m en h
  | fadd d a b m => exact Laws.FieldsRoundTrip.fadd d a b m en h
  | fsub d a b m => exact Laws.FieldsRoundTrip.fsub d a b m en h
  | fmul d a b m => exact Laws.FieldsRoundTrip.fmul d a b m en h
  | fdiv d a b m => exact Laws.FieldsRoundTrip.fdiv d a b m en h
  | finv d a m => exact Laws.FieldsRoundTrip.finv d a m en h
  | fpow neg d a e m => exact Laws.FieldsRoundTrip.fpow neg d a e m en h
  | fsqrt d a m => exact Laws.FieldsRoundTrip.fsqrt d a m en h
  | pset d x y => exact Laws.FieldsRoundTrip.pset d x y en h
  | pinf d => exact Laws.FieldsRoundTrip.pinf d en h
  | pgen d => exact Laws.FieldsRoundTrip.pgen d en h
  | padd d p q => exact Laws.FieldsRoundTrip.padd d p q en h
  | pmul d p k => exact Laws.FieldsRoundTrip.pmul d p k en h
  | pgetx d p => exact Laws.FieldsRoundTrip.pgetx d p en h
  | pgety d p => exact Laws.FieldsRoundTrip.pgety d p en h
  | kpub d k => exact Laws.FieldsRoundTrip.kpub d k en h
  | nonce k d z => exact Laws.FieldsRoundTrip.nonce k d z en h
  | sign r d z s => exact Laws.FieldsRoundTrip.sign r d z s en h
  | verify q z r s => exact Laws.FieldsRoundTrip.verify q z r s en h

/-- Settles O1: a word's fields are those it was built from, and a well-formed command's fields decode to it. -/
theorem decodeOfEncodeIsTheCommand : Obligations.DecodeOfEncodeIsTheCommand := by
  unfold Obligations.DecodeOfEncodeIsTheCommand
  intro en i hwf
  rw [decode, encode, Fields.ofWord_toWord, decodeFields_encodeFields hwf]

/-! ### From fields to a command and back -/

theorem eq_ofNat_of_toNat_eq {w n : Nat} {x : BitVec w} (h : x.toNat = n) : x = BitVec.ofNat w n := by
  simp [← h]

/-- The encoder gives back the operand fields a field command was decoded from; NEG is 0 but for FPOW (condition 5 of
R84). -/
theorem encodeFields_of_decodeFieldCommand {f : Fields} {m : Modulus} {i : Instr}
    (hneg : f.neg = 0 ∨ f.opc.toNat = 0x07) (h : decodeFieldCommand f m = .ok i) (en : Bool) :
    encodeFields i = fieldCommand f.opc f.fa f.fb f.fc (f.neg == 1) m ∧ i.wf en = true := by
  unfold decodeFieldCommand at h
  split at h
  case h_7 hopc => -- FPOW
    obtain rfl := Except.ok.inj h
    simp [encodeFields, eq_ofNat_of_toNat_eq hopc, Instr.wf]
  case h_9 => cases h
  all_goals
    rename_i hopc
    have hneg0 : f.neg = 0 := hneg.resolve_right (by omega)
    have hopc := eq_ofNat_of_toNat_eq hopc
    simp only [bind_eq_ok, zeroField_eq_ok, pure, Except.pure, Except.ok.injEq, exists_const] at h
  case h_1 => -- FCHK
    obtain ⟨ha, hc, rfl⟩ := h
    simp [encodeFields, hopc, hneg0, ha, hc, Instr.wf]
  case h_6 | h_8 => -- FINV, FSQRT
    obtain ⟨hc, rfl⟩ := h
    simp [encodeFields, hopc, hneg0, hc, Instr.wf]
  case h_2 | h_3 | h_4 | h_5 => -- FADD, FSUB, FMUL, FDIV
    subst h
    simp [encodeFields, hopc, hneg0, Instr.wf]

theorem dataField_inj {f g : BitVec 4} : dataField f = dataField g ↔ f = g :=
  ⟨fun h => by rw [← encodeData_dataField f, h, encodeData_dataField], congrArg dataField⟩

/-- The same of a curve or ECDSA command, with conditions 2 and 8 of R84. -/
theorem encodeFields_of_decodePointCommand {en : Bool} {f : Fields} {i : Instr} (h : decodePointCommand en f = .ok i) :
    encodeFields i = pointCommand f.opc f.fa f.fb f.fc f.fd ∧ i.wf en = true := by
  unfold decodePointCommand at h
  split at h
  case h_12 => cases h
  all_goals
    rename_i hopc
    have hopc := eq_ofNat_of_toNat_eq hopc
    simp only [bind_eq_ok, zeroField_eq_ok, pointField_eq_ok, require_eq_ok, pure, Except.pure, Except.ok.injEq,
      exists_const] at h
  case h_1 => -- PSET
    obtain ⟨d, ha, hd, rfl⟩ := h
    simp [encodeFields, hopc, ha, hd, Instr.wf]
  case h_2 | h_3 => -- PINF, PGEN
    obtain ⟨d, ha, hb, hc, hd, rfl⟩ := h
    simp [encodeFields, hopc, ha, hb, hc, hd, Instr.wf]
  case h_4 => -- PADD
    obtain ⟨d, ha, p, hb, q, hc, hd, rfl⟩ := h
    simp [encodeFields, hopc, ha, hb, hc, hd, Instr.wf]
  case h_5 => -- PMUL
    obtain ⟨d, ha, p, hb, hd, rfl⟩ := h
    simp [encodeFields, hopc, ha, hb, hd, Instr.wf]
  case h_6 | h_7 => -- PGETX, PGETY
    obtain ⟨p, hb, hc, hd, rfl⟩ := h
    simp [encodeFields, hopc, hb, hc, hd, Instr.wf]
  case h_8 => -- KPUB
    obtain ⟨d, ha, hc, hd, rfl⟩ := h
    simp [encodeFields, hopc, ha, hc, hd, Instr.wf]
  case h_9 => -- NONCE
    obtain ⟨hen, hd, rfl⟩ := h
    simp [encodeFields, hopc, hd, hen, Instr.wf]
  case h_10 => -- SIGN
    obtain ⟨hne, rfl⟩ := h
    simpa [encodeFields, hopc, Instr.wf, dataField_inj] using hne
  case h_11 => -- VERIFY
    obtain ⟨q, ha, rfl⟩ := h
    simp [encodeFields, hopc, ha, Instr.wf]

theorem ofBool_beq_one (b : BitVec 1) : BitVec.ofBool (b == 1) = b := by
  revert b; decide

/-- Fields whose MSEL, FD and reserved bits pass their checks are those of a field command (R83). -/
theorem fieldCommand_of_modulus {f : Fields} {m : Modulus} (hreserved : f.reserved = 0) (hmsel : f.msel = encodeMsel m)
    (hfd : f.fd = encodeModulusField m) : fieldCommand f.opc f.fa f.fb f.fc (f.neg == 1) m = f := by
  simp only [fieldCommand, ← hreserved, ← hmsel, ← hfd, ofBool_beq_one]

theorem pointCommand_of_zeros {f : Fields} (hreserved : f.reserved = 0) (hmsel : f.msel = 0) (hneg : f.neg = 0) :
    pointCommand f.opc f.fa f.fb f.fc f.fd = f := by
  simp only [pointCommand, ← hreserved, ← hmsel, ← hneg]

theorem encodeFields_of_decodeFields {en : Bool} {f : Fields} {i : Instr} (h : decodeFields en f = .ok i) :
    encodeFields i = f ∧ i.wf en = true := by
  obtain ⟨_, hreserved, h⟩ := bind_eq_ok.1 h
  obtain ⟨_, hneg, h⟩ := bind_eq_ok.1 h
  have hreserved : f.reserved = 0 := by simpa [require_eq_ok] using hreserved
  have hneg : f.neg = 0 ∨ f.opc.toNat = 0x07 := by simpa [require_eq_ok] using hneg
  split at h
  · obtain ⟨m, hmodulus, h⟩ := bind_eq_ok.1 h
    obtain ⟨hmsel, hfd⟩ := decodeModulus_eq_ok.1 hmodulus
    obtain ⟨hfields, hwf⟩ := encodeFields_of_decodeFieldCommand hneg h en
    exact ⟨hfields.trans (fieldCommand_of_modulus hreserved hmsel hfd), hwf⟩
  · next hfield =>
    obtain ⟨_, -, h⟩ := bind_eq_ok.1 h
    obtain ⟨_, hmsel, h⟩ := bind_eq_ok.1 h
    have hmsel : f.msel = 0 := by simpa [require_eq_ok] using hmsel
    have hneg0 : f.neg = 0 := hneg.resolve_right fun hopc => hfield (by simp [isFieldOpcode, hopc])
    obtain ⟨hfields, hwf⟩ := encodeFields_of_decodePointCommand h
    exact ⟨hfields.trans (pointCommand_of_zeros hreserved hmsel hneg0), hwf⟩

/-- Settles O2: the fields that decode to a command are the ones it encodes to, and a word is built from its fields. -/
theorem decodedWordIsItsEncoding : Obligations.DecodedWordIsItsEncoding := by
  unfold Obligations.DecodedWordIsItsEncoding
  intro en w i h
  obtain ⟨hfields, hwf⟩ := encodeFields_of_decodeFields h
  exact ⟨by rw [encode, hfields, Fields.toWord_ofWord], hwf⟩

end Sys2Proof
end

section
/-! What every step keeps (spec/10_state.md R28 to R35, spec/70_reset_and_hazards.md R232, R243): each turn is taken
from the list and the engine's own leaves it idle, so every command completes; the invariant of the control state; and
what the host can do to a running command. -/

namespace Sys2Proof.Machine

open Sys2Proof.Expected

/-- Settles O5: the rule for a step on a word that decodes. -/
theorem engineStepRunsTheDecodedCommand : Obligations.EngineStepRunsTheDecodedCommand := by
  unfold Obligations.EngineStepRunsTheDecodedCommand
  exact fun _ _ _ _ hphase hnext hdecode => step_of_decode_ok hphase hnext hdecode

/-- Settles O12: a soft reset is `resetCore`, which leaves the engine idle, and an idle engine's turn changes
nothing. -/
theorem softResetAbandonsTheCommand : Obligations.SoftResetAbandonsTheCommand := by
  unfold Obligations.SoftResetAbandonsTheCommand
  intro s w hset
  exact ⟨resetCore s, busWrite_ctrl_of_set hset s, resetValues_resetCore s, irq_resetCore s, resetCore_cfg s,
    resetCore_turns s, fun rest hnext => step_of_engine_idle (resetCore_phase s) hnext⟩

/-! ### Every step takes one turn, and the last leaves the engine idle (R243) -/

theorem turns_completeState (s : State) (r : Except ErrCode Result) : (completeState s r).turns = s.turns := by
  obtain ⟨-, -, -, hturns, -⟩ := completeState_surroundings s r
  exact hturns

theorem turns_hostAccess (s : State) (a : BusAccess) : (hostAccess s a).turns = s.turns := by
  unfold hostAccess
  cases windowOffset s.cfg.base a.addr with
  | none => rfl
  | some off =>
    cases a.kind with
    | read => rfl
    | write w =>
      obtain ⟨-, hturns, -⟩ := busWrite_surroundings s off a.size w
      exact hturns

/-- The engine's step takes its turn and leaves the engine idle, whether a command ran or not (spec/10_state.md R35). -/
theorem idle_of_engine_step {s t : State} {rest : List Turn} (hnext : EngineNext s rest)
    (hstep : step s = .next t) : t.phase = .idle ∧ t.turns = rest := by
  cases hphase : s.phase with
  | idle =>
    obtain rfl : t = _ := Host.Outcome.next.inj (hstep.symm.trans (step_of_engine_idle hphase hnext))
    exact ⟨hphase, rfl⟩
  | busy c =>
    obtain ⟨r, hr⟩ := step_completes hphase hnext
    obtain rfl : t = _ := Host.Outcome.next.inj (hstep.symm.trans hr)
    obtain ⟨-, -, hidle⟩ := completeState_completed { s with turns := rest } r
    exact ⟨hidle, turns_completeState _ r⟩

theorem turns_of_step {s t : State} (hstep : step s = .next t) : t.turns = s.turns.tail := by
  obtain ⟨rest, hnext⟩ | ⟨a, rest, hturns⟩ | ⟨rest, hturns⟩ := turns_cases s
  · obtain ⟨-, hrest⟩ := idle_of_engine_step hnext hstep
    obtain ⟨hturns, rfl⟩ | hturns := hnext <;> simp [hturns, hrest]
  · obtain rfl : t = _ := Host.Outcome.next.inj (hstep.symm.trans (step_of_access hturns))
    simp [turns_hostAccess, hturns]
  · obtain rfl : t = _ := Host.Outcome.next.inj (hstep.symm.trans (step_of_powerOnReset hturns))
    simp [hturns]

theorem run_succ_of_step {M : Host.Core} {s t : M.State} (hstep : M.step s = .next t) (n : Nat) :
    M.run (n + 1) s = M.run n t := by
  rw [Host.Core.run, hstep]

/-- After as many steps as there are turns, and one more of the engine's own, no command runs. -/
theorem run_ends_idle {n : Nat} {s : State} (hlength : s.turns.length = n) :
    ∃ t : State, core.run (n + 1) s = .next t ∧ t.phase = .idle ∧ t.turns = [] := by
  induction n generalizing s with
  | zero =>
    obtain ⟨t, hstep⟩ := step_next s
    have hnext : EngineNext s [] := .inl ⟨List.length_eq_zero_iff.1 hlength, rfl⟩
    exact ⟨t, run_succ_of_step (M := core) hstep 0, idle_of_engine_step hnext hstep⟩
  | succ n ih =>
    obtain ⟨u, hstep⟩ := step_next s
    obtain ⟨t, hrun, hend⟩ := ih (s := u) (by simp [turns_of_step hstep, hlength])
    exact ⟨t, (run_succ_of_step (M := core) hstep (n + 1)).trans hrun, hend⟩

/-- Settles O7, by induction on the number of turns to come. -/
theorem everyCommandCompletes : Obligations.EveryCommandCompletes := by
  unfold Obligations.EveryCommandCompletes
  exact fun s => run_ends_idle rfl

/-! ### The invariant of the control state -/

/-- A state whose flags are clear and whose engine is idle meets the invariant. -/
theorem inv_of_idle_clear {s : State} (hphase : s.phase = .idle) (hbusy : s.busy = false) (hcode : s.errcode = 0)
    (hvalid : s.valid = false) (hiter : 1 ≤ s.cfg.nonceMaxIter) : s.Inv where
  busy_eq := by rw [hbusy, hphase]; rfl
  running c hc := by rw [hphase] at hc; cases hc
  code_legal := by rw [hcode]; decide
  valid_verify hv := by rw [hvalid] at hv; cases hv
  iter_pos := hiter

/-- Settles O8: the reset state is idle with clear flags. -/
theorem invariantAtReset : Obligations.InvariantAtReset :=
  inv_of_idle_clear rfl rfl rfl rfl (by decide)

theorem inv_resetCore {s : State} (h : s.Inv) : (resetCore s).Inv := inv_of_idle_clear rfl rfl rfl rfl h.iter_pos

/-- The invariant does not speak of V, PR, IE, the turns and the replies. -/
theorem inv_frame {s : State} (h : s.Inv) (v : Vector U256 16) (pr : Vector PointReg 8) (ie : Bool) (turns : List Turn)
    (replies : List Reply) : State.Inv { s with v := v, pr := pr, ie := ie, turns := turns, replies := replies } :=
  ⟨h.busy_eq, h.running, h.code_legal, h.valid_verify, h.iter_pos⟩

theorem inv_withTurns {s : State} (h : s.Inv) (rest : List Turn) : State.Inv { s with turns := rest } :=
  inv_frame h s.v s.pr s.ie rest s.replies

theorem inv_pushReply {s : State} (h : s.Inv) (r : Reply) : (pushReply s r).Inv :=
  inv_frame h s.v s.pr s.ie s.turns (s.replies ++ [r])

theorem inv_writeV {s : State} (h : s.Inv) (i : VReg) (x : U256) : (writeV s i x).Inv :=
  inv_frame h (s.v.set i x) s.pr s.ie s.turns s.replies

theorem inv_writePR {s : State} (h : s.Inv) (i : PReg) (r : PointReg) : (writePR s i r).Inv :=
  inv_frame h s.v (s.pr.set i r) s.ie s.turns s.replies

theorem inv_accept {s : State} (h : s.Inv) (w : Word) : (accept s w).Inv where
  busy_eq := rfl
  running c hc := ⟨Phase.busy.inj hc, rfl, rfl, rfl⟩
  code_legal := by rw [accept_errcode]; decide
  valid_verify hv := by cases hv
  iter_pos := h.iter_pos

theorem inv_writeCtrl {s : State} (h : s.Inv) (w : Word) : (writeCtrl s w).Inv := by
  cases hbit : w.getLsbD 1 with
  | true => exact writeCtrl_of_set hbit s ▸ inv_resetCore h
  | false => exact writeCtrl_of_clear hbit s ▸ inv_frame h s.v s.pr (w.getLsbD 0) s.turns s.replies

theorem inv_clearDone {s : State} (h : s.Inv) : State.Inv { s with done := false } where
  busy_eq := h.busy_eq
  running c hc := by
    obtain ⟨hlast, -, hflags⟩ := h.running c hc
    exact ⟨hlast, rfl, hflags⟩
  code_legal := h.code_legal
  valid_verify := h.valid_verify
  iter_pos := h.iter_pos

theorem inv_writeStatus {s : State} (h : s.Inv) (w : Word) : (writeStatus s w).Inv := by
  cases hbit : w.getLsbD 1 with
  | true => exact writeStatus_of_set hbit s ▸ inv_clearDone h
  | false => exact (writeStatus_of_clear hbit s).symm ▸ h

theorem inv_storeTarget {s : State} (h : s.Inv) (t : Target) (w : Word) : (storeTarget s t w).Inv := by
  cases t with
  | id | errcode => exact h
  | ctrl => exact inv_writeCtrl h w
  | status => exact inv_writeStatus h w
  | cmd => exact inv_accept h w
  | data i j => exact inv_writeV h i _
  | pointX i j | pointY i j | pointTag i => exact inv_writePR h i _

theorem inv_hostAccess {s : State} (h : s.Inv) (a : BusAccess) : (hostAccess s a).Inv := by
  obtain ⟨r, hr⟩ | ⟨off, t, w, -, -, -, hstore⟩ := hostAccess_cases s a
  · exact hr ▸ inv_pushReply h r
  · exact hstore ▸ inv_pushReply (inv_storeTarget h t w) .ok

theorem errNumber_mem_legalCodes (e : ErrCode) : errNumber e ∈ legalCodes := by cases e <;> decide

theorem errcode_completeState_mem_legalCodes (s : State) (r : Except ErrCode Result) :
    (completeState s r).errcode ∈ legalCodes := by
  obtain ⟨e, -, hr⟩ | ⟨x, -, hr⟩ := completeState_cases s r <;> rw [hr, finish_errcode]
  · exact errNumber_mem_legalCodes e
  · decide

/-- A word that decodes to VERIFY has VERIFY's opcode, since it is VERIFY's encoding (spec/30_encoding.md R85). -/
theorem isVerifyWord_of_decode {en : Bool} {w : Word} {i : Instr} (hdecode : decode en w = .ok i)
    (hverify : i.isVerify = true) : isVerifyWord w = true := by
  obtain ⟨rfl, -⟩ := decodedWordIsItsEncoding en w i hdecode
  cases i with
  | verify => rw [isVerifyWord, encode, Fields.ofWord_toWord]; rfl
  | _ => cases hverify

/-- A completion keeps the invariant: VALID was clear, so it is set by a VERIFY without error (spec/10_state.md R31). -/
theorem inv_runCommand {s t : State} {c : Word} (h : s.Inv) (hphase : s.phase = .busy c)
    (hrun : runCommand s c = .next t) : t.Inv := by
  obtain ⟨r, hr⟩ := runCommand_completes s c
  obtain rfl : t = _ := Host.Outcome.next.inj (hrun.symm.trans hr)
  obtain ⟨-, hbusy, hidle⟩ := completeState_completed s r
  obtain ⟨-, hlast, hcfg, -⟩ := completeState_surroundings s r
  obtain ⟨hword, -, hclear, -⟩ := h.running c hphase
  refine ⟨by rw [hbusy, hidle]; rfl, fun c' hc' => ?_, errcode_completeState_mem_legalCodes s r, fun hvalid => ?_, ?_⟩
  · rw [hidle] at hc'
    cases hc'
  · obtain ⟨hcode, i, hdecode, hverify⟩ := verify_of_runCommand_changes_valid hrun (by simp [hvalid, hclear])
    exact ⟨hcode, by rw [hlast, hword]; exact isVerifyWord_of_decode hdecode hverify⟩
  · rw [hcfg]
    exact h.iter_pos

/-- Settles O9: each agent's turn keeps the invariant. -/
theorem stepKeepsTheInvariant : Obligations.StepKeepsTheInvariant := by
  unfold Obligations.StepKeepsTheInvariant
  intro s t h hstep
  obtain ⟨rest, hnext⟩ | ⟨a, rest, hturns⟩ | ⟨rest, hturns⟩ := turns_cases s
  · cases hphase : s.phase with
    | idle =>
      obtain rfl : t = _ := Host.Outcome.next.inj (hstep.symm.trans (step_of_engine_idle hphase hnext))
      exact inv_withTurns h rest
    | busy c =>
      exact inv_runCommand (inv_withTurns h rest) hphase ((step_of_engine_busy hphase hnext).symm.trans hstep)
  · obtain rfl : t = _ := Host.Outcome.next.inj (hstep.symm.trans (step_of_access hturns))
    exact inv_hostAccess (inv_withTurns h rest) a
  · obtain rfl : t = _ := Host.Outcome.next.inj (hstep.symm.trans (step_of_powerOnReset hturns))
    exact inv_resetCore (inv_withTurns h rest)

/-! ### The host and a running command -/

/-- What a running command computes with and reports by is the same in both states: DONE and IE are the host's to write
(spec/10_state.md R25, R29). -/
def Undisturbed (s t : State) : Prop :=
  t.phase = s.phase ∧ t.v = s.v ∧ t.pr = s.pr ∧ t.lastcmd = s.lastcmd ∧ t.errcode = s.errcode ∧ t.valid = s.valid ∧
    t.busy = s.busy ∧ t.cfg = s.cfg

theorem undisturbed_pushReply {s t : State} (h : Undisturbed s t) (r : Reply) : Undisturbed s (pushReply t r) := h

theorem undisturbed_writeStatus (s : State) (w : Word) : Undisturbed s (writeStatus s w) := by
  unfold writeStatus
  split <;> exact ⟨rfl, rfl, rfl, rfl, rfl, rfl, rfl, rfl⟩

/-- While busy, an accepted write that is no soft reset leaves the running command's state. -/
theorem undisturbed_storeTarget {s : State} {c : Word} (hphase : s.phase = .busy c) {t : Target} {w : Word}
    (haccepted : writeAccepted s t = true) (hreset : ¬ (t = .ctrl ∧ w.getLsbD 1 = true)) :
    Undisturbed s (storeTarget s t w) := by
  have hcontrol := control_of_writeAccepted_busy hphase haccepted
  cases t with
  | id | errcode => exact ⟨rfl, rfl, rfl, rfl, rfl, rfl, rfl, rfl⟩
  | status => exact undisturbed_writeStatus s w
  | cmd => cases (idle_of_writeAccepted_cmd haccepted).symm.trans hphase
  | ctrl =>
    have hclear : w.getLsbD 1 = false := by simpa using hreset
    rw [show storeTarget s .ctrl w = writeIe s w from writeCtrl_of_clear hclear s]
    exact ⟨rfl, rfl, rfl, rfl, rfl, rfl, rfl, rfl⟩
  | data | pointX | pointY | pointTag => cases hcontrol

/-- While busy, a host access leaves the running command's state or is a soft reset. -/
theorem hostAccess_of_busy {s : State} {c : Word} (hphase : s.phase = .busy c) (a : BusAccess) :
    Undisturbed s (hostAccess s a) ∨
      ∃ w : Word, a = { addr := s.cfg.base + 0x004, size := 4, kind := .write w } ∧ w.getLsbD 1 = true ∧
        ResetValues (hostAccess s a) := by
  obtain ⟨r, hr⟩ | ⟨off, t, w, htarget, ha, haccepted, hstore⟩ := hostAccess_cases s a
  · exact .inl (hr ▸ undisturbed_pushReply ⟨rfl, rfl, rfl, rfl, rfl, rfl, rfl, rfl⟩ r)
  · rw [hstore]
    by_cases hreset : t = .ctrl ∧ w.getLsbD 1 = true
    · obtain ⟨rfl, hset⟩ := hreset
      obtain rfl := target_eq_ctrl htarget
      refine .inr ⟨w, ha, hset, ?_⟩
      rw [show storeTarget s .ctrl w = resetCore s from writeCtrl_of_set hset s]
      exact resetValues_resetCore s
    · exact .inl (undisturbed_pushReply (undisturbed_storeTarget hphase haccepted hreset) .ok)

/-- Settles O10: the access of the step finds the engine busy. -/
theorem runningCommandIsUndisturbed : Obligations.RunningCommandIsUndisturbed := by
  unfold Obligations.RunningCommandIsUndisturbed
  intro s t c a rest hphase hturns hstep
  obtain rfl : t = _ := Host.Outcome.next.inj (hstep.symm.trans (step_of_access hturns))
  rw [← hphase]
  exact hostAccess_of_busy (s := { s with turns := rest }) hphase a

end Sys2Proof.Machine
end

section
/-! The register window word by word (spec/20_memory.md R51 to R54, R58): the address map both ways, the words of the
data and point registers, the big-endian load, and one host turn as one access. -/

namespace Sys2Proof.Machine

open Sys2Proof.Expected

/-! ### The address map is a bijection onto its offsets (R53) -/

theorem target_targetOffset (t : Target) : target (targetOffset t) = some t := by
  cases t with
  | id | ctrl | status | errcode | cmd => rfl
  | data i j => exact target_data i j
  | pointX i j => exact target_pointX i j
  | pointY i j => exact target_pointY i j
  | pointTag i => exact target_pointTag i

/-- Every aligned offset of the window outside the table's gaps is a register word's. -/
theorem exists_targetOffset_eq {off : Nat} (haligned : off % 4 = 0) (hlt : off < 0x800) (hmapped : ¬ Unmapped off) :
    ∃ t, targetOffset t = off := by
  unfold Unmapped at hmapped
  obtain hcontrol | ⟨hlo, hhi⟩ | hpoint : off < 0x014 ∨ (0x100 ≤ off ∧ off < 0x300) ∨ 0x400 ≤ off := by omega
  · obtain rfl | rfl | rfl | rfl | rfl : off = 0x000 ∨ off = 0x004 ∨ off = 0x008 ∨ off = 0x00C ∨ off = 0x010 := by omega
    exacts [⟨.id, rfl⟩, ⟨.ctrl, rfl⟩, ⟨.status, rfl⟩, ⟨.errcode, rfl⟩, ⟨.cmd, rfl⟩]
  · refine ⟨.data ⟨(off - 0x100) / 0x20, by omega⟩ ⟨(off - 0x100) % 0x20 / 4, by omega⟩, ?_⟩
    simp only [targetOffset]
    omega
  · obtain ⟨i, r, hoff, hr⟩ : ∃ (i : PReg) (r : Nat), off = 0x400 + 0x80 * i.val + r ∧ r < 0x44 :=
      ⟨⟨(off - 0x400) / 0x80, by omega⟩, (off - 0x400) % 0x80, by simp only; omega, by omega⟩
    obtain hx | hy | htag : r < 0x20 ∨ (0x20 ≤ r ∧ r < 0x40) ∨ r = 0x40 := by omega
    · refine ⟨.pointX i ⟨r / 4, by omega⟩, ?_⟩
      simp only [targetOffset]
      omega
    · refine ⟨.pointY i ⟨(r - 0x20) / 4, by omega⟩, ?_⟩
      simp only [targetOffset]
      omega
    · exact ⟨.pointTag i, by simp only [targetOffset]; omega⟩

theorem target_of_outside {off : Nat} (h : windowSize ≤ off) : target off = none := by
  have hlo : 0x800 ≤ off := h
  simp [target, Nat.not_lt.2 h, show ¬ off < 0x100 by omega, show ¬ off < 0x300 by omega, show ¬ off < 0x400 by omega]

/-- An offset that is mapped is aligned, in the window and outside the gaps, so it is its target's own offset. -/
theorem targetOffset_of_target {off : Nat} {t : Target} (h : target off = some t) :
    targetOffset t = off ∧ off < 0x800 := by
  have hsome : target off ≠ none := by simp [h]
  have haligned : off % 4 = 0 := by
    by_contra hne
    exact hsome (target_of_misaligned hne)
  have hlt : off < 0x800 := by
    by_contra hge
    exact hsome (target_of_outside (Nat.not_lt.1 hge))
  obtain ⟨u, hu⟩ := exists_targetOffset_eq haligned hlt fun hgap => hsome (target_of_unmapped hgap)
  obtain rfl : u = t := Option.some.inj (by rw [← target_targetOffset u, hu, h])
  exact ⟨hu, hlt⟩

/-- Settles O16: the map and the offsets are inverse to each other, and what is left are the gaps. -/
theorem addressMapIsExact : Obligations.AddressMapIsExact := by
  unfold Obligations.AddressMapIsExact
  refine ⟨target_targetOffset, fun off t h => targetOffset_of_target h, fun off hlt haligned =>
    ⟨fun hnone => ?_, target_of_unmapped⟩⟩
  by_contra hmapped
  obtain ⟨t, rfl⟩ := exists_targetOffset_eq haligned hlt hmapped
  cases (target_targetOffset t).symm.trans hnone

/-! ### Words of the data and point registers (R54) -/

/-- The bits a write of word `j` gives, with the bounds of R54: the word in bits 255-32j to 224-32j. -/
theorem getLsbD_setWordAt_bounds (x : U256) (j : Fin 8) (w : Word) {n : Nat} (hn : n < 256) :
    (setWordAt x j w).getLsbD n =
      if 224 - 32 * j.val ≤ n ∧ n ≤ 255 - 32 * j.val then w.getLsbD (n - (224 - 32 * j.val)) else x.getLsbD n := by
  have hbounds : n < 224 - 32 * j.val + 32 ↔ n ≤ 255 - 32 * j.val := by omega
  simp only [getLsbD_setWordAt x j w hn, wordShift, hbounds]

theorem readV_writeV_same (s : State) (i : VReg) (x : U256) : readV (writeV s i x) i = x := by simp

theorem readV_writeV_ne (s : State) {i k : VReg} (h : k ≠ i) (x : U256) : readV (writeV s i x) k = readV s k := by
  simp [h.symm]

theorem readPR_writePR_same (s : State) (i : PReg) (r : PointReg) : readPR (writePR s i r) i = r := by simp

theorem readPR_writePR_ne (s : State) {i k : PReg} (h : k ≠ i) (r : PointReg) :
    readPR (writePR s i r) k = readPR s k := by
  simp [h.symm]

theorem busRead_of_idle {s : State} (hphase : s.phase = .idle) {off : Nat} {t : Target}
    (htarget : target off = some t) : busRead s off 4 = .data (targetWord s t) :=
  busRead_of_accepted htarget (readAccepted_of_idle hphase t)

theorem busWrite_of_idle {s : State} (hphase : s.phase = .idle) {off : Nat} {t : Target}
    (htarget : target off = some t) (w : Word) : busWrite s off 4 w = (storeTarget s t w, .ok) :=
  busWrite_of_accepted htarget (writeAccepted_of_idle hphase t) w

/-- Settles O17: an idle access to word `j` of `V[i]` is `wordAt` or `setWordAt` of that register. -/
theorem dataRegisterWords : Obligations.DataRegisterWords := by
  unfold Obligations.DataRegisterWords
  intro s i j w hphase
  refine ⟨busRead_of_idle hphase (target_data i j), writeV s i (setWordAt (readV s i) j w),
    busWrite_of_idle hphase (target_data i j) w, fun n hn => ?_, fun k hk => readV_writeV_ne s hk _, rfl⟩
  rw [readV_writeV_same, getLsbD_setWordAt_bounds _ j w hn]

/-- Settles O18: the same for X and Y, and TAG's one bit. -/
theorem pointRegisterWords : Obligations.PointRegisterWords := by
  unfold Obligations.PointRegisterWords
  intro s i j w hphase
  refine ⟨busRead_of_idle hphase (target_pointX i j), busRead_of_idle hphase (target_pointY i j), ?_,
    ⟨writePR s i { readPR s i with x := setWordAt (readPR s i).x j w }, busWrite_of_idle hphase (target_pointX i j) w,
      fun n hn => ?_, ?_, ?_, fun k hk => readPR_writePR_ne s hk _, rfl⟩,
    ⟨writePR s i { readPR s i with y := setWordAt (readPR s i).y j w }, busWrite_of_idle hphase (target_pointY i j) w,
      fun n hn => ?_, ?_, ?_, fun k hk => readPR_writePR_ne s hk _, rfl⟩,
    busWrite_of_idle hphase (target_pointTag i) w⟩
  · rw [busRead_of_idle hphase (target_pointTag i), targetWord, flagBit_zero]
  all_goals rw [readPR_writePR_same]
  · exact getLsbD_setWordAt_bounds _ j w hn
  · exact getLsbD_setWordAt_bounds _ j w hn

/-! ### The big-endian load (R58) -/

theorem os2ip_append (a b : List Byte) : os2ip (a ++ b) = os2ip a * 256 ^ b.length + os2ip b := by
  induction b using List.reverseRecOn with
  | nil => simp [os2ip]
  | append_singleton b x ih =>
    simp only [os2ip, ← List.append_assoc, List.foldl_append, List.foldl_cons, List.foldl_nil, List.length_append,
      List.length_singleton] at ih ⊢
    rw [ih]
    ring

theorem os2ip_lt (b : List Byte) : os2ip b < 256 ^ b.length := by
  induction b using List.reverseRecOn with
  | nil => simp [os2ip]
  | append_singleton b x ih =>
    have hx : x.toNat < 256 := x.isLt
    have hsingle : os2ip [x] = x.toNat := by simp [os2ip]
    rw [os2ip_append, hsingle, List.length_append, pow_add, List.length_singleton, pow_one]
    omega

theorem os2ip_toList_lt (str : Bytes32) : os2ip str.toList < 2 ^ 256 := by simpa using os2ip_lt str.toList

/-- The bytes in the middle of a string are the digits in the middle of its value. -/
theorem os2ip_middle (a m c : List Byte) : os2ip (a ++ m ++ c) / 256 ^ c.length % 256 ^ m.length = os2ip m := by
  rw [os2ip_append, os2ip_append, Nat.add_comm (_ * _) (os2ip c), Nat.add_mul_div_right _ _ (by positivity),
    Nat.div_eq_of_lt (os2ip_lt c), Nat.zero_add, Nat.mul_add_mod_self_right, Nat.mod_eq_of_lt (os2ip_lt m)]

/-- The word of a string that goes to word `j` of a register: bytes `4j` to `4j + 3`. -/
def bytesWord (bytes : List Byte) (j : Fin 8) : Word := BitVec.ofNat 32 (os2ip ((bytes.drop (4 * j.val)).take 4))

theorem wordAt_os2ip (str : Bytes32) (j : Fin 8) :
    wordAt (BitVec.ofNat 256 (os2ip str.toList)) j = bytesWord str.toList j := by
  have hsplit : str.toList.take (4 * j.val) ++ (str.toList.drop (4 * j.val)).take 4 ++ str.toList.drop (4 * j.val + 4) =
      str.toList := by
    rw [List.append_assoc, ← List.drop_drop, List.take_append_drop, List.take_append_drop]
  have hword : ((str.toList.drop (4 * j.val)).take 4).length = 4 := by simp; omega
  have hrest : (str.toList.drop (4 * j.val + 4)).length = 28 - 4 * j.val := by simp
  have hmiddle := os2ip_middle (str.toList.take (4 * j.val)) ((str.toList.drop (4 * j.val)).take 4)
    (str.toList.drop (4 * j.val + 4))
  have hshift : 256 ^ (28 - 4 * j.val) = 2 ^ wordShift j := by
    rw [show 256 = 2 ^ 8 from rfl, ← pow_mul, wordShift]
    congr 1
    omega
  rw [hsplit, hword, hrest, hshift, show 256 ^ 4 = 2 ^ 32 by rfl] at hmiddle
  apply BitVec.eq_of_toNat_eq
  rw [wordAt, BitVec.extractLsb'_toNat, BitVec.toNat_ofNat, Nat.mod_eq_of_lt (os2ip_toList_lt str),
    Nat.shiftRight_eq_div_pow, hmiddle, bytesWord, BitVec.toNat_ofNat, ← hmiddle, Nat.mod_mod]

/-- Storing words one after the other gives each word stored, and the old word elsewhere. -/
theorem wordAt_foldl_setWordAt (word : Fin 8 → Word) (js : List (Fin 8)) (x : U256) (k : Fin 8) :
    wordAt (js.foldl (fun x j => setWordAt x j (word j)) x) k = if k ∈ js then word k else wordAt x k := by
  induction js generalizing x with
  | nil => simp
  | cons j js ih =>
    rw [List.foldl_cons, ih]
    by_cases hk : k = j
    · subst hk
      simp
    · simp [hk, wordAt_setWordAt_ne x (word j) (Ne.symm hk)]

theorem writeV_readV (s : State) (i : VReg) : writeV s i (readV s i) = s := by
  simp [writeV, readV]

theorem writeV_writeV (s : State) (i : VReg) (x y : U256) : writeV (writeV s i x) i y = writeV s i y := by
  simp [writeV]

/-- Idle writes of words of one register are one write of that register. -/
theorem foldl_busWrite_data (i : VReg) (word : Fin 8 → Word) (js : List (Fin 8)) {s : State}
    (hphase : s.phase = .idle) :
    js.foldl (fun u j => (busWrite u (0x100 + 0x20 * i.val + 4 * j.val) 4 (word j)).1) s =
      writeV s i (js.foldl (fun x j => setWordAt x j (word j)) (readV s i)) := by
  induction js generalizing s with
  | nil => exact (writeV_readV s i).symm
  | cons j js ih =>
    have hwrite : (busWrite s (0x100 + 0x20 * i.val + 4 * j.val) 4 (word j)).1 =
        writeV s i (setWordAt (readV s i) j (word j)) :=
      congrArg Prod.fst (busWrite_of_idle hphase (target_data i j) (word j))
    rw [List.foldl_cons, hwrite, ih ((writeV_phase s i _).trans hphase), writeV_writeV, readV_writeV_same,
      List.foldl_cons]

/-- Settles O19: the eight writes are one write of a value whose words are the string's. -/
theorem bigEndianLoad : Obligations.BigEndianLoad := by
  unfold Obligations.BigEndianLoad
  intro s i str hphase
  refine ⟨?_, os2ip_toList_lt str⟩
  have hwords : (List.finRange 8).foldl (fun x j => setWordAt x j (bytesWord str.toList j)) (readV s i) =
      BitVec.ofNat 256 (os2ip str.toList) :=
    eq_of_wordAt_eq fun j => by rw [wordAt_foldl_setWordAt, if_pos (List.mem_finRange j), wordAt_os2ip]
  exact (foldl_busWrite_data i (bytesWord str.toList) _ hphase).trans (congrArg (writeV s i) hwords)

/-! ### A host turn (R51, R52) -/

theorem busRead_withTurns (s : State) (rest : List Turn) (off size : Nat) :
    busRead { s with turns := rest } off size = busRead s off size := rfl

theorem writeStatus_withTurns (s : State) (rest : List Turn) (w : Word) :
    writeStatus { s with turns := rest } w = { writeStatus s w with turns := rest } := by
  unfold writeStatus
  split <;> rfl

theorem writeCtrl_withTurns (s : State) (rest : List Turn) (w : Word) :
    writeCtrl { s with turns := rest } w = { writeCtrl s w with turns := rest } := by
  unfold writeCtrl
  split <;> rfl

theorem storeTarget_withTurns (s : State) (rest : List Turn) (t : Target) (w : Word) :
    storeTarget { s with turns := rest } t w = { storeTarget s t w with turns := rest } := by
  cases t with
  | ctrl => exact writeCtrl_withTurns s rest w
  | status => exact writeStatus_withTurns s rest w
  | id | errcode | cmd | data | pointX | pointY | pointTag => rfl

/-- The turns to come play no part in a write. -/
theorem busWrite_withTurns (s : State) (rest : List Turn) (off size : Nat) (w : Word) :
    busWrite { s with turns := rest } off size w =
      ({ (busWrite s off size w).1 with turns := rest }, (busWrite s off size w).2) := by
  have haccepted (t : Target) : writeAccepted { s with turns := rest } t = writeAccepted s t := rfl
  unfold busWrite
  split
  · rfl
  · split
    · rfl
    · rw [haccepted, storeTarget_withTurns]
      split <;> rfl

theorem hostAccess_of_outside {s : State} {a : BusAccess}
    (h : ¬ (s.cfg.base ≤ a.addr ∧ a.addr < s.cfg.base + windowSize)) :
    hostAccess s a = pushReply s .noResponse := by
  simp [hostAccess, windowOffset_eq_none.2 h]

theorem hostAccess_read (s : State) {off : Nat} (h : off < windowSize) (size : Nat) :
    hostAccess s { addr := s.cfg.base + off, size := size, kind := .read } = pushReply s (busRead s off size) := by
  simp [hostAccess, windowOffset_base_add h]

/-- Settles O20: the step is the access on the state with its turn taken, and the turns play no part in the access. -/
theorem hostTurnIsOneAccess : Obligations.HostTurnIsOneAccess := by
  unfold Obligations.HostTurnIsOneAccess
  rintro s ⟨addr, size, kind⟩ rest hturns
  rw [step_of_access hturns]
  refine ⟨fun houtside => ?_, ?_⟩
  · have hout : ¬ (s.cfg.base ≤ addr ∧ addr < s.cfg.base + windowSize) := by
      change addr < s.cfg.base ∨ s.cfg.base + windowSize ≤ addr at houtside
      omega
    rw [hostAccess_of_outside (s := { s with turns := rest }) hout]
    rfl
  · rintro off hoff rfl
    refine ⟨?_, ?_⟩
    · rintro rfl
      rw [hostAccess_read { s with turns := rest } hoff size, busRead_withTurns]
      rfl
    · rintro w rfl
      obtain ⟨-, -, hreplies⟩ := busWrite_surroundings s off size w
      rw [hostAccess_write { s with turns := rest } hoff size w, busWrite_withTurns]
      simp only [pushReply, hreplies]

end Sys2Proof.Machine
end

section
/-! What a command may change and which codes it may raise (spec/10_state.md R35, R39; spec/60_exceptions.md R200). A
completion writes its result's destinations alone, and a command raises what its own checks raise. -/

namespace Sys2Proof.Machine

open Sys2Proof.Expected

/-! ### The frame of a command -/

/-- A result that fits a command is written to its destinations alone. -/
theorem writeResult_frame {i : Instr} {x : Result} (h : x.fits i) (s : State) :
    (∀ r, r ∉ i.dataDests → readV (writeResult s x) r = readV s r) ∧
      (∀ p, p ∉ i.pointDests → readPR (writeResult s x) p = readPR s p) ∧
      (i.isVerify = false → (writeResult s x).valid = s.valid) := by
  cases x with
  | none => exact ⟨fun _ _ => rfl, fun _ _ => rfl, fun _ => rfl⟩
  | data d y =>
    obtain ⟨hd, -⟩ := h
    refine ⟨fun r hr => ?_, fun _ _ => rfl, fun _ => rfl⟩
    simp [writeResult, show d ≠ r from ne_of_mem_of_not_mem hd hr]
  | point d q =>
    obtain ⟨hd, -⟩ := h
    refine ⟨fun _ _ => rfl, fun p hp => ?_, fun _ => rfl⟩
    simp [writeResult, show d ≠ p from ne_of_mem_of_not_mem hd hp]
  | signature dr y ds z =>
    obtain ⟨hdr, hds, -⟩ := h
    refine ⟨fun r hr => ?_, fun _ _ => rfl, fun _ => rfl⟩
    simp [writeResult, show dr ≠ r from ne_of_mem_of_not_mem hdr hr, show ds ≠ r from ne_of_mem_of_not_mem hds hr]
  | verdict b => exact ⟨fun _ _ => rfl, fun _ _ => rfl, fun hverify => absurd h (by simp [Result.fits, hverify])⟩

/-- Settles O29: a completion with an error writes nothing, one with a result writes the command's destinations. -/
theorem commandsWriteOnlyTheirDestinations : Obligations.CommandsWriteOnlyTheirDestinations := by
  unfold Obligations.CommandsWriteOnlyTheirDestinations
  intro i s t hexec
  obtain ⟨r, hr, hfits⟩ := exec_completes i s
  obtain rfl : t = _ := Host.Outcome.next.inj (hexec.symm.trans hr)
  have hcompletion := And.intro (completeState_surroundings s r) (completeState_completed s r)
  cases r with
  | error e => exact ⟨fun _ _ => rfl, fun _ _ => rfl, fun _ => rfl, hcompletion⟩
  | ok x =>
    obtain ⟨hdata, hpoint, hvalid⟩ := writeResult_frame (hfits x rfl) s
    exact ⟨hdata, hpoint, hvalid, hcompletion⟩

/-! ### The codes a command raises (R200) -/

/-- A computation that fails raises one of the codes of `codes`. -/
def RaisesOnly (codes : List Byte) {α : Type} (x : Except ErrCode α) : Prop := ∀ e, x = .error e → errNumber e ∈ codes

section Checks

variable {codes : List Byte} {α β : Type}

theorem raisesOnly_ok (a : α) : RaisesOnly codes (.ok a : Except ErrCode α) := fun _ h => nomatch h

theorem raisesOnly_error {e : ErrCode} (he : errNumber e ∈ codes) : RaisesOnly codes (.error e : Except ErrCode α) := by
  rintro _ ⟨⟩
  exact he

theorem raisesOnly_bind {x : Except ErrCode α} {f : α → Except ErrCode β} (hx : RaisesOnly codes x)
    (hf : ∀ a, RaisesOnly codes (f a)) : RaisesOnly codes (x >>= f) := by
  cases x with
  | error e => exact raisesOnly_error (hx e rfl)
  | ok a => exact hf a

theorem raisesOnly_check {e : ErrCode} (he : errNumber e ∈ codes) (c : Bool) : RaisesOnly codes (check c e) := by
  cases c with
  | true => exact raisesOnly_ok ()
  | false => exact raisesOnly_error he

theorem raisesOnly_check_pure {e : ErrCode} (he : errNumber e ∈ codes) (c : Bool) (a : α) :
    RaisesOnly codes (do check c e; pure a) :=
  raisesOnly_bind (raisesOnly_check he c) fun _ => raisesOnly_ok a

theorem raisesOnly_modulusOperand (h : 0x11 ∈ codes) (s : State) (m : Modulus) :
    RaisesOnly codes (modulusOperand s m) :=
  raisesOnly_check_pure h _ _

theorem raisesOnly_fieldOperand (h : 0x01 ∈ codes) (s : State) (i : VReg) (m : Nat) :
    RaisesOnly codes (fieldOperand s i m) :=
  raisesOnly_check_pure h _ _

theorem raisesOnly_privateKey (h : 0x01 ∈ codes) (s : State) (i : VReg) : RaisesOnly codes (privateKey s i) :=
  raisesOnly_check_pure h _ _

theorem raisesOnly_checkPoint (hrange : 0x01 ∈ codes) (hcurve : 0x04 ∈ codes) (p : Point) :
    RaisesOnly codes (checkPoint p) := by
  cases p with
  | inf => exact raisesOnly_ok _
  | fin x y => exact raisesOnly_bind (raisesOnly_check hrange _) fun _ => raisesOnly_check_pure hcurve _ _

theorem raisesOnly_pointOperand (hrange : 0x01 ∈ codes) (hcurve : 0x04 ∈ codes) (s : State) (p : PReg) :
    RaisesOnly codes (pointOperand s p) :=
  raisesOnly_checkPoint hrange hcurve _

theorem raisesOnly_coordinates (h : 0x12 ∈ codes) (p : Point) : RaisesOnly codes (coordinates p) := by
  cases p with
  | inf => exact raisesOnly_error h
  | fin x y => exact raisesOnly_ok _

theorem raisesOnly_nonceOperand (h : 0x13 ∈ codes) (s : State) (d z : Nat) : RaisesOnly codes (nonceOperand s d z) := by
  unfold nonceOperand
  split
  · exact raisesOnly_error h
  · exact raisesOnly_ok _

/-- The checks every field command begins with (spec/40_field.md R112). -/
theorem raisesOnly_withOperand (hmodulus : 0x11 ∈ codes) (hrange : 0x01 ∈ codes) (s : State) (a : VReg) (m : Modulus)
    {f : Nat → Nat → Except ErrCode Result} (hf : ∀ n x, RaisesOnly codes (f n x)) :
    RaisesOnly codes (withOperand s a m f) :=
  raisesOnly_bind (raisesOnly_modulusOperand hmodulus s m) fun n =>
    raisesOnly_bind (raisesOnly_fieldOperand hrange s a n) (hf n)

theorem raisesOnly_withOperands (hmodulus : 0x11 ∈ codes) (hrange : 0x01 ∈ codes) (s : State) (a b : VReg) (m : Modulus)
    {f : Nat → Nat → Nat → Except ErrCode Result} (hf : ∀ n x y, RaisesOnly codes (f n x y)) :
    RaisesOnly codes (withOperands s a b m f) :=
  raisesOnly_withOperand hmodulus hrange s a m fun n x =>
    raisesOnly_bind (raisesOnly_fieldOperand hrange s b n) (hf n x)

/-- The checks NONCE and SIGN begin with (spec/42_ecdsa.md R174, R176). -/
theorem raisesOnly_withNonce (hkey : 0x01 ∈ codes) (hnonce : 0x13 ∈ codes) (s : State) (d z : VReg)
    {f : Nat → Nat → Except ErrCode Result} (hf : ∀ key n, RaisesOnly codes (f key n)) :
    RaisesOnly codes (withNonce s d z f) :=
  raisesOnly_bind (raisesOnly_privateKey hkey s d) fun key =>
    raisesOnly_bind (raisesOnly_nonceOperand hnonce s key _) (hf key)

end Checks

/-- Each command raises only what the checks it makes raise. -/
theorem exec_raisesOnly_codesOf (i : Instr) (s : State) :
    ∃ r, exec i s = completion s r ∧ RaisesOnly (codesOf i) r := by
  cases i
  all_goals refine ⟨_, rfl, ?_⟩
  case fchk a m | fpow _ _ a _ m =>
    exact raisesOnly_withOperand (codes := [0x00, 0x01, 0x11]) (by decide) (by decide) s a m fun _ _ => raisesOnly_ok _
  case fadd _ a b m | fsub _ a b m | fmul _ a b m =>
    exact raisesOnly_withOperands (codes := [0x00, 0x01, 0x11]) (by decide) (by decide) s a b m
      fun _ _ _ => raisesOnly_ok _
  case fdiv _ a b m =>
    exact raisesOnly_withOperands (codes := [0x00, 0x01, 0x03, 0x11]) (by decide) (by decide) s a b m
      fun _ _ _ => raisesOnly_check_pure (by decide) _ _
  case finv _ a m =>
    exact raisesOnly_withOperand (codes := [0x00, 0x01, 0x03, 0x11]) (by decide) (by decide) s a m
      fun _ _ => raisesOnly_check_pure (by decide) _ _
  case fsqrt _ a m =>
    exact raisesOnly_bind (codes := [0x00, 0x01, 0x11]) (raisesOnly_modulusOperand (by decide) s m) fun n =>
      raisesOnly_bind (raisesOnly_check (by decide) _) fun _ =>
        raisesOnly_bind (raisesOnly_fieldOperand (by decide) s a n) fun _ => raisesOnly_ok _
  case pset =>
    exact raisesOnly_bind (codes := [0x00, 0x01, 0x04]) (raisesOnly_checkPoint (by decide) (by decide) _)
      fun _ => raisesOnly_ok _
  case pinf | pgen => exact raisesOnly_ok _
  case padd _ p q =>
    exact raisesOnly_bind (codes := [0x00, 0x01, 0x04]) (raisesOnly_pointOperand (by decide) (by decide) s p) fun _ =>
      raisesOnly_bind (raisesOnly_pointOperand (by decide) (by decide) s q) fun _ => raisesOnly_ok _
  case pmul _ p _ | verify p _ _ _ =>
    exact raisesOnly_bind (codes := [0x00, 0x01, 0x04]) (raisesOnly_pointOperand (by decide) (by decide) s p)
      fun _ => raisesOnly_ok _
  case pgetx _ p | pgety _ p =>
    exact raisesOnly_bind (codes := [0x00, 0x01, 0x04, 0x12]) (raisesOnly_pointOperand (by decide) (by decide) s p)
      fun a => raisesOnly_bind (raisesOnly_coordinates (by decide) a) fun _ => raisesOnly_ok _
  case kpub _ k =>
    exact raisesOnly_bind (codes := [0x00, 0x01]) (raisesOnly_privateKey (by decide) s k) fun _ => raisesOnly_ok _
  case nonce _ d z =>
    exact raisesOnly_withNonce (codes := [0x00, 0x01, 0x13]) (by decide) (by decide) s d z fun _ _ => raisesOnly_ok _
  case sign _ d z _ =>
    exact raisesOnly_withNonce (codes := [0x00, 0x01, 0x13, 0x14]) (by decide) (by decide) s d z
      fun _ _ => raisesOnly_check_pure (by decide) _ _

theorem zero_mem_codesOf (i : Instr) : 0x00 ∈ codesOf i := by cases i <;> exact List.mem_cons_self

/-- Settles O31: an error is one of the command's own checks', and success is code 0. -/
theorem commandsRaiseOnlyTheirCodes : Obligations.CommandsRaiseOnlyTheirCodes := by
  unfold Obligations.CommandsRaiseOnlyTheirCodes
  intro i s t hexec
  obtain ⟨r, hr, hraises⟩ := exec_raisesOnly_codesOf i s
  obtain rfl : completeState s r = t := Host.Outcome.next.inj (hr.symm.trans hexec)
  cases r with
  | error e => exact hraises e rfl
  | ok x => exact zero_mem_codesOf i

end Sys2Proof.Machine
end
